-- ==== Sys2Proof/Word.lean ====
section
/-! DEFINITION. The words, bytes and bit sequences of the codec core (spec/00_scope.md R12, R13). -/

namespace Sys2Proof

/-- A 32-bit register or command word (R13, R21, R70). -/
abbrev Word := BitVec 32

/-- A byte (R51). -/
abbrev Byte := BitVec 8

/-- A bit sequence: index 0 is the first bit in transmission order (R12); `true` is the bit 1. -/
abbrev BitSeq := List Bool

end Sys2Proof
end

