-- ==== Sys2Proof/Syntax.lean ====
section
/-! DEFINITION. The 31 commands, one constructor per row of spec/opcode_table.json (spec/30_encoding.md R72).
A command has no operand field: every operand is implicit (R70, R73). -/

namespace Sys2Proof

/-- The commands of the codec core (R72), in the table's order. -/
inductive Instr where
  /-- B2BITS, bytes to bits (R91). -/
  | b2bits
  /-- BITS2B, bits to bytes (R92). -/
  | bits2b
  /-- PAR.ADD, append the parity bit (R101). -/
  | parAdd
  /-- PAR.CHK, check and strip the parity bit (R102). -/
  | parChk
  /-- CRC.ADD, pad and append the CRC-32 trailer (R106). -/
  | crcAdd
  /-- CRC.CHK, check and strip the CRC-32 trailer (R107). -/
  | crcChk
  /-- HAM.ENC, Hamming encode (R113). -/
  | hamEnc
  /-- HAM.DEC, Hamming decode (R115). -/
  | hamDec
  /-- SPLIT, cut into chunks of at most MAXPL bits (R131). -/
  | split
  /-- WRAP.CNT, one counted frame (R133). -/
  | wrapCnt
  /-- FRM.CNT, split and frame by count (R134). -/
  | frmCnt
  /-- DFR.CNT, deframe a counted stream (R136). -/
  | dfrCnt
  /-- WRAP.STF, one stuffed frame (R140). -/
  | wrapStf
  /-- FRM.STF, split and frame by stuffing (R141). -/
  | frmStf
  /-- DFR.STF, deframe a stuffed stream (R143). -/
  | dfrStf
  /-- NRZ.MOD (R163). -/
  | nrzMod
  /-- NRZ.DEM (R164). -/
  | nrzDem
  /-- MAN.MOD (R165). -/
  | manMod
  /-- MAN.DEM (R166). -/
  | manDem
  /-- AMI.MOD (R167). -/
  | amiMod
  /-- AMI.DEM (R168). -/
  | amiDem
  /-- ASK.MOD (R184). -/
  | askMod
  /-- ASK.DEM (R185). -/
  | askDem
  /-- FSK.MOD (R187). -/
  | fskMod
  /-- FSK.DEM (R189). -/
  | fskDem
  /-- QAM.MOD (R192). -/
  | qamMod
  /-- QAM.DEM (R194). -/
  | qamDem
  /-- INJ.ONE, flip one fixed bit (R211). -/
  | injOne
  /-- INJ.RND, flip a bounded number of bits (R212). -/
  | injRnd
  /-- TX, transmit (R224). -/
  | tx
  /-- RX, receive (R230). -/
  | rx
deriving DecidableEq, Repr

end Sys2Proof
end

