-- ==== Sys2Proof/WellFormed.lean ====
section
/-! DEFINITION. Well-formedness of commands and command words (spec/30_encoding.md R70, R71, R74). -/

namespace Sys2Proof

/-- Every term of `Instr` is a command: a command has no register field, no immediate and no mode bit that could be
out of range (R70). -/
abbrev Instr.wellFormed (_ : Instr) : Bool := true

/-- The ZERO field [31:8] of format C must be 0 (R70, first check of R71). -/
abbrev zeroFieldOk (w : Word) : Bool := w.extractLsb' 8 24 == 0#24

/-- The OP column of the opcode map (R72). -/
abbrev opcodes : List Nat :=
  [0x01, 0x02,
   0x10, 0x11, 0x12, 0x13, 0x14, 0x15,
   0x20, 0x21, 0x22, 0x23, 0x24, 0x25, 0x26,
   0x30, 0x31, 0x32, 0x33, 0x34, 0x35,
   0x40, 0x41, 0x42, 0x43, 0x44, 0x45,
   0x50, 0x51, 0x58, 0x59]

/-- The OP field [7:0] must be in the opcode map (R70, R72, second check of R71). -/
abbrev opFieldOk (w : Word) : Bool := opcodes.contains (w.extractLsb' 0 8).toNat

/-- A legal command word (R71): every other word is an illegal command (R74). -/
abbrev commandWordOk (w : Word) : Bool := zeroFieldOk w && opFieldOk w

end Sys2Proof
end

