-- ==== Sys2Proof/Decode.lean ====
section
/-! DEFINITION. Decoding a command word, and the encoder (spec/30_encoding.md R70 to R76). -/

namespace Sys2Proof

/-- Why a word written to CMD is an illegal command (R71). Both raise ConfigurationError. -/
inductive DecodeError where
  /-- Bits [31:8] are not 0. -/
  | nonzeroHighBits (w : Word)
  /-- Bits [7:0] are not an opcode of R72. -/
  | unknownOpcode (op : Nat)
deriving DecidableEq, Repr

/-- The OP column of R72 read from left to right: the command of an opcode, if it has one. -/
def instrOfOpcode (op : Nat) : Option Instr :=
  match op with
  | 0x01 => some .b2bits
  | 0x02 => some .bits2b
  | 0x10 => some .parAdd
  | 0x11 => some .parChk
  | 0x12 => some .crcAdd
  | 0x13 => some .crcChk
  | 0x14 => some .hamEnc
  | 0x15 => some .hamDec
  | 0x20 => some .split
  | 0x21 => some .wrapCnt
  | 0x22 => some .frmCnt
  | 0x23 => some .dfrCnt
  | 0x24 => some .wrapStf
  | 0x25 => some .frmStf
  | 0x26 => some .dfrStf
  | 0x30 => some .nrzMod
  | 0x31 => some .nrzDem
  | 0x32 => some .manMod
  | 0x33 => some .manDem
  | 0x34 => some .amiMod
  | 0x35 => some .amiDem
  | 0x40 => some .askMod
  | 0x41 => some .askDem
  | 0x42 => some .fskMod
  | 0x43 => some .fskDem
  | 0x44 => some .qamMod
  | 0x45 => some .qamDem
  | 0x50 => some .injOne
  | 0x51 => some .injRnd
  | 0x58 => some .tx
  | 0x59 => some .rx
  | _ => none

/-- Decode of a word written to CMD (R71): the ZERO field is checked first, then the opcode. -/
def decode (w : Word) : Except DecodeError Instr :=
  if w.extractLsb' 8 24 = 0#24 then
    match instrOfOpcode (w.extractLsb' 0 8).toNat with
    | some i => .ok i
    | none => .error (.unknownOpcode (w.extractLsb' 0 8).toNat)
  else .error (.nonzeroHighBits w)

/-- The OP value of a command (R72). -/
def opcodeOf (i : Instr) : Nat :=
  match i with
  | .b2bits => 0x01
  | .bits2b => 0x02
  | .parAdd => 0x10
  | .parChk => 0x11
  | .crcAdd => 0x12
  | .crcChk => 0x13
  | .hamEnc => 0x14
  | .hamDec => 0x15
  | .split => 0x20
  | .wrapCnt => 0x21
  | .frmCnt => 0x22
  | .dfrCnt => 0x23
  | .wrapStf => 0x24
  | .frmStf => 0x25
  | .dfrStf => 0x26
  | .nrzMod => 0x30
  | .nrzDem => 0x31
  | .manMod => 0x32
  | .manDem => 0x33
  | .amiMod => 0x34
  | .amiDem => 0x35
  | .askMod => 0x40
  | .askDem => 0x41
  | .fskMod => 0x42
  | .fskDem => 0x43
  | .qamMod => 0x44
  | .qamDem => 0x45
  | .injOne => 0x50
  | .injRnd => 0x51
  | .tx => 0x58
  | .rx => 0x59

/-- The command word of a command: OP in [7:0], zeros above (R70). -/
def encode (i : Instr) : Word := BitVec.ofNat 32 (opcodeOf i)

/-- The 32-bit word the host writes to CMD when an instruction has the bits `w`, of which the table gives `nbits`:
bits above `nbits` are 0, and a command word is 32 bits (R70). -/
def tableWord (nbits w : Nat) : Word := BitVec.ofNat 32 (w % 2 ^ nbits)

/-- The command the decoder reads from an instruction whose bits are `w`. There is one word and no byte order to
choose (R70, R76): the word is written to CMD whole. -/
def decodeTableWord (nbits w : Nat) : Option Instr :=
  match decode (tableWord nbits w) with
  | .ok i => some i
  | .error _ => none

end Sys2Proof
end

