-- ==== Sys2Proof/Machine/Bits.lean ====
section
/-! DEFINITION. Bit sequences, bytes and bit order (spec/00_scope.md R12, R13; spec/20_memory.md R51 to R55, R59). -/

namespace Sys2Proof.Machine

/-- The weight of a bit. -/
def bitVal (b : Bool) : Nat := if b then 1 else 0

/-- `be(v, N)`: the `N` bits of `v`, most significant first (R13, R52). -/
def be (v : Nat) : Nat → BitSeq
  | 0 => []
  | n + 1 => v.testBit n :: be v n

/-- `val(b)`: the unsigned integer a bit sequence denotes, first bit most significant (R13). -/
def val (b : BitSeq) : Nat := b.foldl (fun acc x => 2 * acc + bitVal x) 0

/-- `zeros(n)`: n zero bits (R12). -/
def zeros (n : Nat) : BitSeq := List.replicate n false

/-- `sub(b, i, n)`: n elements from index i (R12); shorter where the sequence ends. -/
def sub {α : Type} (b : List α) (i n : Nat) : List α := (b.drop i).take n

/-- `popcount(b)`: the number of ones (R12). -/
def popcount (b : BitSeq) : Nat := b.countP id

/-- `ceil(n / m)` for m ≥ 1 (R119). -/
def ceilDiv (n m : Nat) : Nat := (n + (m - 1)) / m

/-- `pad8(n) = 8 * ceil(n / 8)` (R13). -/
def pad8 (n : Nat) : Nat := 8 * ceilDiv n 8

/-- `clog2(x) = ceil(log2 x)` for x ≥ 1 (R13). -/
def clog2 (x : Nat) : Nat := if x ≤ 1 then 0 else Nat.log2 (x - 1) + 1

/-- The bits of one byte, most significant first (R51). -/
def byteBits (y : Byte) : BitSeq := be y.toNat 8

/-- `bits_of(Y)` (R54). -/
def bitsOf (ys : List Byte) : BitSeq := ys.flatMap byteBits

/-- The byte of 8 bits (R51). -/
def byteOf (b : BitSeq) : Byte := BitVec.ofNat 8 (val b)

/-- `bytes_of(b)` for `len(b) mod 8 = 0`; of any other sequence the whole bytes (R54). -/
def bytesOf (b : BitSeq) : List Byte := (List.range (b.length / 8)).map fun i => byteOf (sub b (8 * i) 8)

/-- `padz(b)`: zero padding on the right up to a multiple of 8 (R54). -/
def padz (b : BitSeq) : BitSeq := b ++ zeros (pad8 b.length - b.length)

/-- `b XOR c` on equal lengths (R12). -/
def xorBits (b c : BitSeq) : BitSeq := List.zipWith xor b c

/-- `win(x, m)`: symbol window m of S samples (R59). -/
def win {α : Type} (x : List α) (S m : Nat) : List α := sub x (m * S) S

/-- The windows of a signal, in order: `len(x) / S` of them (R59). -/
def windows {α : Type} (x : List α) (S : Nat) : List (List α) := (List.range (x.length / S)).map fun m => win x S m

end Sys2Proof.Machine
end

