-- ==== Sys2Proof/Config.lean ====
section
/-! DEFINITION. The free values of the model: what spec/ leaves unspecified (spec/93_implementation_defined.md U2, U4).
Each is opaque and without a body, so that no proof can know a value of it. The OPEN parameters NUMFMT, BUFCAP and
QAM_MAP are in Machine/Sample.lean, in the unbounded lists of Machine/State.lean and in its field `qamMap`. -/

namespace Sys2Proof

/-- U2, R43: what a host read of an unset 32-bit register returns, by register number and epoch (the count of commands
and host writes so far). -/
opaque Config.unsetWord : Nat → Nat → Word

/-- U2, R43: what a host read of an unset real-valued register returns, by register number and epoch. -/
opaque Config.unsetReal : Nat → Nat → ℚ

/-- U4, R212: whether draw number `d` of the injector wants to flip bit `i`. `drawMask` keeps the first INJMAX wishes,
so every admissible mask is the mask of some value of this constant, and no other. -/
opaque Config.flipWish : Nat → Nat → Bool

end Sys2Proof
end

