-- ==== Sys2Proof/Machine/Constellation.lean ====
section
/-! DEFINITION. The 8-QAM constellation and the OPEN table QAM_MAP (spec/44_carrier.md R190, R191; log 6). -/

namespace Sys2Proof.Machine

/-- The eight unit points of R190: the inner four `(±1, ±1)` and the outer four `(±2, 0)`, `(0, ±2)`. -/
inductive QamPoint where
  /-- (+1, +1) -/
  | innerPP
  /-- (+1, -1) -/
  | innerPN
  /-- (-1, +1) -/
  | innerNP
  /-- (-1, -1) -/
  | innerNN
  /-- (+2, 0) -/
  | outerRight
  /-- (-2, 0) -/
  | outerLeft
  /-- (0, +2) -/
  | outerUp
  /-- (0, -2) -/
  | outerDown
deriving DecidableEq, Repr

/-- I/A of a point (R190). -/
def qamI (p : QamPoint) : ℚ :=
  match p with
  | .innerPP | .innerPN => 1
  | .innerNP | .innerNN => -1
  | .outerRight => 2
  | .outerLeft => -2
  | .outerUp | .outerDown => 0

/-- Q/A of a point (R190). -/
def qamQ (p : QamPoint) : ℚ :=
  match p with
  | .innerPP | .innerNP => 1
  | .innerPN | .innerNN => -1
  | .outerRight | .outerLeft => 0
  | .outerUp => 2
  | .outerDown => -2

/-- QAM_MAP: the point of each 3-bit group value 0 to 7 (R191). -/
structure QamMap where
  p0 : QamPoint
  p1 : QamPoint
  p2 : QamPoint
  p3 : QamPoint
  p4 : QamPoint
  p5 : QamPoint
  p6 : QamPoint
  p7 : QamPoint
deriving DecidableEq, Repr

/-- The table as a list, group value 0 first. -/
def qamPoints (m : QamMap) : List QamPoint := [m.p0, m.p1, m.p2, m.p3, m.p4, m.p5, m.p6, m.p7]

/-- The point of a group value. -/
def qamPointOf (m : QamMap) (v : Nat) : QamPoint := (qamPoints m).getD v m.p0

/-- The one constraint on QAM_MAP: it is one-to-one onto the eight points, that is, its eight entries differ (R191). -/
abbrev qamMapLegal (m : QamMap) : Bool := decide (qamPoints m).Nodup

/-- The default table of R191. -/
def qamMapDefault : QamMap where
  p0 := .innerNN
  p1 := .innerNP
  p2 := .innerPN
  p3 := .innerPP
  p4 := .outerLeft
  p5 := .outerUp
  p6 := .outerDown
  p7 := .outerRight

end Sys2Proof.Machine
end

