-- ==== Sys2Proof/Machine/Sample.lean ====
section
/-! DEFINITION. Samples as exact real numbers (spec/00_scope.md R14; the OPEN parameter NUMFMT, log 2).

All sample arithmetic of the rules is exact arithmetic over the reals. A sample is held as a finite sum
`const + Σ amp * cos(2 π turn)` with rational `const`, `amp`, `turn`: the rationals, and every value that the sines and
cosines of the carrier rules take at rational frequencies, times, amplitudes. Sums, products and the order of such
numbers are computed exactly. `Sample.value` (Machine/SampleValue.lean) is the real number a sample stands for. -/

namespace Sys2Proof.Machine

/-- One term `amp * cos(2 π turn)`; `turn` counts whole turns. -/
structure Term where
  turn : ℚ
  amp : ℚ
deriving DecidableEq, Repr

/-- A sample: the real number `const + Σ amp * cos(2 π turn)` (R14). -/
structure Sample where
  const : ℚ
  terms : List Term
deriving DecidableEq, Repr

/-- A rational number as a sample. -/
def Sample.ofRat (q : ℚ) : Sample := ⟨q, []⟩

/-- The sample 0. -/
def Sample.zero : Sample := Sample.ofRat 0

/-- Add one term to a list of terms kept by rising turn; equal turns are merged, a zero amplitude is dropped. -/
def addTerm (t : Term) : List Term → List Term
  | [] => [t]
  | u :: us =>
    if t.turn < u.turn then t :: u :: us
    else if t.turn = u.turn then
      if t.amp + u.amp = 0 then us else ⟨t.turn, t.amp + u.amp⟩ :: us
    else u :: addTerm t us

/-- The sum of two samples. -/
def Sample.add (x y : Sample) : Sample := ⟨x.const + y.const, x.terms.foldr addTerm y.terms⟩

/-- A rational multiple of a sample. -/
def Sample.scale (q : ℚ) (x : Sample) : Sample :=
  if q = 0 then Sample.zero else ⟨q * x.const, x.terms.map fun t => ⟨t.turn, q * t.amp⟩⟩

/-- The negative of a sample. -/
def Sample.neg (x : Sample) : Sample := Sample.scale (-1) x

/-- The difference of two samples. -/
def Sample.diff (x y : Sample) : Sample := Sample.add x (Sample.neg y)

/-- The fractional part of a number of turns, in [0, 1). -/
def fracTurn (θ : ℚ) : ℚ := θ - (θ.floor : ℚ)

/-- `cos(2 π f)` for f in [0, 1/4], in the form kept: the rational values at 0, 1/6 and 1/4 as constants. -/
def cosQuarter (f : ℚ) : Sample :=
  if f = 0 then Sample.ofRat 1
  else if f = 1 / 6 then Sample.ofRat (1 / 2)
  else if f = 1 / 4 then Sample.ofRat 0
  else ⟨0, [⟨f, 1⟩]⟩

/-- `cos(2 π f)` for f in [0, 1/2]: the second quarter is the negative mirror of the first. -/
def cosHalf (f : ℚ) : Sample := if f ≤ 1 / 4 then cosQuarter f else Sample.neg (cosQuarter (1 / 2 - f))

/-- `cos(2 π θ)`: the second half turn mirrors the first. -/
def cosTurn (θ : ℚ) : Sample :=
  if fracTurn θ ≤ 1 / 2 then cosHalf (fracTurn θ) else cosHalf (1 - fracTurn θ)

/-- `sin(2 π θ) = cos(2 π (θ - 1/4))`. -/
def sinTurn (θ : ℚ) : Sample := cosTurn (θ - 1 / 4)

/-- The product of two terms: `cos a cos b = (cos(a + b) + cos(a - b)) / 2`. -/
def termMul (t u : Term) : Sample :=
  Sample.scale (t.amp * u.amp / 2) (Sample.add (cosTurn (t.turn + u.turn)) (cosTurn (t.turn - u.turn)))

/-- A term times a sample. -/
def termTimes (t : Term) (y : Sample) : Sample :=
  y.terms.foldr (fun u acc => Sample.add (termMul t u) acc) (Sample.scale (y.const * t.amp) (cosTurn t.turn))

/-- The product of two samples. -/
def Sample.mul (x y : Sample) : Sample :=
  x.terms.foldr (fun t acc => Sample.add (termTimes t y) acc) (Sample.scale x.const y)

/-- The square of a sample. -/
def Sample.sq (x : Sample) : Sample := Sample.mul x x

/-- The sum of a list of samples. -/
def Sample.sum (xs : List Sample) : Sample := xs.foldr Sample.add Sample.zero

/-- `mean(x) = (sum of x[i]) / len(x)` for len(x) > 0 (R14). -/
def Sample.mean (xs : List Sample) : Sample := Sample.scale (1 / (xs.length : ℚ)) (Sample.sum xs)

/-! ## The order of samples

Signs are decided exactly. A sample with a term is approximated by a rational number; `sepBits` bits are enough, because
a sample that is not 0 has a norm of at least 1 once its denominators are cleared, and so cannot be nearer to 0 than
`1 / (2 D L^N)` (proved in Laws/SampleOrder.lean). -/

/-- Partial sum of `arctan(1/q) = Σ (-1)^j / ((2j + 1) q^(2j + 1))`, j below the second argument. -/
def arctanInv (q : Nat) : Nat → ℚ
  | 0 => 0
  | m + 1 => arctanInv q m + (if m % 2 = 0 then 1 else -1) / ((2 * m + 1) * q ^ (2 * m + 1) : Nat)

/-- π to within `2^-k`: Machin's `16 arctan(1/5) - 4 arctan(1/239)`, rounded down to `k + 2` binary places. -/
def piApprox (k : Nat) : ℚ :=
  (((16 * arctanInv 5 (k / 4 + 3) - 4 * arctanInv 239 (k / 4 + 3)) * 2 ^ (k + 2)).floor : ℚ) / 2 ^ (k + 2)

/-- `Σ (-1)^i y2^i (2j)! / (2j + 2i)!` for i below the second argument; for j = 0 the Taylor sum of `cos` with
`y2` the square of the angle. -/
def cosSeries (y2 : ℚ) : Nat → Nat → ℚ
  | 0, _ => 0
  | m + 1, j => 1 - y2 / (((2 * j + 1) * (2 * j + 2) : Nat) : ℚ) * cosSeries y2 m (j + 1)

/-- `cos(2 π f)` to within `2^-k` for f in [0, 1/4]. -/
def cosApproxQuarter (k : Nat) (f : ℚ) : ℚ := cosSeries ((2 * piApprox (k + 1) * f) ^ 2) (k / 2 + 4) 0

/-- A sample as a rational number, every cosine to within `2^-k`; the terms' turns are folded into [0, 1/4] first. -/
def Sample.approx (k : Nat) (x : Sample) : ℚ :=
  x.terms.foldr (fun t acc =>
    (cosTurn t.turn).terms.foldr (fun u a => t.amp * u.amp * cosApproxQuarter k u.turn + a)
      (t.amp * (cosTurn t.turn).const + acc)) x.const

/-- `Σ |amp|`: by how much `2^-k` is multiplied in the error of `approx k`. -/
def Sample.spread (x : Sample) : ℚ := x.terms.foldr (fun t acc => |t.amp| + acc) 0

/-- A common denominator of the turns. -/
def Sample.turnDen (x : Sample) : Nat := x.terms.foldr (fun t n => Nat.lcm t.turn.den n) 1

/-- A common denominator of the constant and the amplitudes. -/
def Sample.ampDen (x : Sample) : Nat := x.terms.foldr (fun t n => Nat.lcm t.amp.den n) x.const.den

/-- A natural number `L ≥ 1` not below `2 D (|const| + Σ |amp|)`. -/
def Sample.height (x : Sample) : Nat := (2 * (x.ampDen : ℚ) * (|x.const| + x.spread)).floor.toNat + 1

/-- How near to 0 a sample that is not 0 can be: `1 / (2 D L^N)`. -/
def Sample.sep (x : Sample) : ℚ := 1 / (2 * (x.ampDen : ℚ) * (x.height : ℚ) ^ x.turnDen)

/-- How many binary places decide the sign. -/
def Sample.sepBits (x : Sample) : Nat := 2 + (x.turnDen + 1) * (Nat.log2 x.height + 1)

/-- `0 < x`, exactly (R14). A rational sample is compared itself; another is approximated to 64 binary places, and where
those do not decide, to as many as always do. -/
def Sample.pos (x : Sample) : Bool :=
  match x.terms with
  | [] => decide (0 < x.const)
  | _ :: _ =>
    if x.spread / 2 ^ 64 < |x.approx 64| then decide (0 < x.approx 64)
    else decide (x.sep / 2 < x.approx x.sepBits)

/-- `x < y`, exactly (R14). -/
def Sample.lt (x y : Sample) : Bool := (Sample.diff y x).pos

/-- `|x|`. -/
def Sample.abs (x : Sample) : Sample := if (Sample.neg x).pos then Sample.neg x else x

/-- The smallest index of a greatest element (R188: "the smallest k ... on a tie"): the best index and value so far, the
next index, the rest. -/
def argMaxFrom (best : Nat) (v : Sample) (i : Nat) : List Sample → Nat
  | [] => best
  | x :: xs => if Sample.lt v x then argMaxFrom i x (i + 1) xs else argMaxFrom best v (i + 1) xs

/-- The smallest index of a greatest element of a list; 0 for the empty list. -/
def argMax : List Sample → Nat
  | [] => 0
  | x :: xs => argMaxFrom 0 x 1 xs

/-- The smallest index of a least element (R193: "the smallest v ... minimising"). -/
def argMin (xs : List Sample) : Nat := argMax (xs.map Sample.neg)

end Sys2Proof.Machine
end

