-- ==== Sys2Proof/Machine/State.lean ====
section
/-! DEFINITION. The architectural state (spec/10_state.md), the host's pending actions, the reasons to stop, and reset
(R44, R270). -/

namespace Sys2Proof.Machine

/-- The sixteen buffers of R37, and the time axes, by name; what a host read can name. -/
inductive Buffer where
  | byi | bi | si | si2
  | byo | bo | so | tO
  | sd | td | sc | tc
  | sde | tde | sce | tce
deriving DecidableEq, Repr

/-- The output buffers that hold samples: what the host can copy to a sample input (R277, R79). -/
inductive SignalOut where
  | so | sd | sc | sde | sce
deriving DecidableEq, Repr

/-- One action of the host (R8, R21, R37, R79, R270). The host acts only between commands (R275), so an action is one
whole step; writing register 0x00 is the action that issues a command (R34). -/
inductive HostAction where
  /-- Write a 32-bit word to a register number (R21). Number 0x00 issues a command (R34). -/
  | writeWord (n : Nat) (w : Word)
  /-- Write a real number to a register number (R21; rational, log 2). -/
  | writeReal (n : Nat) (q : ℚ)
  /-- Read a register (R21, R43, R64). -/
  | readReg (n : Nat)
  /-- Write BYI (R37). -/
  | putByi (ys : List Byte)
  /-- Write BI (R37). -/
  | putBi (b : BitSeq)
  /-- Write SI (R37). -/
  | putSi (x : List Sample)
  /-- Write SI2 (R37). -/
  | putSi2 (x : List Sample)
  /-- `BYI <- BYO` (R277). -/
  | byiFromByo
  /-- `BI <- BO[k]` (R39). -/
  | biFromPacket (k : Nat)
  /-- `BI <- concat(BO)` (R39). -/
  | biFromAll
  /-- `SI <-` an output signal (R277). -/
  | siFrom (b : SignalOut)
  /-- `SI2 <-` an output signal (R277). -/
  | si2From (b : SignalOut)
  /-- Read a buffer (R37, R64). -/
  | readBuf (b : Buffer)
  /-- Apply reset (R270). -/
  | reset
deriving DecidableEq, Repr

/-- What a host read returns (R21, R37). -/
inductive HostData where
  | word (w : Word)
  | real (q : ℚ)
  | bytes (ys : List Byte)
  | bits (b : BitSeq)
  | packets (l : List BitSeq)
  | samples (x : List Sample)
  | times (t : List ℚ)
deriving DecidableEq, Repr

/-- The state: the registers of R21, the buffers of R37, and the model's own fields. -/
structure State where
  /-- STATUS (R35). -/
  status : Word
  /-- CFG (R22). -/
  cfg : Word
  /-- MAXPL (R24). -/
  maxpl : Word
  /-- SPS, `none` when unset (R25, R43). -/
  sps : Option Word
  /-- DELIM (R32). -/
  delim : Word
  /-- ESC (R32). -/
  esc : Word
  /-- INJPOS, `none` when unset (R33, R43). -/
  injpos : Option Word
  /-- INJMAX, `none` when unset (R33, R43). -/
  injmax : Option Word
  /-- AMP, `none` when unset (R26, R43). -/
  amp : Option ℚ
  /-- FS, `none` when unset (R27, R43). -/
  fs : Option ℚ
  /-- FC, `none` when unset (R28, R43). -/
  fc : Option ℚ
  /-- FLO, `none` when unset (R29, R43). -/
  flo : Option ℚ
  /-- FHI, `none` when unset (R30, R43). -/
  fhi : Option ℚ
  /-- THR (R31). -/
  thr : ℚ
  /-- BYI, the input bytes (R37). -/
  byi : List Byte
  /-- BI, the input bits (R37). -/
  bi : BitSeq
  /-- SI, the input samples (R37). -/
  si : List Sample
  /-- SI2, the second input samples (R37). -/
  si2 : List Sample
  /-- BYO, the output bytes (R37). -/
  byo : List Byte
  /-- BO, the output packets (R37, R39). -/
  bo : List BitSeq
  /-- SO, the output samples (R37). -/
  so : List Sample
  /-- TO, the time axis of SO (R37, R58). -/
  tO : List ℚ
  /-- SD, TX's digital signal (R37, R224). -/
  sd : List Sample
  /-- TD, the time axis of SD (R37, R224). -/
  td : List ℚ
  /-- SC, TX's carrier signal (R37, R224). -/
  sc : List Sample
  /-- TC, the time axis of SC (R37, R224). -/
  tc : List ℚ
  /-- SDE, the corrupted digital signal (R37, R224). -/
  sde : List Sample
  /-- TDE, the time axis of SDE (R37, R224). -/
  tde : List ℚ
  /-- SCE, the corrupted carrier signal (R37, R224). -/
  sce : List Sample
  /-- TCE, the time axis of SCE (R37, R224). -/
  tce : List ℚ
  /-- MODEL: what the host will do next, oldest first (log 1). -/
  hostq : List HostAction
  /-- MODEL: what the host's last read returned (log 13). -/
  rdata : Option HostData
  /-- MODEL: how many commands, host writes and resets there have been (log 4). -/
  epoch : Nat
  /-- MODEL: how many masks the injector has drawn (log 5). -/
  draws : Nat
  /-- MODEL: the OPEN parameter QAM_MAP, which nothing changes (R45, log 6). -/
  qamMap : QamMap
deriving DecidableEq, Repr

/-- Why the machine stops. No command raises one: the six errors of the block are codes in STATUS (R240, R246). -/
inductive Fault where
  /-- Raised by the host action `biFromPacket k` when BO has no packet k: the host asks for a value that does not
  exist, and the spec gives the copy no meaning. Safe: the model stops where nothing is defined. -/
  | noSuchPacket (k : Nat)
deriving DecidableEq, Repr

/-- What the model gives no meaning. -/
inductive Refusal where
  /-- An arm of `exec` without a meaning. No arm has it. Safe. -/
  | notModelled (mnemonic : String)
  /-- Raised by the host actions `writeWord` to a real-valued register and `writeReal` to an integer register other than
  STATUS, of which every write is ignored: a register has one type (R21), and the spec gives a write of the other no
  meaning (log 9). Safe. -/
  | wrongRegisterType (n : Nat)
deriving DecidableEq, Repr

/-- The machine after reset (R44, R270): the registers and buffers as the table of R44 gives them; the host has no
action pending. -/
def State.reset : State where
  status := 0x00000000
  cfg := 0x00000000
  maxpl := 16
  sps := none
  delim := 0x0000007E
  esc := 0x00000023
  injpos := none
  injmax := none
  amp := none
  fs := none
  fc := none
  flo := none
  fhi := none
  thr := 0
  byi := []
  bi := []
  si := []
  si2 := []
  byo := []
  bo := []
  so := []
  tO := []
  sd := []
  td := []
  sc := []
  tc := []
  sde := []
  tde := []
  sce := []
  tce := []
  hostq := []
  rdata := none
  epoch := 0
  draws := 0
  qamMap := qamMapDefault

end Sys2Proof.Machine
end

