-- ==== Sys2Proof/Machine/Flags.lean ====
section
/-! DEFINITION. The error codes and the STATUS word (spec/10_state.md R35, R36; spec/60_exceptions.md R240). -/

namespace Sys2Proof.Machine

/-- The error codes of STATUS.ERR (R35, R240). -/
inductive Err where
  /-- 0, no error. -/
  | ok
  /-- 1, ConfigurationError. -/
  | config
  /-- 2, FramingError. -/
  | framing
  /-- 3, DetectionError. -/
  | detection
  /-- 4, CorrectionFailure. -/
  | correction
  /-- 5, TruncationError. -/
  | truncation
  /-- 6, AlignmentError. -/
  | alignment
deriving DecidableEq, Repr

/-- The numeric code (R35). -/
def errCode (e : Err) : Nat :=
  match e with
  | .ok => 0
  | .config => 1
  | .framing => 2
  | .detection => 3
  | .correction => 4
  | .truncation => 5
  | .alignment => 6

/-- The four flags of STATUS (R35, R36). -/
structure Flags where
  chk : Bool
  detfail : Bool
  corrected : Bool
  corrfail : Bool
deriving DecidableEq, Repr

/-- All four flags 0: what every command that performs no check and no Hamming decode writes (R36). -/
def noFlags : Flags := ⟨false, false, false, false⟩

/-- The flags of a single detection check (R102, R107). -/
def checkFlags (passed : Bool) : Flags := ⟨passed, !passed, false, false⟩

/-- The flags of a single Hamming decode (R115). -/
def decodeFlags (corrected failed : Bool) : Flags := ⟨false, false, corrected, failed⟩

/-- The STATUS word a completed command leaves: ERR in [3:0], CHK, DETFAIL, CORRECTED, CORRFAIL in [7:4], DONE = 1 in
[8], zeros above (R35). -/
def statusWord (e : Err) (f : Flags) : Word :=
  BitVec.ofNat 32
    (errCode e + f.chk.toNat * 16 + f.detfail.toNat * 32 + f.corrected.toNat * 64 + f.corrfail.toNat * 128 + 256)

/-- STATUS.ERR (R35). -/
def statusErr (w : Word) : Nat := (w.extractLsb' 0 4).toNat

/-- STATUS.CHK (R35). -/
def statusChk (w : Word) : Bool := w.getLsbD 4

/-- STATUS.DETFAIL (R35). -/
def statusDetfail (w : Word) : Bool := w.getLsbD 5

/-- STATUS.CORRECTED (R35). -/
def statusCorrected (w : Word) : Bool := w.getLsbD 6

/-- STATUS.CORRFAIL (R35). -/
def statusCorrfail (w : Word) : Bool := w.getLsbD 7

/-- STATUS.DONE (R35). -/
def statusDone (w : Word) : Bool := w.getLsbD 8

end Sys2Proof.Machine
end

