-- ==== Sys2Proof/Machine/Ops.lean ====
section
/-! DEFINITION. The named operations over registers and buffers, and ending a command (spec/10_state.md R21, R37 to R43;
spec/60_exceptions.md R246). There is no memory (R50) and no saved state to return to (R253). -/

namespace Sys2Proof.Machine

/-! ## Writing outputs -/

/-- `STATUS <- w`. -/
def State.setStatus (w : Word) (s : State) : State := { s with status := w }

/-- `BO <- l` (R39). -/
def State.putBo (l : List BitSeq) (s : State) : State := { s with bo := l }

/-- `BYO <- ys`. -/
def State.putByo (ys : List Byte) (s : State) : State := { s with byo := ys }

/-- `SO <- x; TO <- t`. -/
def State.putSo (x : List Sample) (t : List ℚ) (s : State) : State := { s with so := x, tO := t }

/-- SD, SC and their time axes (R224). -/
def State.putTxSignals (x : List Sample) (tx : List ℚ) (y : List Sample) (ty : List ℚ) (s : State) : State :=
  { s with sd := x, td := tx, sc := y, tc := ty }

/-- SDE, SCE and their time axes (R224). -/
def State.putTxErrorSignals (x : List Sample) (tx : List ℚ) (y : List Sample) (ty : List ℚ) (s : State) : State :=
  { s with sde := x, tde := tx, sce := y, tce := ty }

/-- One more draw of the injector has been made (log 5). -/
def State.countDraw (s : State) : State := { s with draws := s.draws + 1 }

/-! ## Ending a command -/

/-- The output buffers a command owns (R38). -/
inductive Owned where
  /-- An illegal command word owns no output buffer (R71). -/
  | nothing
  /-- BO. -/
  | bo
  /-- BYO (BITS2B). -/
  | byo
  /-- SO and TO (the MOD commands). -/
  | signal
  /-- The nine outputs of TX (R224). -/
  | tx
  /-- BYO and BO (RX, R230). -/
  | rx
deriving DecidableEq, Repr

/-- Write the owned outputs empty (R246 step 3). -/
def State.clearOwned (o : Owned) (s : State) : State :=
  match o with
  | .nothing => s
  | .bo => s.putBo []
  | .byo => s.putByo []
  | .signal => s.putSo [] []
  | .tx => ((s.putBo []).putTxSignals [] [] [] []).putTxErrorSignals [] [] [] []
  | .rx => (s.putByo []).putBo []

/-- The end of a command that has done all its work: STATUS is written in full. DetectionError and CorrectionFailure are
raised here, with the outputs holding the best-effort result (R35, R246). -/
def State.complete (e : Err) (f : Flags) (s : State) : State := s.setStatus (statusWord e f)

/-- `raise` of an aborting error, the block's form of exception entry (R246): the owned outputs are written empty and
STATUS gets the code, all flags 0 and DONE; nothing else changes and control goes nowhere (R253). -/
def State.raise (o : Owned) (e : Err) (s : State) : State := (s.clearOwned o).setStatus (statusWord e noFlags)

/-- The end of a command whose one output is BO: the packets, or an aborting error. -/
def State.finishBo (r : Except Err (List BitSeq)) (s : State) : State :=
  match r with
  | .ok l => (s.putBo l).complete .ok noFlags
  | .error e => s.raise .bo e

/-- The end of a command whose outputs are SO and TO: the signal and its time axis, or an aborting error. -/
def State.finishSignal (r : Except Err (List Sample × List ℚ)) (s : State) : State :=
  match r with
  | .ok (x, t) => (s.putSo x t).complete .ok noFlags
  | .error e => s.raise .signal e

/-! ## The register port (R21) -/

/-- The kinds of register number (R21). -/
inductive RegKind where
  | wordReg
  | realReg
  | absent
deriving DecidableEq, Repr

/-- Which register numbers are implemented, and with which type (R21). -/
def regKind (n : Nat) : RegKind :=
  if n ≤ 0x08 then .wordReg
  else if 0x10 ≤ n ∧ n ≤ 0x15 then .realReg
  else .absent

/-- A host write of a word to a register other than CMD: stored as written; a write of STATUS or of a number that is not
implemented is ignored (R21, R22, R32). -/
def State.writeWordReg (n : Nat) (w : Word) (s : State) : State :=
  match n with
  | 0x02 => { s with cfg := w }
  | 0x03 => { s with maxpl := w }
  | 0x04 => { s with sps := some w }
  | 0x05 => { s with delim := w }
  | 0x06 => { s with esc := w }
  | 0x07 => { s with injpos := some w }
  | 0x08 => { s with injmax := some w }
  | _ => s

/-- A host write of a real number to a register; a number that is not implemented is ignored (R21). -/
def State.writeRealReg (n : Nat) (q : ℚ) (s : State) : State :=
  match n with
  | 0x10 => { s with amp := some q }
  | 0x11 => { s with fs := some q }
  | 0x12 => { s with fc := some q }
  | 0x13 => { s with flo := some q }
  | 0x14 => { s with fhi := some q }
  | 0x15 => { s with thr := q }
  | _ => s

/-- The word a host reads from an integer register that can be unset: an unset one gives a free value (R43, log 4). -/
def readWordOr (n epoch : Nat) (r : Option Word) : HostData := .word (r.getD (Config.unsetWord n epoch))

/-- The number a host reads from a real-valued register that can be unset (R43, log 4). -/
def readRealOr (n epoch : Nat) (r : Option ℚ) : HostData := .real (r.getD (Config.unsetReal n epoch))

/-- A host read of a register: CMD and the numbers that are not implemented give 0 (R21). -/
def State.readReg (n : Nat) (s : State) : HostData :=
  match n with
  | 0x01 => .word s.status
  | 0x02 => .word s.cfg
  | 0x03 => .word s.maxpl
  | 0x04 => readWordOr n s.epoch s.sps
  | 0x05 => .word s.delim
  | 0x06 => .word s.esc
  | 0x07 => readWordOr n s.epoch s.injpos
  | 0x08 => readWordOr n s.epoch s.injmax
  | 0x10 => readRealOr n s.epoch s.amp
  | 0x11 => readRealOr n s.epoch s.fs
  | 0x12 => readRealOr n s.epoch s.fc
  | 0x13 => readRealOr n s.epoch s.flo
  | 0x14 => readRealOr n s.epoch s.fhi
  | 0x15 => .real s.thr
  | _ => .word 0

/-! ## The buffers as the host sees them (R37) -/

/-- A host read of a buffer. -/
def State.readBuf (b : Buffer) (s : State) : HostData :=
  match b with
  | .byi => .bytes s.byi
  | .bi => .bits s.bi
  | .si => .samples s.si
  | .si2 => .samples s.si2
  | .byo => .bytes s.byo
  | .bo => .packets s.bo
  | .so => .samples s.so
  | .tO => .times s.tO
  | .sd => .samples s.sd
  | .td => .times s.td
  | .sc => .samples s.sc
  | .tc => .times s.tc
  | .sde => .samples s.sde
  | .tde => .times s.tde
  | .sce => .samples s.sce
  | .tce => .times s.tce

/-- An output signal. -/
def State.signalOut (b : SignalOut) (s : State) : List Sample :=
  match b with
  | .so => s.so
  | .sd => s.sd
  | .sc => s.sc
  | .sde => s.sde
  | .sce => s.sce

/-- Reset applied by the host (R270, R271): every register and buffer gets its reset value. The host's own pending
actions, what it last read, the two counters and the constant QAM_MAP are not state of the block and stay (log 10). -/
def State.applyReset (s : State) : State :=
  { State.reset with hostq := s.hostq, rdata := s.rdata, epoch := s.epoch, draws := s.draws, qamMap := s.qamMap }

end Sys2Proof.Machine
end

