-- ==== Sys2Proof/Machine/BitCodec.lean ====
section
/-! DEFINITION. The BitCodec family (spec/40_bitcodec.md). -/

namespace Sys2Proof.Machine

/-- B2BITS (R91): `BO <- [ bits_of(BYI) ]`; no error. -/
def execB2bits (s : State) : Host.Outcome State Fault Refusal :=
  .next (s.finishBo (.ok [bitsOf s.byi]))

/-- BITS2B (R92): `BYO <- bytes_of(BI)`; AlignmentError when `len(BI)` is not a multiple of 8. -/
def execBits2b (s : State) : Host.Outcome State Fault Refusal :=
  .next (if s.bi.length % 8 = 0 then (s.putByo (bytesOf s.bi)).complete .ok noFlags else s.raise .byo .alignment)

end Sys2Proof.Machine
end

