-- ==== Sys2Proof/Machine/Operands.lean ====
section
/-! DEFINITION. How a command reads its operands: the fields of CFG and the checks on registers (spec/10_state.md R22 to
R33, R43; spec/60_exceptions.md R241, R248). Every reader answers `none` where the spec raises ConfigurationError. -/

namespace Sys2Proof.Machine

/-! ## CFG (R22, R23) -/

/-- CFG.FRAMING. -/
inductive Framing where
  | count
  | stuff
deriving DecidableEq, Repr

/-- A detection method. -/
inductive Det where
  | parity
  | crc32
deriving DecidableEq, Repr

/-- CFG.LINE, the line code. -/
inductive LineCode where
  | nrz
  | man
  | ami
deriving DecidableEq, Repr

/-- CFG.CARR, the carrier code. -/
inductive CarrierCode where
  | ask
  | fsk
  | qam8
deriving DecidableEq, Repr

/-- CFG.RXSRC. -/
inductive RxSource where
  | line
  | carrier
deriving DecidableEq, Repr

/-- CFG.INJ. -/
inductive Injection where
  | off
  | one
  | rnd
deriving DecidableEq, Repr

/-- A legal configuration, its fields read out; `det` is the detection list DET. -/
structure CfgFields where
  framing : Framing
  det : List Det
  ham : Bool
  line : LineCode
  carr : CarrierCode
  rxsrc : RxSource
  inj : Injection
deriving DecidableEq, Repr

/-- `w[hi:lo]` (R13). -/
def field (w : Word) (hi lo : Nat) : Nat := (w.extractLsb' lo (hi - lo + 1)).toNat

/-- CFG.FRAMING, bit [0]. -/
def cfgFraming (w : Word) : Framing := if w.getLsbD 0 then .stuff else .count

/-- The detection list of CFG.DET0 [2:1] and CFG.DET1 [4:3] with the NONE entries removed; none for an illegal pair: a
reserved code, a duplicate, DET1 without DET0 (R22, R23). -/
def cfgDet (w : Word) : Option (List Det) :=
  match field w 2 1, field w 4 3 with
  | 0, 0 => some []
  | 1, 0 => some [.parity]
  | 2, 0 => some [.crc32]
  | 1, 2 => some [.parity, .crc32]
  | 2, 1 => some [.crc32, .parity]
  | _, _ => none

/-- CFG.LINE, bits [7:6]; the code 3 is reserved. -/
def cfgLine (w : Word) : Option LineCode :=
  match field w 7 6 with
  | 0 => some .nrz
  | 1 => some .man
  | 2 => some .ami
  | _ => none

/-- CFG.CARR, bits [9:8]; the code 3 is reserved. -/
def cfgCarr (w : Word) : Option CarrierCode :=
  match field w 9 8 with
  | 0 => some .ask
  | 1 => some .fsk
  | 2 => some .qam8
  | _ => none

/-- CFG.RXSRC, bit [10]. -/
def cfgRxsrc (w : Word) : RxSource := if w.getLsbD 10 then .carrier else .line

/-- CFG.INJ, bits [12:11]; the code 3 is reserved. -/
def cfgInj (w : Word) : Option Injection :=
  match field w 12 11 with
  | 0 => some .off
  | 1 => some .one
  | 2 => some .rnd
  | _ => none

/-- The configuration a CFG word stands for, if it is legal (R22, R23). -/
def readCfg (w : Word) : Option CfgFields :=
  if field w 31 13 = 0 then
    match cfgDet w, cfgLine w, cfgCarr w, cfgInj w with
    | some d, some l, some c, some i => some ⟨cfgFraming w, d, w.getLsbD 5, l, c, cfgRxsrc w, i⟩
    | _, _, _, _ => none
  else none

/-! ## Registers -/

/-- MAXPL as a natural; 0 is illegal (R24, R130). -/
def readMaxpl (s : State) : Option Nat := if s.maxpl.toNat = 0 then none else some s.maxpl.toNat

/-- MAXPL for TX and RX: not 0 and a multiple of 8 (R24, R220 check 2). -/
def readMaxpl8 (s : State) : Option Nat :=
  if s.maxpl.toNat = 0 ∨ s.maxpl.toNat % 8 ≠ 0 then none else some s.maxpl.toNat

/-- SPS, set and at least `least` (R25, R160, R180). -/
def readSps (least : Nat) (s : State) : Option Nat :=
  match s.sps with
  | some w => if least ≤ w.toNat then some w.toNat else none
  | none => none

/-- A real-valued register that must be set and > 0 (AMP, FS; R26, R27). -/
def readPositive (r : Option ℚ) : Option ℚ :=
  match r with
  | some q => if 0 < q then some q else none
  | none => none

/-- THR, which must be ≥ 0 (R31). -/
def readThr (s : State) : Option ℚ := if 0 ≤ s.thr then some s.thr else none

/-- The delimiter and the escape byte, DELIM[7:0] and ESC[7:0], which must differ (R32, R130). -/
def readDelimEsc (s : State) : Option (Byte × Byte) :=
  if s.delim.extractLsb' 0 8 = s.esc.extractLsb' 0 8 then none
  else some (s.delim.extractLsb' 0 8, s.esc.extractLsb' 0 8)

/-! ## Operand groups -/

/-- What every MOD command reads: S, A and FS. -/
structure ModRegs where
  sps : Nat
  amp : ℚ
  fs : ℚ
deriving DecidableEq, Repr

/-- SPS, AMP and FS as a MOD command checks them (R160, R180). -/
def readModRegs (least : Nat) (s : State) : Option ModRegs :=
  match readSps least s, readPositive s.amp, readPositive s.fs with
  | some n, some a, some f => some ⟨n, a, f⟩
  | _, _, _ => none

/-- What a MOD or DEM command with one carrier reads: ASK.MOD, QAM.MOD, QAM.DEM (R180). -/
structure CarrierRegs where
  sps : Nat
  amp : ℚ
  fs : ℚ
  fc : ℚ
deriving DecidableEq, Repr

/-- SPS, AMP, FS and FC (R180). -/
def readCarrierRegs (s : State) : Option CarrierRegs :=
  match readModRegs 1 s, s.fc with
  | some m, some c => some ⟨m.sps, m.amp, m.fs, c⟩
  | _, _ => none

/-- What FSK.MOD reads (R180). -/
structure FskModRegs where
  sps : Nat
  amp : ℚ
  fs : ℚ
  flo : ℚ
  fhi : ℚ
deriving DecidableEq, Repr

/-- SPS, AMP, FS, FLO and FHI (R180). -/
def readFskModRegs (s : State) : Option FskModRegs :=
  match readModRegs 1 s, s.flo, s.fhi with
  | some m, some l, some h => some ⟨m.sps, m.amp, m.fs, l, h⟩
  | _, _, _ => none

/-- What FSK.DEM reads (R180). -/
structure FskDemRegs where
  sps : Nat
  fs : ℚ
  flo : ℚ
  fhi : ℚ
deriving DecidableEq, Repr

/-- SPS, FS, FLO and FHI (R180). -/
def readFskDemRegs (s : State) : Option FskDemRegs :=
  match readSps 1 s, readPositive s.fs, s.flo, s.fhi with
  | some n, some f, some l, some h => some ⟨n, f, l, h⟩
  | _, _, _, _ => none

/-- What AMI.DEM and ASK.DEM read: SPS and THR (R160, R180). -/
structure ThrRegs where
  sps : Nat
  thr : ℚ
deriving DecidableEq, Repr

/-- SPS and THR (R160, R180). -/
def readThrRegs (s : State) : Option ThrRegs :=
  match readSps 1 s, readThr s with
  | some n, some t => some ⟨n, t⟩
  | _, _ => none

end Sys2Proof.Machine
end

