-- ==== Sys2Proof/Machine/Framer.lean ====
section
/-! DEFINITION. The Framer family (spec/42_framer.md): splitting, counted frames, stuffed frames. -/

namespace Sys2Proof.Machine

/-- `split(b, M)` for M ≥ 1 (R131). -/
def splitBits (b : BitSeq) (M : Nat) : List BitSeq :=
  (List.range (ceilDiv b.length M)).map fun i => sub b (i * M) M

/-! ## Counted frames -/

/-- `wrap_cnt(ch)`; none where the count does not fit its 8 bits (R133). -/
def wrapCount (ch : BitSeq) : Option BitSeq :=
  if 255 < ceilDiv ch.length 8 then none else some (be (ceilDiv ch.length 8) 8 ++ ch)

/-- All of a list of optional results, or none. -/
def allSome {α : Type} : List (Option α) → Option (List α)
  | [] => some []
  | none :: _ => none
  | some x :: xs => match allSome xs with
    | some ys => some (x :: ys)
    | none => none

/-- `frame_by_count(b, M)` (R134). -/
def frameByCount (b : BitSeq) (M : Nat) : Option (List BitSeq) := allSome ((splitBits b M).map wrapCount)

/-- `deframe_by_count` of the rest of a stream (R135); the first argument bounds the number of frames. -/
def deframeCountFrom : Nat → BitSeq → Option (List BitSeq)
  | 0, _ => some []
  | fuel + 1, s =>
    if s.length < 8 then some []
    else if (s.drop 8).length < 8 * val (s.take 8) then none
    else match deframeCountFrom fuel ((s.drop 8).drop (8 * val (s.take 8))) with
      | some l => some ((s.drop 8).take (8 * val (s.take 8)) :: l)
      | none => none

/-- `deframe_by_count(s)`; none is the FramingError (R135). Every frame takes at least 8 bits of the stream. -/
def deframeByCount (s : BitSeq) : Option (List BitSeq) := deframeCountFrom (s.length / 8 + 1) s

/-! ## Stuffed frames -/

/-- One aligned byte of `stuff`: preceded by the escape where it equals the delimiter or the escape (R139). -/
def stuffByte (d e : Byte) (y : BitSeq) : BitSeq :=
  if byteOf y = d ∨ byteOf y = e then byteBits e ++ y else y

/-- `stuff(ch, D, E)` (R139): the whole bytes from the chunk's first bit, then the last 0 to 7 bits unchanged. -/
def stuffBits (ch : BitSeq) (d e : Byte) : BitSeq :=
  ((List.range (ch.length / 8)).map fun i => stuffByte d e (sub ch (8 * i) 8)).flatten
    ++ ch.drop (8 * (ch.length / 8))

/-- `wrap_stf(ch, D, E)` (R140). -/
def wrapStuffed (ch : BitSeq) (d e : Byte) : BitSeq := byteBits d ++ stuffBits ch d e ++ byteBits d

/-- `frame_by_stuffing(b, M, D, E)` (R141). -/
def frameByStuffing (b : BitSeq) (M : Nat) (d e : Byte) : List BitSeq :=
  (splitBits b M).map fun ch => wrapStuffed ch d e

/-- The tokeniser of R142 over the bytes left: the chunk being collected, whether a delimiter has been seen. None is the
FramingError. -/
def unstuffFrom (d e : Byte) (cur : BitSeq) (opened : Bool) : List Byte → Option (List BitSeq)
  | [] => if cur = [] then some [] else none
  | y :: ys =>
    if y = d then
      if cur = [] then unstuffFrom d e [] true ys
      else if opened then
        match unstuffFrom d e [] true ys with
        | some l => some (cur :: l)
        | none => none
      else none
    else if y = e then
      match ys with
      | [] => none
      | z :: zs => unstuffFrom d e (cur ++ byteBits z) opened zs
    else unstuffFrom d e (cur ++ byteBits y) opened ys

/-- `deframe_by_stuffing(s, D, E)` over the whole bytes of the stream; the last 0 to 7 bits are ignored (R142). -/
def deframeByStuffing (s : BitSeq) (d e : Byte) : Option (List BitSeq) := unstuffFrom d e [] false (bytesOf s)

/-! ## Commands -/

/-- FramingError for a missing result (R145). -/
def orFraming {α : Type} (r : Option α) : Except Err α :=
  match r with
  | some x => .ok x
  | none => .error .framing

/-- ConfigurationError for a failed check (R241). -/
def orConfig {α : Type} (r : Option α) : Except Err α :=
  match r with
  | some x => .ok x
  | none => .error .config

/-- The rest of a command after its checks. -/
def andThen {α β : Type} (r : Except Err α) (f : α → Except Err β) : Except Err β :=
  match r with
  | .ok x => f x
  | .error e => .error e

/-- SPLIT (R131). -/
def execSplit (s : State) : Host.Outcome State Fault Refusal :=
  .next (s.finishBo (andThen (orConfig (readMaxpl s)) fun M => .ok (splitBits s.bi M)))

/-- WRAP.CNT (R133). -/
def execWrapCnt (s : State) : Host.Outcome State Fault Refusal :=
  .next (s.finishBo (andThen (orFraming (wrapCount s.bi)) fun f => .ok [f]))

/-- FRM.CNT (R134). -/
def execFrmCnt (s : State) : Host.Outcome State Fault Refusal :=
  .next (s.finishBo (andThen (orConfig (readMaxpl s)) fun M => orFraming (frameByCount s.bi M)))

/-- DFR.CNT (R136). -/
def execDfrCnt (s : State) : Host.Outcome State Fault Refusal :=
  .next (s.finishBo (orFraming (deframeByCount s.bi)))

/-- WRAP.STF (R140). -/
def execWrapStf (s : State) : Host.Outcome State Fault Refusal :=
  .next (s.finishBo (andThen (orConfig (readDelimEsc s)) fun de => .ok [wrapStuffed s.bi de.1 de.2]))

/-- FRM.STF (R141). -/
def execFrmStf (s : State) : Host.Outcome State Fault Refusal :=
  .next (s.finishBo (andThen (orConfig (readMaxpl s)) fun M =>
    andThen (orConfig (readDelimEsc s)) fun de => .ok (frameByStuffing s.bi M de.1 de.2)))

/-- DFR.STF (R143). -/
def execDfrStf (s : State) : Host.Outcome State Fault Refusal :=
  .next (s.finishBo (andThen (orConfig (readDelimEsc s)) fun de => orFraming (deframeByStuffing s.bi de.1 de.2)))

end Sys2Proof.Machine
end

