-- ==== Sys2Proof/Machine/LineCoder.lean ====
section
/-! DEFINITION. The LineCoder family (spec/43_linecoder.md). -/

namespace Sys2Proof.Machine

/-- `rep(v, n)` (R12). -/
def rep (v : Sample) (n : Nat) : List Sample := List.replicate n v

/-- The levels +A, -A, 0 (R161). -/
def level (q : ℚ) : Sample := Sample.ofRat q

/-- `time(n) = < j / FS for j in 0 .. n-1 >` (R58, R214). -/
def timeAxis (fs : ℚ) (n : Nat) : List ℚ := (List.range n).map fun (j : Nat) => (j : ℚ) / fs

/-! ## Modulators -/

/-- `nrz_mod(b)` (R163). -/
def nrzMod (S : Nat) (A : ℚ) (b : BitSeq) : List Sample :=
  b.flatMap fun x => rep (level (if x then A else -A)) S

/-- `man_sym(x)`: the first floor(S/2) samples, then the rest of the opposite sign (R165). -/
def manSym (S : Nat) (A : ℚ) (x : Bool) : List Sample :=
  rep (level (if x then A else -A)) (S / 2) ++ rep (level (if x then -A else A)) (S - S / 2)

/-- `man_mod(b)` (R165). -/
def manMod (S : Nat) (A : ℚ) (b : BitSeq) : List Sample := b.flatMap (manSym S A)

/-- `ami_mod(b)` from a polarity on: `pol` is the signed level of the next one-bit (R167). -/
def amiModFrom (S : Nat) (pol : ℚ) : BitSeq → List Sample
  | [] => []
  | x :: xs => if x then rep (level pol) S ++ amiModFrom S (-pol) xs else rep (level 0) S ++ amiModFrom S pol xs

/-- `ami_mod(b)` (R167): the polarity starts at +. -/
def amiMod (S : Nat) (A : ℚ) (b : BitSeq) : List Sample := amiModFrom S A b

/-! ## Demodulators: one bit per window -/

/-- The bit of an NRZ window: the sign of its sum; 0 decodes as 0 (R164). -/
def nrzBit (w : List Sample) : Bool := (Sample.sum w).pos

/-- `nrz_dem(x)` (R164). -/
def nrzDem (S : Nat) (x : List Sample) : BitSeq := (windows x S).map nrzBit

/-- The bit of a Manchester window: 1 where the mean falls across the midpoint (R166). -/
def manBit (S : Nat) (w : List Sample) : Bool :=
  Sample.lt (Sample.mean (w.drop (S / 2))) (Sample.mean (w.take (S / 2)))

/-- `man_dem(x)` (R166). -/
def manDem (S : Nat) (x : List Sample) : BitSeq := (windows x S).map (manBit S)

/-- The bit of an AMI window: the mean of the absolute values exceeds THR (R168). -/
def amiBit (thr : ℚ) (w : List Sample) : Bool := Sample.lt (Sample.ofRat thr) (Sample.mean (w.map Sample.abs))

/-- `ami_dem(x)` (R168). -/
def amiDem (S : Nat) (thr : ℚ) (x : List Sample) : BitSeq := (windows x S).map (amiBit thr)

/-! ## Modulators and demodulators with their operands -/

/-- A modulator with its operands read: the signal of a bit sequence, and FS. -/
structure Modulator where
  signal : BitSeq → List Sample
  fs : ℚ

/-- A demodulator with its operands read: the bits of a signal, and S. -/
structure Demodulator where
  bits : List Sample → BitSeq
  sps : Nat

/-- NRZ.MOD's operands and function (R160, R163). -/
def nrzModulator (s : State) : Option Modulator :=
  match readModRegs 1 s with
  | some r => some ⟨nrzMod r.sps r.amp, r.fs⟩
  | none => none

/-- MAN.MOD's operands and function; S = 1 is refused (R160, R165). -/
def manModulator (s : State) : Option Modulator :=
  match readModRegs 2 s with
  | some r => some ⟨manMod r.sps r.amp, r.fs⟩
  | none => none

/-- AMI.MOD's operands and function (R160, R167). -/
def amiModulator (s : State) : Option Modulator :=
  match readModRegs 1 s with
  | some r => some ⟨amiMod r.sps r.amp, r.fs⟩
  | none => none

/-- NRZ.DEM's operands and function (R160, R164). -/
def nrzDemodulator (s : State) : Option Demodulator :=
  match readSps 1 s with
  | some n => some ⟨nrzDem n, n⟩
  | none => none

/-- MAN.DEM's operands and function; S = 1 is refused (R160, R166). -/
def manDemodulator (s : State) : Option Demodulator :=
  match readSps 2 s with
  | some n => some ⟨manDem n, n⟩
  | none => none

/-- AMI.DEM's operands and function (R160, R168). -/
def amiDemodulator (s : State) : Option Demodulator :=
  match readThrRegs s with
  | some r => some ⟨amiDem r.sps r.thr, r.sps⟩
  | none => none

/-- What a MOD command writes to SO and TO (R161, R181). -/
def modulate (m : Option Modulator) (b : BitSeq) : Except Err (List Sample × List ℚ) :=
  andThen (orConfig m) fun m => .ok (m.signal b, timeAxis m.fs (m.signal b).length)

/-- What a demodulator delivers: TruncationError where the last window is short (R162, R182). -/
def demodulate (m : Option Demodulator) (x : List Sample) : Except Err BitSeq :=
  andThen (orConfig m) fun m => if x.length % m.sps = 0 then .ok (m.bits x) else .error .truncation

/-- What a DEM command writes to BO: one packet (R162, R182). -/
def demodulatePacket (m : Option Demodulator) (x : List Sample) : Except Err (List BitSeq) :=
  andThen (demodulate m x) fun b => .ok [b]

/-! ## Commands -/

/-- NRZ.MOD (R163). -/
def execNrzMod (s : State) : Host.Outcome State Fault Refusal := .next (s.finishSignal (modulate (nrzModulator s) s.bi))

/-- NRZ.DEM (R164). -/
def execNrzDem (s : State) : Host.Outcome State Fault Refusal :=
  .next (s.finishBo (demodulatePacket (nrzDemodulator s) s.si))

/-- MAN.MOD (R165). -/
def execManMod (s : State) : Host.Outcome State Fault Refusal := .next (s.finishSignal (modulate (manModulator s) s.bi))

/-- MAN.DEM (R166). -/
def execManDem (s : State) : Host.Outcome State Fault Refusal :=
  .next (s.finishBo (demodulatePacket (manDemodulator s) s.si))

/-- AMI.MOD (R167). -/
def execAmiMod (s : State) : Host.Outcome State Fault Refusal := .next (s.finishSignal (modulate (amiModulator s) s.bi))

/-- AMI.DEM (R168). -/
def execAmiDem (s : State) : Host.Outcome State Fault Refusal :=
  .next (s.finishBo (demodulatePacket (amiDemodulator s) s.si))

end Sys2Proof.Machine
end

