-- ==== Sys2Proof/Machine/Carrier.lean ====
section
/-! DEFINITION. The CarrierModulator family (spec/44_carrier.md). -/

namespace Sys2Proof.Machine

/-- The phase `ph(f, j) = 2 π f j / FS`, in turns (R181). -/
def phaseTurns (f fs : ℚ) (j : Nat) : ℚ := f * (j : ℚ) / fs

/-- The samples of the symbols from number `m` on: sample i of symbol m is `sym a j` at the global index `j = m*S + i`
(R181). -/
def symbolsFrom {α : Type} (S : Nat) (sym : α → Nat → Sample) (m : Nat) : List α → List Sample
  | [] => []
  | a :: as => ((List.range S).map fun i => sym a (m * S + i)) ++ symbolsFrom S sym (m + 1) as

/-! ## ASK -/

/-- A sample of an ASK symbol: `A sin(ph)` for 1, 0 for 0 (R184). -/
def askSample (r : CarrierRegs) (x : Bool) (j : Nat) : Sample :=
  if x then Sample.scale r.amp (sinTurn (phaseTurns r.fc r.fs j)) else Sample.zero

/-- `ask_mod(b)` (R184). -/
def askMod (r : CarrierRegs) (b : BitSeq) : List Sample := symbolsFrom r.sps (askSample r) 0 b

/-- The bit of an ASK window: the mean square exceeds THR (R185). -/
def askBit (thr : ℚ) (w : List Sample) : Bool := Sample.lt (Sample.ofRat thr) (Sample.mean (w.map Sample.sq))

/-- `ask_dem(x)` (R185). -/
def askDem (r : ThrRegs) (x : List Sample) : BitSeq := (windows x r.sps).map (askBit r.thr)

/-! ## FSK -/

/-- A sample of an FSK symbol: the tone FHI for 1, FLO for 0, phase from the global time (R187). -/
def fskSample (r : FskModRegs) (x : Bool) (j : Nat) : Sample :=
  Sample.scale r.amp (sinTurn (phaseTurns (if x then r.fhi else r.flo) r.fs j))

/-- `fsk_mod(b)` (R187). -/
def fskMod (r : FskModRegs) (b : BitSeq) : List Sample := symbolsFrom r.sps (fskSample r) 0 b

/-- `Σ w[i] * g(i)`, the first sample having index `i`. -/
def correlateFrom (g : Nat → Sample) (i : Nat) : List Sample → Sample
  | [] => Sample.zero
  | x :: xs => Sample.add (Sample.mul x (g i)) (correlateFrom g (i + 1) xs)

/-- The squared magnitude `P[k]` of bin k of the discrete Fourier transform of a window of S samples (R186; the
definition of the transform is supplied by the spec from general knowledge, G2, log 11). -/
def dftPower (S : Nat) (w : List Sample) (k : Nat) : Sample :=
  Sample.add (Sample.sq (correlateFrom (fun i => cosTurn (((i * k : Nat) : ℚ) / (S : ℚ))) 0 w))
    (Sample.sq (correlateFrom (fun i => sinTurn (((i * k : Nat) : ℚ) / (S : ℚ))) 0 w))

/-- `kmax`: the smallest bin of 0 .. floor(S/2) with the greatest power (R188). -/
def peakBin (S : Nat) (w : List Sample) : Nat := argMax ((List.range (S / 2 + 1)).map (dftPower S w))

/-- `fsk_bit(w)` (R188): the peak frequency is strictly nearer to FHI than to FLO. -/
def fskBit (r : FskDemRegs) (w : List Sample) : Bool :=
  let fpk := (peakBin r.sps w : ℚ) * r.fs / (r.sps : ℚ)
  decide (|fpk - r.fhi| < |fpk - r.flo|)

/-- `fsk_dem(x)` (R189). -/
def fskDem (r : FskDemRegs) (x : List Sample) : BitSeq := (windows x r.sps).map (fskBit r)

/-! ## 8-QAM -/

/-- The 3-bit group values of a bit sequence, zero-padded on the right to a multiple of 3 (R192). -/
def qamGroups (b : BitSeq) : List Nat :=
  (List.range (ceilDiv b.length 3)).map fun m => val (sub (b ++ zeros (3 * ceilDiv b.length 3 - b.length)) (3 * m) 3)

/-- A sample of a QAM symbol: `I cos(ph) - Q sin(ph)` with `(I, Q) = A * QAM_MAP[v]` (R192). -/
def qamSample (map : QamMap) (r : CarrierRegs) (v : Nat) (j : Nat) : Sample :=
  Sample.diff (Sample.scale (r.amp * qamI (qamPointOf map v)) (cosTurn (phaseTurns r.fc r.fs j)))
    (Sample.scale (r.amp * qamQ (qamPointOf map v)) (sinTurn (phaseTurns r.fc r.fs j)))

/-- `qam_mod(b)` (R192). -/
def qamMod (map : QamMap) (r : CarrierRegs) (b : BitSeq) : List Sample :=
  symbolsFrom r.sps (qamSample map r) 0 (qamGroups b)

/-- The estimate `Ie = 2 mean(w[i] cos(ph(FC, m*S + i)))` (R193). -/
def qamEstI (r : CarrierRegs) (w : List Sample) (m : Nat) : Sample :=
  Sample.scale (2 / (w.length : ℚ)) (correlateFrom (fun j => cosTurn (phaseTurns r.fc r.fs j)) (m * r.sps) w)

/-- The estimate `Qe = -2 mean(w[i] sin(ph(FC, m*S + i)))` (R193). -/
def qamEstQ (r : CarrierRegs) (w : List Sample) (m : Nat) : Sample :=
  Sample.scale (-2 / (w.length : ℚ)) (correlateFrom (fun j => sinTurn (phaseTurns r.fc r.fs j)) (m * r.sps) w)

/-- The squared distance of an estimate from the point of a group value (R193). -/
def qamDistance (map : QamMap) (A : ℚ) (i q : Sample) (v : Nat) : Sample :=
  Sample.add (Sample.sq (Sample.diff i (Sample.ofRat (A * qamI (qamPointOf map v)))))
    (Sample.sq (Sample.diff q (Sample.ofRat (A * qamQ (qamPointOf map v)))))

/-- `qam_sym(w, m)` (R193): the 3 bits of the nearest point, the smallest group value on a tie. -/
def qamSym (map : QamMap) (r : CarrierRegs) (w : List Sample) (m : Nat) : BitSeq :=
  be (argMin ((List.range 8).map (qamDistance map r.amp (qamEstI r w m) (qamEstQ r w m)))) 3

/-- `qam_dem(x)` (R194). -/
def qamDem (map : QamMap) (r : CarrierRegs) (x : List Sample) : BitSeq :=
  (List.range (x.length / r.sps)).flatMap fun m => qamSym map r (win x r.sps m) m

/-! ## Modulators and demodulators with their operands -/

/-- ASK.MOD's operands and function (R180, R184). -/
def askModulator (s : State) : Option Modulator :=
  match readCarrierRegs s with
  | some r => some ⟨askMod r, r.fs⟩
  | none => none

/-- FSK.MOD's operands and function (R180, R187). -/
def fskModulator (s : State) : Option Modulator :=
  match readFskModRegs s with
  | some r => some ⟨fskMod r, r.fs⟩
  | none => none

/-- QAM.MOD's operands and function (R180, R192). -/
def qamModulator (s : State) : Option Modulator :=
  match readCarrierRegs s with
  | some r => some ⟨qamMod s.qamMap r, r.fs⟩
  | none => none

/-- ASK.DEM's operands and function (R180, R185). -/
def askDemodulator (s : State) : Option Demodulator :=
  match readThrRegs s with
  | some r => some ⟨askDem r, r.sps⟩
  | none => none

/-- FSK.DEM's operands and function (R180, R189). -/
def fskDemodulator (s : State) : Option Demodulator :=
  match readFskDemRegs s with
  | some r => some ⟨fskDem r, r.sps⟩
  | none => none

/-- QAM.DEM's operands and function (R180, R194). -/
def qamDemodulator (s : State) : Option Demodulator :=
  match readCarrierRegs s with
  | some r => some ⟨qamDem s.qamMap r, r.sps⟩
  | none => none

/-! ## Commands -/

/-- ASK.MOD (R184). -/
def execAskMod (s : State) : Host.Outcome State Fault Refusal := .next (s.finishSignal (modulate (askModulator s) s.bi))

/-- ASK.DEM (R185). -/
def execAskDem (s : State) : Host.Outcome State Fault Refusal :=
  .next (s.finishBo (demodulatePacket (askDemodulator s) s.si))

/-- FSK.MOD (R187). -/
def execFskMod (s : State) : Host.Outcome State Fault Refusal := .next (s.finishSignal (modulate (fskModulator s) s.bi))

/-- FSK.DEM (R189). -/
def execFskDem (s : State) : Host.Outcome State Fault Refusal :=
  .next (s.finishBo (demodulatePacket (fskDemodulator s) s.si))

/-- QAM.MOD (R192). -/
def execQamMod (s : State) : Host.Outcome State Fault Refusal := .next (s.finishSignal (modulate (qamModulator s) s.bi))

/-- QAM.DEM (R194). -/
def execQamDem (s : State) : Host.Outcome State Fault Refusal :=
  .next (s.finishBo (demodulatePacket (qamDemodulator s) s.si))

end Sys2Proof.Machine
end

