-- ==== Sys2Proof/Machine/ErrorControl.lean ====
section
/-! DEFINITION. The ErrorControl family (spec/41_errorcontrol.md): parity, CRC-32, Hamming. -/

namespace Sys2Proof.Machine

/-! ## Parity -/

/-- `popcount(b) mod 2` as a bit. -/
def parityBit (b : BitSeq) : Bool := decide (popcount b % 2 = 1)

/-- `add_parity(b)` (R101). -/
def addParity (b : BitSeq) : BitSeq := b ++ [parityBit b]

/-- `check_parity(w)` for `len(w) ≥ 1` (R102): the parity of all but the last bit equals the last bit. -/
def checkParity (w : BitSeq) : Bool := parityBit (w.take (w.length - 1)) == w.getD (w.length - 1) false

/-! ## CRC-32 -/

/-- The polynomial, reflected form (R105). -/
def crcPoly : Word := 0xEDB88320

/-- The initial value and the final exclusive-or (R105; supplied by the spec from general knowledge, G1, log 11). -/
def crcMask : Word := 0xFFFFFFFF

/-- One inner step (R105): bit 0 is tested before the shift. -/
def crcShift (c : Word) : Word := if c.getLsbD 0 then (c >>> 1) ^^^ crcPoly else c >>> 1

/-- `n` inner steps. -/
def crcShifts : Nat → Word → Word
  | 0, c => c
  | n + 1, c => crcShifts n (crcShift c)

/-- One byte: it enters the low 8 bits, then 8 inner steps (R105). -/
def crcByte (c : Word) (y : Byte) : Word := crcShifts 8 (c ^^^ y.setWidth 32)

/-- `crc32(Y)` (R105). -/
def crc32 (ys : List Byte) : Word := ys.foldl crcByte crcMask ^^^ crcMask

/-- `add_crc32(b)` (R106): the padded payload, then the big-endian checksum of its bytes. -/
def addCrc32 (b : BitSeq) : BitSeq := padz b ++ be (crc32 (bytesOf (padz b))).toNat 32

/-- `check_crc32(w)` for `len(w) ≥ 32` (R107). -/
def checkCrc32 (w : BitSeq) : Bool :=
  (crc32 (bytesOf (padz (w.take (w.length - 32))))).toNat == val (w.drop (w.length - 32))

/-! ## Hamming -/

/-- `r_of(n) = clog2(n + 1)`: the number of parity bits of an n-bit codeword (R110). -/
def rOf (n : Nat) : Nat := clog2 (n + 1)

/-- The first `n' ≥ n` with `n' - r_of(n') ≥ k`, looking at as many candidates as the first argument says. -/
def hnFrom : Nat → Nat → Nat → Nat
  | 0, n, _ => n
  | fuel + 1, n, k => if k ≤ n - rOf n then n else hnFrom fuel (n + 1) k

/-- `hn(k)`, the smallest n with `n - r_of(n) ≥ k` (R110). No n below k qualifies, and one up to `2 k + 1` does. -/
def hn (k : Nat) : Nat := hnFrom (k + 2) k k

/-- Whether a 1-indexed position is a power of two (R110). -/
def isPow2 (p : Nat) : Bool := p != 0 && 2 ^ Nat.log2 p == p

/-- The data bits put in order at the positions from `p` on that are no power of two, zeros at the others; as many
positions as the first argument says (R112). -/
def placeData : Nat → Nat → BitSeq → BitSeq
  | 0, _, _ => []
  | m + 1, p, b =>
    if isPow2 p then false :: placeData m (p + 1) b
    else b.headD false :: placeData m (p + 1) b.tail

/-- The XOR of the bits at the positions with bit `i` set, the first bit standing at position `p` (R111). -/
def groupXor (i p : Nat) : BitSeq → Bool
  | [] => false
  | x :: xs => xor (p.testBit i && x) (groupXor i (p + 1) xs)

/-- `c` with the bit at each position `2^i` replaced by the XOR of its group in `c0`; the first bit stands at position
`p` (R112). In `c0` every parity position holds 0 and no group holds two of them (R111), so the XOR of the group is the
XOR over its other positions. -/
def fillParity (c0 : BitSeq) (p : Nat) : BitSeq → BitSeq
  | [] => []
  | x :: xs => (if isPow2 p then groupXor (Nat.log2 p) 1 c0 else x) :: fillParity c0 (p + 1) xs

/-- `hamming_encode(b)` (R112). -/
def hammingEncode (b : BitSeq) : BitSeq :=
  fillParity (placeData (hn b.length) 1 b) 1 (placeData (hn b.length) 1 b)

/-- The syndrome of a received word: `2^i` for every group i below r with odd parity (R114). -/
def syndrome (w : BitSeq) : Nat → Nat
  | 0 => 0
  | i + 1 => syndrome w i + (if groupXor i 1 w then 2 ^ i else 0)

/-- The bits at the positions that are no power of two; the first bit stands at position `p` (R114). -/
def dataBits (p : Nat) : BitSeq → BitSeq
  | [] => []
  | x :: xs => if isPow2 p then dataBits (p + 1) xs else x :: dataBits (p + 1) xs

/-- `flip(b, i)` for `i < len(b)`, else b (R211; also the correction of R114). -/
def flipBit (b : BitSeq) (i : Nat) : BitSeq := b.modify i not

/-- What `hamming_decode` returns (R114). -/
structure Decoded where
  data : BitSeq
  corrected : Bool
  failed : Bool
  syn : Nat
deriving DecidableEq, Repr

/-- `hamming_decode(w)` (R114): a syndrome in range flips that position, one out of range flips nothing. -/
def hammingDecode (w : BitSeq) : Decoded :=
  let syn := syndrome w (rOf w.length)
  if 0 < syn ∧ syn ≤ w.length then ⟨dataBits 1 (flipBit w (syn - 1)), true, false, syn⟩
  else ⟨dataBits 1 w, false, decide (w.length < syn), syn⟩

/-! ## Commands -/

/-- PAR.ADD (R101). -/
def execParAdd (s : State) : Host.Outcome State Fault Refusal :=
  .next (s.finishBo (.ok [addParity s.bi]))

/-- The end of a check: the packet is written pass or fail, then OK with CHK or DetectionError with DETFAIL (R102,
R107). -/
def State.finishCheck (payload : BitSeq) (passed : Bool) (s : State) : State :=
  (s.putBo [payload]).complete (if passed then .ok else .detection) (checkFlags passed)

/-- PAR.CHK (R102); the empty input is a DetectionError with one empty packet. -/
def execParChk (s : State) : Host.Outcome State Fault Refusal :=
  .next (if s.bi.length = 0 then s.finishCheck [] false
    else s.finishCheck (s.bi.take (s.bi.length - 1)) (checkParity s.bi))

/-- CRC.ADD (R106). -/
def execCrcAdd (s : State) : Host.Outcome State Fault Refusal :=
  .next (s.finishBo (.ok [addCrc32 s.bi]))

/-- CRC.CHK (R107); fewer than 32 bits is a DetectionError with one empty packet. -/
def execCrcChk (s : State) : Host.Outcome State Fault Refusal :=
  .next (if s.bi.length < 32 then s.finishCheck [] false
    else s.finishCheck (s.bi.take (s.bi.length - 32)) (checkCrc32 s.bi))

/-- HAM.ENC (R113): the whole input is one codeword. -/
def execHamEnc (s : State) : Host.Outcome State Fault Refusal :=
  .next (s.finishBo (.ok [hammingEncode s.bi]))

/-- HAM.DEC (R115): CorrectionFailure exactly when the syndrome is out of range. -/
def execHamDec (s : State) : Host.Outcome State Fault Refusal :=
  let d := hammingDecode s.bi
  .next ((s.putBo [d.data]).complete (if d.failed then .correction else .ok) (decodeFlags d.corrected d.failed))

end Sys2Proof.Machine
end

