-- ==== Sys2Proof/Machine/Pipeline.lean ====
section
/-! DEFINITION. The Pipeline family (spec/45_pipeline.md): the error injector, TX, RX. -/

namespace Sys2Proof.Machine

/-! ## The error injector -/

/-- The first `k` ones of a sequence kept, the others cleared. -/
def keepOnes : Nat → BitSeq → BitSeq
  | _, [] => []
  | 0, _ :: xs => false :: keepOnes 0 xs
  | k + 1, x :: xs => x :: keepOnes (if x then k else k + 1) xs

/-- The mask of draw `d`: `n` bits with at most `k` ones, otherwise free (R212, U4, log 5). -/
def drawMask (d k n : Nat) : BitSeq := keepOnes k ((List.range n).map (Config.flipWish d))

/-- `flip(b, i)` where there is such a bit (R211). -/
def flipAt (b : BitSeq) (i : Nat) : Option BitSeq := if i < b.length then some (flipBit b i) else none

/-- INJ.ONE (R211): ConfigurationError when INJPOS is unset or not below `len(BI)`. -/
def execInjOne (s : State) : Host.Outcome State Fault Refusal :=
  .next (s.finishBo (andThen (orConfig s.injpos) fun i =>
    andThen (orConfig (flipAt s.bi i.toNat)) fun b => .ok [b]))

/-- INJ.RND (R212): a free mask of at most INJMAX ones; ConfigurationError when INJMAX is unset. -/
def execInjRnd (s : State) : Host.Outcome State Fault Refusal :=
  match s.injmax with
  | some k => .next ((s.finishBo (.ok [xorBits s.bi (drawMask s.draws k.toNat s.bi.length)])).countDraw)
  | none => .next (s.raise .bo .config)

/-! ## Protection and its lengths -/

/-- The length after one detection method (R221). -/
def lenAfter (x : Nat) (m : Det) : Nat :=
  match m with
  | .parity => x + 1
  | .crc32 => pad8 x + 32

/-- `x[m]` of `xlen(d)`: the length after all trailers (R221). -/
def xlen (c : CfgFields) (d : Nat) : Nat := c.det.foldl lenAfter d

/-- `plen(d)`: the length of the protected chunk (R221). -/
def plen (c : CfgFields) (d : Nat) : Nat := if c.ham then hn (xlen c d) else xlen c d

/-- `alen(d)`: the length after the ALIGN pad (R221, R222). -/
def alen (c : CfgFields) (d : Nat) : Nat := pad8 (plen c d)

/-- Append the trailer of one method (R223). -/
def addTrailer (y : BitSeq) (m : Det) : BitSeq :=
  match m with
  | .parity => addParity y
  | .crc32 => addCrc32 y

/-- `protect(ch)` (R223): the trailers in the configured order, then one Hamming codeword. -/
def protect (c : CfgFields) (ch : BitSeq) : BitSeq :=
  if c.ham then hammingEncode (c.det.foldl addTrailer ch) else c.det.foldl addTrailer ch

/-- One detection check (R229). -/
def checkTrailer (m : Det) (y : BitSeq) : Bool :=
  match m with
  | .parity => checkParity y
  | .crc32 => checkCrc32 y

/-- The checks of R229 in the reverse of the transmit order, each stripping its own trailer and pad: a chunk of length
`d` before the methods of the list were applied is cut back to `d` bits. Answers the chunk and the checks' results, the
last method's first. -/
def stripTrailers : List Det → Nat → BitSeq → BitSeq × List Bool
  | [], _, y => (y, [])
  | m :: ms, d, y =>
    ((stripTrailers ms (lenAfter d m) y).1.take d,
      (stripTrailers ms (lenAfter d m) y).2 ++ [checkTrailer m (stripTrailers ms (lenAfter d m) y).1])

/-- What `unprotect` returns (R229). -/
structure Unprotected where
  payload : BitSeq
  checks : List Bool
  corrected : Bool
  failed : Bool
deriving DecidableEq, Repr

/-- `unprotect(q, d)` (R229): drop the ALIGN pad, decode, then check and strip. -/
def unprotect (c : CfgFields) (q : BitSeq) (d : Nat) : Unprotected :=
  if c.ham then
    let h := hammingDecode (q.take (plen c d))
    ⟨(stripTrailers c.det d h.data).1, (stripTrailers c.det d h.data).2, h.corrected, h.failed⟩
  else
    ⟨(stripTrailers c.det d (q.take (plen c d))).1, (stripTrailers c.det d (q.take (plen c d))).2, false, false⟩

/-- The first `d` of `d, d + 8, …` with `alen(d) = L`, looking at as many as the first argument says. -/
def dlenFrom (c : CfgFields) (L : Nat) : Nat → Nat → Option Nat
  | 0, _ => none
  | n + 1, d => if alen c d = L then some d else dlenFrom c L n (d + 8)

/-- `dlen(L)`: the d of { 8, 16, …, MAXPL } with `alen(d) = L` (R226). -/
def dlen (c : CfgFields) (M L : Nat) : Option Nat := dlenFrom c L (M / 8) 8

/-! ## Scheme dispatch (R214) -/

/-- The modulator CFG.LINE selects. -/
def lineModulator (l : LineCode) (s : State) : Option Modulator :=
  match l with
  | .nrz => nrzModulator s
  | .man => manModulator s
  | .ami => amiModulator s

/-- The demodulator CFG.LINE selects. -/
def lineDemodulator (l : LineCode) (s : State) : Option Demodulator :=
  match l with
  | .nrz => nrzDemodulator s
  | .man => manDemodulator s
  | .ami => amiDemodulator s

/-- The modulator CFG.CARR selects. -/
def carrierModulator (c : CarrierCode) (s : State) : Option Modulator :=
  match c with
  | .ask => askModulator s
  | .fsk => fskModulator s
  | .qam8 => qamModulator s

/-- The demodulator CFG.CARR selects. -/
def carrierDemodulator (c : CarrierCode) (s : State) : Option Demodulator :=
  match c with
  | .ask => askDemodulator s
  | .fsk => fskDemodulator s
  | .qam8 => qamDemodulator s

/-- How CFG.FRAMING wraps a chunk; none where DELIM = ESC under STUFF (R220 check 5). -/
def framer (f : Framing) (s : State) : Option (BitSeq → Option BitSeq) :=
  match f with
  | .count => some wrapCount
  | .stuff => match readDelimEsc s with
    | some de => some fun q => some (wrapStuffed q de.1 de.2)
    | none => none

/-- How CFG.FRAMING parses a stream; none where DELIM = ESC under STUFF (R220 check 5). -/
def deframer (f : Framing) (s : State) : Option (BitSeq → Option (List BitSeq)) :=
  match f with
  | .count => some deframeByCount
  | .stuff => match readDelimEsc s with
    | some de => some fun b => deframeByStuffing b de.1 de.2
    | none => none

/-! ## Transmit -/

/-- What TX has after its checks (R220). -/
structure TxPlan where
  cfg : CfgFields
  maxpl : Nat
  line : Modulator
  carr : Modulator
  frame : BitSeq → Option BitSeq

/-- Check 6 of R220: under COUNT every frame's count fits its 8 bits. -/
def countFits (c : CfgFields) (M : Nat) : Bool :=
  match c.framing with
  | .count => decide (alen c M ≤ 2040)
  | .stuff => true

/-- Check 7 of R220: the injector's register is set. -/
def injectorSet (i : Injection) (s : State) : Bool :=
  match i with
  | .off => true
  | .one => s.injpos.isSome
  | .rnd => s.injmax.isSome

/-- The checks of R220 for TX. -/
def txPlan (s : State) : Option TxPlan :=
  match readCfg s.cfg, readMaxpl8 s with
  | some c, some M =>
    match lineModulator c.line s, carrierModulator c.carr s, framer c.framing s with
    | some l, some k, some f =>
      if countFits c M = true ∧ injectorSet c.inj s = true then some ⟨c, M, l, k, f⟩ else none
    | _, _, _ => none
  | _, _ => none

/-- The frames of a message (R224): split, protect each chunk, pad it, wrap it. -/
def txFrames (p : TxPlan) (ys : List Byte) : Option (List BitSeq) :=
  allSome ((splitBits (bitsOf ys) p.maxpl).map fun ch => p.frame (padz (protect p.cfg ch)))

/-- The corrupted copy of the frame stream: none inside where injection is off; no result where INJ = ONE and there is
no bit INJPOS (R224). -/
def corrupt (i : Injection) (s : State) (F : BitSeq) : Option (Option BitSeq) :=
  match i with
  | .off => some none
  | .one => match s.injpos with
    | some k => match flipAt F k.toNat with
      | some b => some (some b)
      | none => none
    | none => none
  | .rnd => match s.injmax with
    | some k => some (some (xorBits F (drawMask s.draws k.toNat F.length)))
    | none => none

/-- What TX computes before it writes anything: its plan, the frame stream, the corrupted copy. The FramingError of a
frame that cannot be made never occurs, by check 6 (R220, R224; log 12). -/
def txRun (s : State) : Except Err (TxPlan × BitSeq × Option BitSeq) :=
  andThen (orConfig (txPlan s)) fun p =>
    andThen (orFraming (txFrames p s.byi)) fun fs =>
      andThen (orConfig (corrupt p.cfg.inj s fs.flatten)) fun fe => .ok (p, fs.flatten, fe)

/-- TX's writes for the frame stream: both modulators take the frame bits (R224). -/
def State.putSignals (p : TxPlan) (F : BitSeq) (s : State) : State :=
  s.putTxSignals (p.line.signal F) (timeAxis p.line.fs (p.line.signal F).length)
    (p.carr.signal F) (timeAxis p.carr.fs (p.carr.signal F).length)

/-- TX's writes for the corrupted copy (R224). -/
def State.putErrorSignals (p : TxPlan) (F : BitSeq) (s : State) : State :=
  s.putTxErrorSignals (p.line.signal F) (timeAxis p.line.fs (p.line.signal F).length)
    (p.carr.signal F) (timeAxis p.carr.fs (p.carr.signal F).length)

/-- TX's writes (R224). -/
def State.putTx (p : TxPlan) (F : BitSeq) (fe : Option BitSeq) (s : State) : State :=
  match fe with
  | none => ((s.putBo [F]).putSignals p F).putTxErrorSignals [] [] [] []
  | some Fe => ((s.putBo [F, Fe]).putSignals p F).putErrorSignals p Fe

/-- The injector's draw is counted where TX made one (log 5). -/
def State.countTxDraw (i : Injection) (s : State) : State :=
  match i with
  | .rnd => s.countDraw
  | .off => s
  | .one => s

/-- TX (R224). -/
def execTx (s : State) : Host.Outcome State Fault Refusal :=
  match txRun s with
  | .ok (p, F, fe) => .next (((s.putTx p F fe).countTxDraw p.cfg.inj).complete .ok noFlags)
  | .error e => .next (s.raise .tx e)

/-! ## Receive -/

/-- What RX has after its checks (R220): the selected signal and its demodulator, the deframer. -/
structure RxPlan where
  cfg : CfgFields
  maxpl : Nat
  signal : List Sample
  dem : Demodulator
  deframe : BitSeq → Option (List BitSeq)

/-- The signal and the demodulator CFG.RXSRC selects; the other input buffer is not read (R230). -/
def rxSource (c : CfgFields) (s : State) : List Sample × Option Demodulator :=
  match c.rxsrc with
  | .line => (s.si, lineDemodulator c.line s)
  | .carrier => (s.si2, carrierDemodulator c.carr s)

/-- The checks of R220 for RX. -/
def rxPlan (s : State) : Option RxPlan :=
  match readCfg s.cfg, readMaxpl8 s with
  | some c, some M =>
    match rxSource c s, deframer c.framing s with
    | (x, some dm), some f => some ⟨c, M, x, dm, f⟩
    | _, _ => none
  | _, _ => none

/-- Every chunk unprotected, in order; none where a chunk's length has no d (R226, R230). -/
def unprotectAll (c : CfgFields) (M : Nat) : List BitSeq → Option (List Unprotected)
  | [] => some []
  | q :: qs =>
    match dlen c M q.length, unprotectAll c M qs with
    | some d, some us => some (unprotect c q d :: us)
    | _, _ => none

/-- `rx()` (R230). -/
def rxRun (s : State) : Except Err (List Unprotected) :=
  andThen (orConfig (rxPlan s)) fun p =>
    andThen (demodulate (some p.dem) p.signal) fun b =>
      andThen (orFraming (p.deframe b)) fun qs => orFraming (unprotectAll p.cfg p.maxpl qs)

/-- The results of all checks, `CHKS` (R230). -/
def allChecks (us : List Unprotected) : List Bool := us.flatMap Unprotected.checks

/-- The flags after RX (R231). -/
def rxFlags (us : List Unprotected) : Flags where
  chk := allChecks us != [] && (allChecks us).all id
  detfail := (allChecks us).any not
  corrected := us.any Unprotected.corrected
  corrfail := us.any Unprotected.failed

/-- ERR after RX (R231, R250): the earlier stage wins. -/
def rxErr (f : Flags) : Err := if f.corrfail then .correction else if f.detfail then .detection else .ok

/-- RX (R230). -/
def execRx (s : State) : Host.Outcome State Fault Refusal :=
  match rxRun s with
  | .ok us =>
    .next (((s.putByo (bytesOf (us.flatMap Unprotected.payload))).putBo (us.map Unprotected.payload)).complete
      (rxErr (rxFlags us)) (rxFlags us))
  | .error e => .next (s.raise .rx e)

end Sys2Proof.Machine
end

