-- ==== Sys2Proof/Machine/Dispatch.lean ====
section
/-! DEFINITION. The dispatch: one arm per command of spec/30_encoding.md R72, one meaning per arm. -/

namespace Sys2Proof.Machine

def exec (i : Instr) (s : State) : Host.Outcome State Fault Refusal :=
  match i with
  | .b2bits => Sys2Proof.Machine.execB2bits s
  | .bits2b => Sys2Proof.Machine.execBits2b s
  | .parAdd => Sys2Proof.Machine.execParAdd s
  | .parChk => Sys2Proof.Machine.execParChk s
  | .crcAdd => Sys2Proof.Machine.execCrcAdd s
  | .crcChk => Sys2Proof.Machine.execCrcChk s
  | .hamEnc => Sys2Proof.Machine.execHamEnc s
  | .hamDec => Sys2Proof.Machine.execHamDec s
  | .split => Sys2Proof.Machine.execSplit s
  | .wrapCnt => Sys2Proof.Machine.execWrapCnt s
  | .frmCnt => Sys2Proof.Machine.execFrmCnt s
  | .dfrCnt => Sys2Proof.Machine.execDfrCnt s
  | .wrapStf => Sys2Proof.Machine.execWrapStf s
  | .frmStf => Sys2Proof.Machine.execFrmStf s
  | .dfrStf => Sys2Proof.Machine.execDfrStf s
  | .nrzMod => Sys2Proof.Machine.execNrzMod s
  | .nrzDem => Sys2Proof.Machine.execNrzDem s
  | .manMod => Sys2Proof.Machine.execManMod s
  | .manDem => Sys2Proof.Machine.execManDem s
  | .amiMod => Sys2Proof.Machine.execAmiMod s
  | .amiDem => Sys2Proof.Machine.execAmiDem s
  | .askMod => Sys2Proof.Machine.execAskMod s
  | .askDem => Sys2Proof.Machine.execAskDem s
  | .fskMod => Sys2Proof.Machine.execFskMod s
  | .fskDem => Sys2Proof.Machine.execFskDem s
  | .qamMod => Sys2Proof.Machine.execQamMod s
  | .qamDem => Sys2Proof.Machine.execQamDem s
  | .injOne => Sys2Proof.Machine.execInjOne s
  | .injRnd => Sys2Proof.Machine.execInjRnd s
  | .tx => Sys2Proof.Machine.execTx s
  | .rx => Sys2Proof.Machine.execRx s

end Sys2Proof.Machine
end

