-- ==== Sys2Proof/Machine/Port.lean ====
section
/-! DEFINITION. What one host action does (spec/10_state.md R21, R34, R37; spec/30_encoding.md R71; spec/70 R270). -/

namespace Sys2Proof.Machine

/-- A command or a host write takes place (log 4). -/
def State.tick (s : State) : State := { s with epoch := s.epoch + 1 }

/-- A host write of `w` to CMD (R34, R71): a legal word runs its command; any other raises ConfigurationError, owns no
output buffer and changes only STATUS. -/
def issue (w : Word) (s : State) : Host.Outcome State Fault Refusal :=
  match decode w with
  | .ok i => exec i s
  | .error _ => .next (s.raise .nothing .config)

/-- A host write of a word to a register number (R21). -/
def portWriteWord (n : Nat) (w : Word) (s : State) : Host.Outcome State Fault Refusal :=
  if n = 0 then issue w s.tick
  else match regKind n with
    | .wordReg => .next (s.tick.writeWordReg n w)
    | .realReg => .refused (.wrongRegisterType n)
    | .absent => .next s.tick

/-- A host write of a real number to a register number (R21): of STATUS, which is read-only, any write is ignored. -/
def portWriteReal (n : Nat) (q : ℚ) (s : State) : Host.Outcome State Fault Refusal :=
  if n = 1 then .next s.tick
  else match regKind n with
  | .wordReg => .refused (.wrongRegisterType n)
  | .realReg => .next (s.tick.writeRealReg n q)
  | .absent => .next s.tick

/-- One host action (R8, R79). -/
def act (a : HostAction) (s : State) : Host.Outcome State Fault Refusal :=
  match a with
  | .writeWord n w => portWriteWord n w s
  | .writeReal n q => portWriteReal n q s
  | .readReg n => .next { s with rdata := some (s.readReg n) }
  | .putByi ys => .next { s.tick with byi := ys }
  | .putBi b => .next { s.tick with bi := b }
  | .putSi x => .next { s.tick with si := x }
  | .putSi2 x => .next { s.tick with si2 := x }
  | .byiFromByo => .next { s.tick with byi := s.byo }
  | .biFromPacket k => match s.bo[k]? with
    | some b => .next { s.tick with bi := b }
    | none => .fault (.noSuchPacket k)
  | .biFromAll => .next { s.tick with bi := s.bo.flatten }
  | .siFrom b => .next { s.tick with si := s.signalOut b }
  | .si2From b => .next { s.tick with si2 := s.signalOut b }
  | .readBuf b => .next { s with rdata := some (s.readBuf b) }
  | .reset => .next s.tick.applyReset

/-- The oldest pending host action, taken from the queue and carried out; with none pending the block is idle and waits
for the host (R60, R270, log 8). -/
def takeAction (s : State) : Host.Outcome State Fault Refusal :=
  match s.hostq with
  | [] => .next s
  | a :: rest => act a { s with hostq := rest }

end Sys2Proof.Machine
end

