-- ==== Sys2Proof/Machine/Step.lean ====
section
/-! DEFINITION. One step of the machine: one host action (spec/00_scope.md R7, R8; log 1). -/

namespace Sys2Proof.Machine

/-- One step: the oldest pending host action; a write of CMD runs one whole command (R34, R57). -/
def step (s : State) : Host.Outcome State Fault Refusal := takeAction s

/-- `s` with a host write of the given command word to CMD as the next host action, before those already pending. -/
def State.withFetchWord (s : State) (nbits w : Nat) : State :=
  { s with hostq := .writeWord 0 (tableWord nbits w) :: s.hostq }

end Sys2Proof.Machine
end

