-- ==== Sys2Proof/Machine/SampleValue.lean ====
section
/-! DEFINITION. The real number a sample stands for (spec/00_scope.md R14): the meaning against which the exact
arithmetic of Machine/Sample.lean is proved, and the terms in which statements about samples are made. -/

namespace Sys2Proof.Machine

/-- The real number of one term. -/
noncomputable def Term.value (t : Term) : ℝ := (t.amp : ℝ) * Real.cos (2 * Real.pi * (t.turn : ℝ))

/-- The real number a sample stands for (R14). -/
noncomputable def Sample.value (x : Sample) : ℝ := (x.const : ℝ) + (x.terms.map Term.value).sum

end Sys2Proof.Machine
end

