-- ==== Sys2Proof/Safety.lean ====
section
/-! DEFINITION. What statements about runs are made of: the outputs each command owns, what a command leaves alone, the
states that obey the spec's rules for STATUS and the signals, and the host actions that have a meaning. -/

namespace Sys2Proof.Machine

/-- The output buffers each command owns, from the "Writes" line of its rule (R38). -/
def ownedBy (i : Instr) : Owned :=
  match i with
  | .b2bits => .bo
  | .bits2b => .byo
  | .parAdd => .bo
  | .parChk => .bo
  | .crcAdd => .bo
  | .crcChk => .bo
  | .hamEnc => .bo
  | .hamDec => .bo
  | .split => .bo
  | .wrapCnt => .bo
  | .frmCnt => .bo
  | .dfrCnt => .bo
  | .wrapStf => .bo
  | .frmStf => .bo
  | .dfrStf => .bo
  | .nrzMod => .signal
  | .nrzDem => .bo
  | .manMod => .signal
  | .manDem => .bo
  | .amiMod => .signal
  | .amiDem => .bo
  | .askMod => .signal
  | .askDem => .bo
  | .fskMod => .signal
  | .fskDem => .bo
  | .qamMod => .signal
  | .qamDem => .bo
  | .injOne => .bo
  | .injRnd => .bo
  | .tx => .tx
  | .rx => .rx

/-! ## What a command leaves alone (R37, R38, R246) -/

/-- Every register but STATUS has the same value. -/
def sameRegisters (s t : State) : Prop :=
  t.cfg = s.cfg ∧ t.maxpl = s.maxpl ∧ t.sps = s.sps ∧ t.delim = s.delim ∧ t.esc = s.esc ∧ t.injpos = s.injpos ∧
  t.injmax = s.injmax ∧ t.amp = s.amp ∧ t.fs = s.fs ∧ t.fc = s.fc ∧ t.flo = s.flo ∧ t.fhi = s.fhi ∧ t.thr = s.thr

/-- Every input buffer has the same value. -/
def sameInputs (s t : State) : Prop := t.byi = s.byi ∧ t.bi = s.bi ∧ t.si = s.si ∧ t.si2 = s.si2

/-- The host's side of the model is the same: its pending actions, what it last read, the epoch. -/
def sameHost (s t : State) : Prop := t.hostq = s.hostq ∧ t.rdata = s.rdata ∧ t.epoch = s.epoch

/-- TX's eight signal outputs have the same values. -/
def sameTxOutputs (s t : State) : Prop :=
  t.sd = s.sd ∧ t.td = s.td ∧ t.sc = s.sc ∧ t.tc = s.tc ∧ t.sde = s.sde ∧ t.tde = s.tde ∧ t.sce = s.sce ∧
  t.tce = s.tce

/-- SO and TO have the same values. -/
def sameModOutputs (s t : State) : Prop := t.so = s.so ∧ t.tO = s.tO

/-- Every output buffer outside `o` has the same value. -/
def sameOutputsBut (o : Owned) (s t : State) : Prop :=
  match o with
  | .nothing => t.byo = s.byo ∧ t.bo = s.bo ∧ sameModOutputs s t ∧ sameTxOutputs s t
  | .bo => t.byo = s.byo ∧ sameModOutputs s t ∧ sameTxOutputs s t
  | .byo => t.bo = s.bo ∧ sameModOutputs s t ∧ sameTxOutputs s t
  | .signal => t.byo = s.byo ∧ t.bo = s.bo ∧ sameTxOutputs s t
  | .tx => t.byo = s.byo ∧ sameModOutputs s t
  | .rx => sameModOutputs s t ∧ sameTxOutputs s t

/-- The output buffers of `o` have the same values in two states. -/
def sameOwned (o : Owned) (s t : State) : Prop :=
  match o with
  | .nothing => True
  | .bo => t.bo = s.bo
  | .byo => t.byo = s.byo
  | .signal => sameModOutputs s t
  | .tx => t.bo = s.bo ∧ sameTxOutputs s t
  | .rx => t.byo = s.byo ∧ t.bo = s.bo

/-! ## States that obey the spec's rules -/

/-- A STATUS word that a reset or a command leaves (R35, R36, R231, R240, R246): bits [31:9] are 0; DONE = 0 only in the
word 0; ERR is 0 to 6; CHK and DETFAIL are not both 1; the aborting errors go with no flag, DetectionError with DETFAIL
and without CORRFAIL, CorrectionFailure with CORRFAIL, and OK with neither failure flag. -/
abbrev statusLegal (w : Word) : Prop :=
  w.extractLsb' 9 23 = 0#23 ∧ (statusDone w = false → w = 0#32) ∧ statusErr w ≤ 6 ∧
  (statusChk w && statusDetfail w) = false ∧
  (statusErr w ∈ [1, 2, 5, 6] →
    statusChk w = false ∧ statusDetfail w = false ∧ statusCorrected w = false ∧ statusCorrfail w = false) ∧
  (statusErr w = 3 → statusDetfail w = true ∧ statusCorrfail w = false) ∧
  (statusErr w = 4 → statusCorrfail w = true) ∧
  (statusErr w = 0 → statusDetfail w = false ∧ statusCorrfail w = false)

/-- Every output signal has a time axis of its own length (R14, R58, R224). -/
abbrev axesLegal (s : State) : Prop :=
  s.tO.length = s.so.length ∧ s.td.length = s.sd.length ∧ s.tc.length = s.sc.length ∧
  s.tde.length = s.sde.length ∧ s.tce.length = s.sce.length

/-- The invariant of the machine: STATUS, the time axes, and QAM_MAP one-to-one (R191). -/
abbrev State.Legal (s : State) : Prop :=
  statusLegal s.status ∧ axesLegal s ∧ qamMapLegal s.qamMap = true

/-! ## Safe host actions -/

/-- A host action that has a meaning: it writes each register with that register's type, or STATUS, of which every write
is ignored (R21), and copies a packet that exists (R39). -/
abbrev actionSafe (a : HostAction) (s : State) : Prop :=
  match a with
  | .writeWord n _ => regKind n ≠ .realReg
  | .writeReal n _ => n = 1 ∨ regKind n ≠ .wordReg
  | .biFromPacket k => k < s.bo.length
  | .readReg _ | .putByi _ | .putBi _ | .putSi _ | .putSi2 _ | .byiFromByo | .biFromAll | .siFrom _ | .si2From _
  | .readBuf _ | .reset => True

/-- A state in which the next step is safe: it neither faults nor refuses. -/
abbrev stepSafe (s : State) : Prop :=
  match s.hostq with
  | [] => True
  | a :: _ => actionSafe a s

/-! ## Errors and register checks, as the spec tabulates them -/

/-- The codes a command can put in STATUS.ERR besides OK, row by row of the table of R251. -/
def raisableErrors (i : Instr) : List Nat :=
  match i with
  | .b2bits | .parAdd | .crcAdd | .hamEnc => []
  | .bits2b => [6]
  | .parChk | .crcChk => [3]
  | .hamDec => [4]
  | .split | .wrapStf | .frmStf => [1]
  | .wrapCnt => [2]
  | .frmCnt => [1, 2]
  | .dfrCnt => [2]
  | .dfrStf => [1, 2]
  | .nrzMod | .manMod | .amiMod | .askMod | .fskMod | .qamMod => [1]
  | .nrzDem | .manDem | .amiDem | .askDem | .fskDem | .qamDem => [1, 5]
  | .injOne | .injRnd => [1]
  | .tx => [1]
  | .rx => [1, 2, 3, 4, 5]

/-- SPS is set and at least `least` (R160, R180). -/
def spsOk (least : Nat) (s : State) : Prop := ∃ S, s.sps = some S ∧ least ≤ S.toNat

/-- A real-valued register is set and > 0 (R26, R27). -/
def positiveOk (r : Option ℚ) : Prop := ∃ q, r = some q ∧ 0 < q

/-- The register checks of the line-coder and carrier commands (R160, R180); of no other command. -/
def signalRegsOk (i : Instr) (s : State) : Prop :=
  match i with
  | .nrzMod | .amiMod => spsOk 1 s ∧ positiveOk s.amp ∧ positiveOk s.fs
  | .manMod => spsOk 2 s ∧ positiveOk s.amp ∧ positiveOk s.fs
  | .nrzDem => spsOk 1 s
  | .manDem => spsOk 2 s
  | .amiDem | .askDem => spsOk 1 s ∧ 0 ≤ s.thr
  | .askMod | .qamMod | .qamDem => spsOk 1 s ∧ positiveOk s.amp ∧ positiveOk s.fs ∧ s.fc.isSome
  | .fskMod => spsOk 1 s ∧ positiveOk s.amp ∧ positiveOk s.fs ∧ s.flo.isSome ∧ s.fhi.isSome
  | .fskDem => spsOk 1 s ∧ positiveOk s.fs ∧ s.flo.isSome ∧ s.fhi.isSome
  | .b2bits | .bits2b | .parAdd | .parChk | .crcAdd | .crcChk | .hamEnc | .hamDec | .split | .wrapCnt | .frmCnt
  | .dfrCnt | .wrapStf | .frmStf | .dfrStf | .injOne | .injRnd | .tx | .rx => True

/-- The six MOD commands. -/
def modCommands : List Instr := [.nrzMod, .manMod, .amiMod, .askMod, .fskMod, .qamMod]

/-- The six DEM commands. -/
def demCommands : List Instr := [.nrzDem, .manDem, .amiDem, .askDem, .fskDem, .qamDem]

/-! ## CFG as R22 and R23 give it -/

/-- A legal CFG value (R23). -/
def cfgLegal (w : Word) : Prop :=
  field w 31 13 = 0 ∧ field w 2 1 ≠ 3 ∧ field w 4 3 ≠ 3 ∧ field w 7 6 ≠ 3 ∧ field w 9 8 ≠ 3 ∧ field w 12 11 ≠ 3 ∧
  (field w 2 1 = 0 → field w 4 3 = 0) ∧ (field w 2 1 ≠ 0 → field w 4 3 ≠ field w 2 1)

/-- The detection method of a code of DET0 or DET1; NONE and the reserved code have none (R22). -/
def detOfCode (n : Nat) : Option Det := if n = 1 then some .parity else if n = 2 then some .crc32 else none

/-- The code of CFG.FRAMING (R22). -/
def framingCode (f : Framing) : Nat := match f with | .count => 0 | .stuff => 1

/-- The code of CFG.LINE (R22). -/
def lineCodeNumber (l : LineCode) : Nat := match l with | .nrz => 0 | .man => 1 | .ami => 2

/-- The code of CFG.CARR (R22). -/
def carrierCodeNumber (c : CarrierCode) : Nat := match c with | .ask => 0 | .fsk => 1 | .qam8 => 2

/-- The code of CFG.RXSRC (R22). -/
def rxSourceCode (r : RxSource) : Nat := match r with | .line => 0 | .carrier => 1

/-- The code of CFG.INJ (R22). -/
def injectionCode (i : Injection) : Nat := match i with | .off => 0 | .one => 1 | .rnd => 2

/-! ## Stuffed streams as R142 reads them -/

/-- What stands between two delimiters: each byte of payload, with whether an escape stands before it. -/
abbrev Segment := List (Bool × Byte)

/-- The bytes of a segment in the stream. -/
def segmentBytes (e : Byte) (g : Segment) : List Byte := g.flatMap fun it => if it.1 then [e, it.2] else [it.2]

/-- A byte without an escape before it is neither the delimiter nor the escape. -/
def segmentOk (d e : Byte) (g : Segment) : Prop := ∀ it ∈ g, it.1 = false → it.2 ≠ d ∧ it.2 ≠ e

/-- The payload bits of a segment: every escape discarded, the byte after it taken literally. -/
def segmentBits (g : Segment) : BitSeq := bitsOf (g.map Prod.snd)

/-- A stream's bytes: what stands before the first delimiter, then each delimiter with what follows it, then, where the
stream is cut there, an escape with nothing after it. -/
def tokenStream (d e : Byte) (first : Segment) (segs : List Segment) (cut : Bool) : List Byte :=
  segmentBytes e first ++ (segs.flatMap fun g => d :: segmentBytes e g) ++ (if cut then [e] else [])

/-! ## The pipeline as R214, R220 and R224 give it -/

/-- `line_mod` of R214. -/
def lineSignal (l : LineCode) (S : Nat) (A : ℚ) (b : BitSeq) : List Sample :=
  match l with
  | .nrz => nrzMod S A b
  | .man => manMod S A b
  | .ami => amiMod S A b

/-- `carr_mod` of R214, with the frequencies of the registers FC, FLO and FHI. -/
def carrierSignal (c : CarrierCode) (s : State) (S : Nat) (A F : ℚ) (b : BitSeq) : List Sample :=
  match c with
  | .ask => askMod ⟨S, A, F, s.fc.getD 0⟩ b
  | .fsk => fskMod ⟨S, A, F, s.flo.getD 0, s.fhi.getD 0⟩ b
  | .qam8 => qamMod s.qamMap ⟨S, A, F, s.fc.getD 0⟩ b

/-- `frame` of R214 on a chunk of whole bytes. -/
def frameOf (f : Framing) (d e : Byte) (q : BitSeq) : BitSeq :=
  match f with
  | .count => be (q.length / 8) 8 ++ q
  | .stuff => wrapStuffed q d e

/-- The frame stream F of the message in BYI (R224): each chunk protected, padded to whole bytes and framed. -/
def frameStream (c : CfgFields) (s : State) : BitSeq :=
  ((splitBits (bitsOf s.byi) s.maxpl.toNat).map fun ch =>
    frameOf c.framing (s.delim.extractLsb' 0 8) (s.esc.extractLsb' 0 8) (padz (protect c ch))).flatten

/-- Checks 1, 2 and 5 of R220, which TX and RX share: `c` is the legal configuration in CFG. -/
def pipelineReady (c : CfgFields) (s : State) : Prop :=
  readCfg s.cfg = some c ∧ 0 < s.maxpl.toNat ∧ s.maxpl.toNat % 8 = 0 ∧
  (c.framing = .stuff → s.delim.extractLsb' 0 8 ≠ s.esc.extractLsb' 0 8)

/-- The frequencies TX needs are set (R220 check 4). -/
def carrierSet (c : CarrierCode) (s : State) : Prop :=
  match c with
  | .ask | .qam8 => s.fc.isSome
  | .fsk => s.flo.isSome ∧ s.fhi.isSome

/-- All checks of R220 for TX pass under the configuration `c`. -/
def txReady (c : CfgFields) (s : State) : Prop :=
  pipelineReady c s ∧ spsOk (if c.line = .man then 2 else 1) s ∧ positiveOk s.amp ∧ positiveOk s.fs ∧
  carrierSet c.carr s ∧ (c.framing = .count → alen c s.maxpl.toNat ≤ 2040) ∧
  (c.inj = .one → s.injpos.isSome) ∧ (c.inj = .rnd → s.injmax.isSome)

/-- The DEM command whose function CFG.RXSRC and CFG.LINE or CFG.CARR select (R214, R220). -/
def rxDemCommand (c : CfgFields) : Instr :=
  match c.rxsrc with
  | .line => match c.line with
    | .nrz => .nrzDem
    | .man => .manDem
    | .ami => .amiDem
  | .carrier => match c.carr with
    | .ask => .askDem
    | .fsk => .fskDem
    | .qam8 => .qamDem

/-- The signal CFG.RXSRC selects (R230). -/
def rxSignal (c : CfgFields) (s : State) : List Sample :=
  match c.rxsrc with
  | .line => s.si
  | .carrier => s.si2

/-- The bits the selected demodulator gives (`line_dem` and `carr_dem` of R214), with the registers it reads. -/
def rxBits (c : CfgFields) (s : State) (S : Nat) : BitSeq :=
  match c.rxsrc with
  | .line => match c.line with
    | .nrz => nrzDem S s.si
    | .man => manDem S s.si
    | .ami => amiDem S s.thr s.si
  | .carrier => match c.carr with
    | .ask => askDem ⟨S, s.thr⟩ s.si2
    | .fsk => fskDem ⟨S, s.fs.getD 0, s.flo.getD 0, s.fhi.getD 0⟩ s.si2
    | .qam8 => qamDem s.qamMap ⟨S, s.amp.getD 0, s.fs.getD 0, s.fc.getD 0⟩ s.si2

/-- `deframe` of R214 on a stream; none is the FramingError. -/
def rxChunks (c : CfgFields) (s : State) (b : BitSeq) : Option (List BitSeq) :=
  match c.framing with
  | .count => deframeByCount b
  | .stuff => deframeByStuffing b (s.delim.extractLsb' 0 8) (s.esc.extractLsb' 0 8)

/-- A chunk of L bits can have d bits before protection: one of the lengths R226 looks among. -/
def chunkLength (c : CfgFields) (M L d : Nat) : Prop := 8 ≤ d ∧ d ≤ M ∧ d % 8 = 0 ∧ alen c d = L

/-- All checks of R220 for RX pass under the configuration `c`: it reads the registers of the selected DEM command. -/
def rxReady (c : CfgFields) (s : State) : Prop := pipelineReady c s ∧ signalRegsOk (rxDemCommand c) s

/-- The parameter registers on which the two sides of a transmission must agree (R278), with QAM_MAP. -/
def sameParameters (s u : State) : Prop :=
  u.maxpl = s.maxpl ∧ u.sps = s.sps ∧ u.delim = s.delim ∧ u.esc = s.esc ∧ u.amp = s.amp ∧ u.fs = s.fs ∧
  u.fc = s.fc ∧ u.flo = s.flo ∧ u.fhi = s.fhi ∧ u.qamMap = s.qamMap

/-- A frequency puts a whole number of cycles, more than 0 and fewer than S/2, in a symbol window (R195). -/
def wholeCycles (S : Nat) (f fs : ℚ) (c : Nat) : Prop := f * (S : ℚ) / fs = (c : ℚ) ∧ 0 < c ∧ 2 * c < S

/-- The conditions of R195 under which the carrier's demodulator inverts its modulator. -/
def carrierInvertible (k : CarrierCode) (u : State) (S : Nat) (A F : ℚ) : Prop :=
  match k with
  | .ask => 0 ≤ u.thr ∧ u.thr < A * A / 2 ∧ ∃ c, wholeCycles S (u.fc.getD 0) F c
  | .fsk => ∃ c d, c ≠ d ∧ wholeCycles S (u.flo.getD 0) F c ∧ wholeCycles S (u.fhi.getD 0) F d
  | .qam8 => qamMapLegal u.qamMap = true ∧ ∃ c, wholeCycles S (u.fc.getD 0) F c

end Sys2Proof.Machine
end

