-- ==== Sys2Proof/Certificates/Slice0/Obligations.lean ====
section
/-! DEFINITION. The statements for the provers. Each says which rules of spec/ it formalises; where a statement rests on a
choice of the model, its docstring names the log entry. Numbers such as 0x110 are STATUS words: bits [3:0] ERR, bit 4 CHK,
5 DETFAIL, 6 CORRECTED, 7 CORRFAIL, 8 DONE (R35). -/

open Sys2Proof Sys2Proof.Machine

/-! ## Encoding -/

/-- R72, R76: exactly the 31 words of the table decode, each to its command; and every command's word decodes to it.
-/
def Obligations.DecodeIsTheOpcodeTable : Prop :=
  (∀ (w : Word) (i : Instr), decode w = .ok i ↔ (w, i) ∈ [
    (0x00000001#32, Instr.b2bits), (0x00000002#32, Instr.bits2b),
    (0x00000010#32, Instr.parAdd), (0x00000011#32, Instr.parChk), (0x00000012#32, Instr.crcAdd),
    (0x00000013#32, Instr.crcChk), (0x00000014#32, Instr.hamEnc), (0x00000015#32, Instr.hamDec),
    (0x00000020#32, Instr.split), (0x00000021#32, Instr.wrapCnt), (0x00000022#32, Instr.frmCnt),
    (0x00000023#32, Instr.dfrCnt), (0x00000024#32, Instr.wrapStf), (0x00000025#32, Instr.frmStf),
    (0x00000026#32, Instr.dfrStf),
    (0x00000030#32, Instr.nrzMod), (0x00000031#32, Instr.nrzDem), (0x00000032#32, Instr.manMod),
    (0x00000033#32, Instr.manDem), (0x00000034#32, Instr.amiMod), (0x00000035#32, Instr.amiDem),
    (0x00000040#32, Instr.askMod), (0x00000041#32, Instr.askDem), (0x00000042#32, Instr.fskMod),
    (0x00000043#32, Instr.fskDem), (0x00000044#32, Instr.qamMod), (0x00000045#32, Instr.qamDem),
    (0x00000050#32, Instr.injOne), (0x00000051#32, Instr.injRnd), (0x00000058#32, Instr.tx),
    (0x00000059#32, Instr.rx)]) ∧
  (∀ w i, decode w = .ok i ↔ w = encode i)

/-- R70, R72: one word of each family, written out bit by bit, decodes to its command; and two words that differ from
a command's in one bit do not decode. -/
def Obligations.DecodeOfWrittenWords : Prop :=
  decode 0b00000000000000000000000000000001#32 = .ok .b2bits ∧
  decode 0b00000000000000000000000000010010#32 = .ok .crcAdd ∧
  decode 0b00000000000000000000000000100110#32 = .ok .dfrStf ∧
  decode 0b00000000000000000000000000110101#32 = .ok .amiDem ∧
  decode 0b00000000000000000000000001000010#32 = .ok .fskMod ∧
  decode 0b00000000000000000000000001011000#32 = .ok .tx ∧
  decode 0b00000000000000000000000101011000#32 = .error (.nonzeroHighBits 0x158#32) ∧
  decode 0b00000000000000000000000000000011#32 = .error (.unknownOpcode 3)

/-- R71, R74: a write to CMD of any word but the 31 raises ConfigurationError and changes only STATUS; the all-zero
and the all-ones word are among them. That the write is counted in the model's field epoch is the model's choice (log
4). -/
def Obligations.IllegalWordChangesOnlyStatus : Prop :=
  (∀ (w : Word) (s : State), (∀ i, w ≠ encode i) →
    act (.writeWord 0 w) s = .next { s with status := 0x101#32, epoch := s.epoch + 1 }) ∧
  (∀ i, encode i ≠ 0#32 ∧ encode i ≠ BitVec.allOnes 32)

/-! ## Steps, the register port, the buffers -/

/-- R34, R60 (the queue of host actions is the model's, log 1): where the next host action writes a command's word to
CMD, the step is that command run on the state without the action and with one more host write counted (log 4). So it
is in the state withFetchWord makes. -/
def Obligations.StepRunsTheDecodedCommand : Prop :=
  (∀ (s : State) (w : Word) (i : Instr) (rest : List HostAction),
    s.hostq = .writeWord 0 w :: rest → decode w = .ok i →
    step s = exec i { s with hostq := rest, epoch := s.epoch + 1 }) ∧
  (∀ (s : State) (nbits w : Nat) (i : Instr), decodeTableWord nbits w = some i →
    step (s.withFetchWord nbits w) = exec i { s with epoch := s.epoch + 1 })

/-- R270 and the model's queue of host actions (log 1, log 8, log 10): with no host action pending the state stays;
otherwise the oldest is taken from the queue and carried out. A reset applied by the host gives every register and
buffer its reset value; what it leaves of the model's own fields is the model's choice. -/
def Obligations.StepTakesTheOldestAction : Prop :=
  ((∀ s : State, s.hostq = [] → step s = .next s) ∧
    (∀ (s : State) (a : HostAction) (rest : List HostAction), s.hostq = a :: rest →
      step s = act a { s with hostq := rest })) ∧
  (∀ s : State, act .reset s = .next { State.reset with
      hostq := s.hostq, rdata := s.rdata, epoch := s.epoch + 1, draws := s.draws, qamMap := s.qamMap })

/-- R21, R22, R32, R43, R64: a host write of a register stores the value whole in that register; a write of the
read-only STATUS, of a word or of a real number, or of a number that is not implemented changes no register (every
write is counted, log 4). A host read returns the register's value and changes nothing but what the host has read; a
register that can be unset returns some value, its own where it is set; CMD and the numbers that are not implemented
return 0. -/
def Obligations.RegisterPort : Prop :=
  ((∀ (s : State) (w : Word),
      act (.writeWord 0x01 w) s = .next { s with epoch := s.epoch + 1 } ∧
      act (.writeWord 0x02 w) s = .next { s with cfg := w, epoch := s.epoch + 1 } ∧
      act (.writeWord 0x03 w) s = .next { s with maxpl := w, epoch := s.epoch + 1 } ∧
      act (.writeWord 0x04 w) s = .next { s with sps := some w, epoch := s.epoch + 1 } ∧
      act (.writeWord 0x05 w) s = .next { s with delim := w, epoch := s.epoch + 1 } ∧
      act (.writeWord 0x06 w) s = .next { s with esc := w, epoch := s.epoch + 1 } ∧
      act (.writeWord 0x07 w) s = .next { s with injpos := some w, epoch := s.epoch + 1 } ∧
      act (.writeWord 0x08 w) s = .next { s with injmax := some w, epoch := s.epoch + 1 }) ∧
    (∀ (s : State) (q : ℚ),
      act (.writeReal 0x10 q) s = .next { s with amp := some q, epoch := s.epoch + 1 } ∧
      act (.writeReal 0x11 q) s = .next { s with fs := some q, epoch := s.epoch + 1 } ∧
      act (.writeReal 0x12 q) s = .next { s with fc := some q, epoch := s.epoch + 1 } ∧
      act (.writeReal 0x13 q) s = .next { s with flo := some q, epoch := s.epoch + 1 } ∧
      act (.writeReal 0x14 q) s = .next { s with fhi := some q, epoch := s.epoch + 1 } ∧
      act (.writeReal 0x15 q) s = .next { s with thr := q, epoch := s.epoch + 1 } ∧
      act (.writeReal 0x01 q) s = .next { s with epoch := s.epoch + 1 }) ∧
    (∀ (s : State) (n : Nat) (w : Word) (q : ℚ), (0x09 ≤ n ∧ n ≤ 0x0F) ∨ 0x16 ≤ n →
      act (.writeWord n w) s = .next { s with epoch := s.epoch + 1 } ∧
      act (.writeReal n q) s = .next { s with epoch := s.epoch + 1 })) ∧
  (∀ s : State,
      act (.readReg 0x00) s = .next { s with rdata := some (.word 0) } ∧
      act (.readReg 0x01) s = .next { s with rdata := some (.word s.status) } ∧
      act (.readReg 0x02) s = .next { s with rdata := some (.word s.cfg) } ∧
      act (.readReg 0x03) s = .next { s with rdata := some (.word s.maxpl) } ∧
      (∃ v, act (.readReg 0x04) s = .next { s with rdata := some (.word v) } ∧ ∀ w, s.sps = some w → v = w) ∧
      act (.readReg 0x05) s = .next { s with rdata := some (.word s.delim) } ∧
      act (.readReg 0x06) s = .next { s with rdata := some (.word s.esc) } ∧
      (∃ v, act (.readReg 0x07) s = .next { s with rdata := some (.word v) } ∧ ∀ w, s.injpos = some w → v = w) ∧
      (∃ v, act (.readReg 0x08) s = .next { s with rdata := some (.word v) } ∧ ∀ w, s.injmax = some w → v = w) ∧
      (∃ v, act (.readReg 0x10) s = .next { s with rdata := some (.real v) } ∧ ∀ q, s.amp = some q → v = q) ∧
      (∃ v, act (.readReg 0x11) s = .next { s with rdata := some (.real v) } ∧ ∀ q, s.fs = some q → v = q) ∧
      (∃ v, act (.readReg 0x12) s = .next { s with rdata := some (.real v) } ∧ ∀ q, s.fc = some q → v = q) ∧
      (∃ v, act (.readReg 0x13) s = .next { s with rdata := some (.real v) } ∧ ∀ q, s.flo = some q → v = q) ∧
      (∃ v, act (.readReg 0x14) s = .next { s with rdata := some (.real v) } ∧ ∀ q, s.fhi = some q → v = q) ∧
      act (.readReg 0x15) s = .next { s with rdata := some (.real s.thr) } ∧
      (∀ n, (0x09 ≤ n ∧ n ≤ 0x0F) ∨ 0x16 ≤ n → act (.readReg n) s = .next { s with rdata := some (.word 0) }))

/-- R37, R39, R277: the host writes each input buffer whole, copies output values to input buffers, and reads any
buffer; nothing else changes (but the count of host writes, log 4). -/
def Obligations.BufferActions : Prop :=
  ∀ s : State,
    (∀ ys, act (.putByi ys) s = .next { s with byi := ys, epoch := s.epoch + 1 }) ∧
    (∀ b, act (.putBi b) s = .next { s with bi := b, epoch := s.epoch + 1 }) ∧
    (∀ x, act (.putSi x) s = .next { s with si := x, epoch := s.epoch + 1 }) ∧
    (∀ x, act (.putSi2 x) s = .next { s with si2 := x, epoch := s.epoch + 1 }) ∧
    act .byiFromByo s = .next { s with byi := s.byo, epoch := s.epoch + 1 } ∧
    (∀ k b, s.bo[k]? = some b → act (.biFromPacket k) s = .next { s with bi := b, epoch := s.epoch + 1 }) ∧
    act .biFromAll s = .next { s with bi := s.bo.flatten, epoch := s.epoch + 1 } ∧
    act (.siFrom .so) s = .next { s with si := s.so, epoch := s.epoch + 1 } ∧
    act (.siFrom .sd) s = .next { s with si := s.sd, epoch := s.epoch + 1 } ∧
    act (.siFrom .sde) s = .next { s with si := s.sde, epoch := s.epoch + 1 } ∧
    act (.siFrom .sc) s = .next { s with si := s.sc, epoch := s.epoch + 1 } ∧
    act (.siFrom .sce) s = .next { s with si := s.sce, epoch := s.epoch + 1 } ∧
    act (.si2From .so) s = .next { s with si2 := s.so, epoch := s.epoch + 1 } ∧
    act (.si2From .sd) s = .next { s with si2 := s.sd, epoch := s.epoch + 1 } ∧
    act (.si2From .sde) s = .next { s with si2 := s.sde, epoch := s.epoch + 1 } ∧
    act (.si2From .sc) s = .next { s with si2 := s.sc, epoch := s.epoch + 1 } ∧
    act (.si2From .sce) s = .next { s with si2 := s.sce, epoch := s.epoch + 1 } ∧
    act (.readBuf .byi) s = .next { s with rdata := some (.bytes s.byi) } ∧
    act (.readBuf .bi) s = .next { s with rdata := some (.bits s.bi) } ∧
    act (.readBuf .si) s = .next { s with rdata := some (.samples s.si) } ∧
    act (.readBuf .si2) s = .next { s with rdata := some (.samples s.si2) } ∧
    act (.readBuf .byo) s = .next { s with rdata := some (.bytes s.byo) } ∧
    act (.readBuf .bo) s = .next { s with rdata := some (.packets s.bo) } ∧
    act (.readBuf .so) s = .next { s with rdata := some (.samples s.so) } ∧
    act (.readBuf .tO) s = .next { s with rdata := some (.times s.tO) } ∧
    act (.readBuf .sd) s = .next { s with rdata := some (.samples s.sd) } ∧
    act (.readBuf .td) s = .next { s with rdata := some (.times s.td) } ∧
    act (.readBuf .sc) s = .next { s with rdata := some (.samples s.sc) } ∧
    act (.readBuf .tc) s = .next { s with rdata := some (.times s.tc) } ∧
    act (.readBuf .sde) s = .next { s with rdata := some (.samples s.sde) } ∧
    act (.readBuf .tde) s = .next { s with rdata := some (.times s.tde) } ∧
    act (.readBuf .sce) s = .next { s with rdata := some (.samples s.sce) } ∧
    act (.readBuf .tce) s = .next { s with rdata := some (.times s.tce) }

/-! ## Reset -/

/-- R44: the value of every register and buffer after reset. -/
def Obligations.ResetValues : Prop :=
  State.reset.status = 0x00000000#32 ∧ State.reset.cfg = 0x00000000#32 ∧ State.reset.maxpl = 16#32 ∧
  State.reset.delim = 0x0000007E#32 ∧ State.reset.esc = 0x00000023#32 ∧ State.reset.thr = 0 ∧
  State.reset.sps = none ∧ State.reset.injpos = none ∧ State.reset.injmax = none ∧
  State.reset.amp = none ∧ State.reset.fs = none ∧ State.reset.fc = none ∧ State.reset.flo = none ∧
  State.reset.fhi = none ∧
  State.reset.byi = [] ∧ State.reset.bi = [] ∧ State.reset.si = [] ∧ State.reset.si2 = [] ∧
  State.reset.byo = [] ∧ State.reset.so = [] ∧ State.reset.tO = [] ∧ State.reset.sd = [] ∧ State.reset.td = [] ∧
  State.reset.sc = [] ∧ State.reset.tc = [] ∧ State.reset.sde = [] ∧ State.reset.tde = [] ∧
  State.reset.sce = [] ∧ State.reset.tce = [] ∧ State.reset.bo = []

/-- R43, R271: a step that applies no reset leaves every set register set, and changes no output buffer but those the
command it runs owns. -/
def Obligations.OnlyResetUnsets : Prop :=
  ∀ s t : State, step s = .next t → (∀ rest, s.hostq ≠ .reset :: rest) →
    (s.sps.isSome → t.sps.isSome) ∧ (s.injpos.isSome → t.injpos.isSome) ∧ (s.injmax.isSome → t.injmax.isSome) ∧
    (s.amp.isSome → t.amp.isSome) ∧ (s.fs.isSome → t.fs.isSome) ∧ (s.fc.isSome → t.fc.isSome) ∧
    (s.flo.isSome → t.flo.isSome) ∧ (s.fhi.isSome → t.fhi.isSome) ∧
    ((∃ i rest, s.hostq = .writeWord 0 (encode i) :: rest ∧ sameOutputsBut (ownedBy i) s t) ∨
      sameOutputsBut .nothing s t)

/-! ## STATUS, frames, errors: every command -/

/-- R35: the word a command leaves in STATUS has each field at its place, DONE = 1 and zeros above. -/
def Obligations.StatusWordFields : Prop :=
  ∀ (e : Err) (f : Flags),
    (statusWord e f).extractLsb' 0 4 = BitVec.ofNat 4 (errCode e) ∧ (statusWord e f).getLsbD 4 = f.chk ∧
    (statusWord e f).getLsbD 5 = f.detfail ∧ (statusWord e f).getLsbD 6 = f.corrected ∧
    (statusWord e f).getLsbD 7 = f.corrfail ∧ (statusWord e f).getLsbD 8 = true ∧
    (statusWord e f).extractLsb' 9 23 = 0#23

/-- R37, R38, R246 (4): a command changes STATUS and the output buffers it owns, and no register, no input buffer, no
other output buffer, nothing of the host's side; of the model's own fields only the injector's draw counter can move.
-/
def Obligations.CommandChangesOnlyItsOutputs : Prop :=
  ∀ (i : Instr) (s t : State), exec i s = .next t →
    sameRegisters s t ∧ sameInputs s t ∧ sameHost s t ∧ t.qamMap = s.qamMap ∧ sameOutputsBut (ownedBy i) s t ∧
    (t.draws = s.draws ∨ ((i = .injRnd ∨ i = .tx) ∧ t.draws = s.draws + 1))

/-- R34, R35, R252: every command runs to completion from every state, with DONE = 1, an ERR of 0 to 6 and the
reserved bits of STATUS 0. -/
def Obligations.EveryCommandCompletes : Prop :=
  ∀ (i : Instr) (s : State), ∃ t, exec i s = .next t ∧
    statusDone t.status = true ∧ statusErr t.status ≤ 6 ∧ t.status.extractLsb' 9 23 = 0#23

/-- R251: the errors each command can raise are exactly those of its row, and an illegal command word raises
ConfigurationError alone. -/
def Obligations.ErrorTable : Prop :=
  (∀ (i : Instr) (code : Nat), code ≠ 0 →
    ((∃ s t : State, exec i s = .next t ∧ statusErr t.status = code) ↔ code ∈ raisableErrors i)) ∧
  (∀ (w : Word) (s : State), (∀ i, w ≠ encode i) → ∃ t, issue w s = .next t ∧ statusErr t.status = 1)

/-- R240, R246: after an aborting error the owned outputs are empty, STATUS holds the code, no flag and DONE, and
nothing else has changed. -/
def Obligations.AbortingErrorsDeliverNothing : Prop :=
  ∀ (i : Instr) (s t : State), exec i s = .next t → statusErr t.status ∈ [1, 2, 5, 6] →
    t = { s.clearOwned (ownedBy i) with status := BitVec.ofNat 32 (0x100 + statusErr t.status) }

/-- R38, R42: two states that agree on the registers a command can read, the input buffers, QAM_MAP and the injector's
draw give the same STATUS and the same owned outputs, whatever the output buffers held. -/
def Obligations.OutputsAreNeverRead : Prop :=
  ∀ (i : Instr) (s u s' u' : State), sameRegisters s u → sameInputs s u → u.qamMap = s.qamMap → u.draws = s.draws →
    exec i s = .next s' → exec i u = .next u' → u'.status = s'.status ∧ sameOwned (ownedBy i) s' u'

/-! ## BitCodec -/

/-- R91, R92: B2BITS writes one packet with the 8 bits of every byte, most significant first. BITS2B writes the bytes
of BI, 8 bits each, most significant first; where the bits are no whole bytes, no byte and AlignmentError. -/
def Obligations.BytesAndBits : Prop :=
  (decode 0x00000001#32 = .ok .b2bits ∧
    (∀ s : State, exec .b2bits s = .next { s with bo := [bitsOf s.byi], status := 0x100#32 }) ∧
    (∀ ys : List Byte, (bitsOf ys).length = 8 * ys.length ∧
      ∀ k j, j < 8 → (bitsOf ys)[8 * k + j]? = (ys[k]?).map fun y => y.getLsbD (7 - j))) ∧
  (decode 0x00000002#32 = .ok .bits2b ∧
    (∀ s : State, s.bi.length % 8 = 0 →
      exec .bits2b s = .next { s with byo := bytesOf s.bi, status := 0x100#32 }) ∧
    (∀ s : State, s.bi.length % 8 ≠ 0 → exec .bits2b s = .next { s with byo := [], status := 0x106#32 }) ∧
    (∀ b : BitSeq, (bytesOf b).length = b.length / 8 ∧
      ∀ k j, k < b.length / 8 → j < 8 → ((bytesOf b)[k]?).map (fun y => y.getLsbD (7 - j)) = b[8 * k + j]?))

/-- R93: bytes to bits and bits to bytes are inverse. -/
def Obligations.BitCodecRoundTrip : Prop :=
  (∀ ys : List Byte, bytesOf (bitsOf ys) = ys) ∧ (∀ b : BitSeq, b.length % 8 = 0 → bitsOf (bytesOf b) = b)

/-! ## ErrorControl -/

/-- R101, R102: PAR.ADD appends the bit that makes the number of ones even; PAR.CHK strips the last bit and compares
it with the parity of the others; the empty input fails the check. -/
def Obligations.ParityAddAndCheck : Prop :=
  (decode 0x00000010#32 = .ok .parAdd ∧
    (∀ s : State, exec .parAdd s =
      .next { s with bo := [s.bi ++ [decide (popcount s.bi % 2 = 1)]], status := 0x100#32 }) ∧
    (∀ b : BitSeq, popcount (b ++ [decide (popcount b % 2 = 1)]) % 2 = 0)) ∧
  (decode 0x00000011#32 = .ok .parChk ∧
    (∀ s : State, s.bi = [] → exec .parChk s = .next { s with bo := [[]], status := 0x123#32 }) ∧
    (∀ (s : State) (p : BitSeq) (x : Bool), s.bi = p ++ [x] → exec .parChk s =
      .next { s with bo := [p], status := if popcount p % 2 = bitVal x then 0x110#32 else 0x123#32 }) ∧
    (∀ w : BitSeq, w ≠ [] → (checkParity w = true ↔ popcount w % 2 = 0)))

/-- R103: the check passes on an encoded sequence, fails after a flip of any one bit, and in general passes exactly
when an even number of the `len(b) + 1` bits were flipped; `e` marks the flipped ones. -/
def Obligations.ParityProperties : Prop :=
  (∀ b, checkParity (addParity b) = true) ∧
  (∀ b i, i < (addParity b).length → checkParity (flipBit (addParity b) i) = false) ∧
  (∀ b e : BitSeq, e.length = b.length + 1 →
    (checkParity (xorBits (addParity b) e) = true ↔ popcount e % 2 = 0))

/-- R105, R106: CRC.ADD pads with zeros to whole bytes and appends the checksum of those bytes, most significant bit
first. The checksum starts from 0xFFFFFFFF, puts each byte in the low 8 bits, makes 8 inner steps and is inverted at
the end; an inner step shifts right by one and, where bit 0 was 1, XORs 0xEDB88320. The initial value and the final
XOR are PRESUMED: the spec has them from general knowledge (G1, log 11). The byte-at-a-time table form, with the table
entry of v being v after the 8 inner steps, gives the same function; the checksum of no bytes is 0. -/
def Obligations.CrcAppendsChecksum : Prop :=
  (decode 0x00000012#32 = .ok .crcAdd ∧
    (∀ s : State, exec .crcAdd s = .next
      { s with bo := [padz s.bi ++ be (crc32 (bytesOf (padz s.bi))).toNat 32], status := 0x100#32 }) ∧
    (∀ b : BitSeq, padz b = b ++ List.replicate (8 * ((b.length + 7) / 8) - b.length) false ∧
      (addCrc32 b).length = 8 * ((b.length + 7) / 8) + 32)) ∧
  ((∀ ys : List Byte, crc32 ys =
      ys.foldl (fun c y => crcShifts 8 ((c ^^^ y.setWidth 32) &&& 0xFF#32) ^^^ (c >>> 8)) 0xFFFFFFFF#32
        ^^^ 0xFFFFFFFF#32) ∧
    crc32 [] = 0#32) ∧
  ((∀ c : Word, crcShift c = if c.getLsbD 0 then (c >>> 1) ^^^ 0xEDB88320#32 else c >>> 1) ∧
    (∀ c : Word, crcShifts 8 c =
      crcShift (crcShift (crcShift (crcShift (crcShift (crcShift (crcShift (crcShift c)))))))) ∧
    (∀ ys : List Byte, crc32 ys =
      ys.foldl (fun c y => crcShifts 8 (c ^^^ y.setWidth 32)) 0xFFFFFFFF#32 ^^^ 0xFFFFFFFF#32))

/-- R107, R108 (its first clause): CRC.CHK strips the last 32 bits and compares them with the checksum of the rest; an
input of fewer than 32 bits fails the check; what CRC.ADD made passes, and the padded payload is delivered. -/
def Obligations.CrcCheckAndRoundTrip : Prop :=
  (decode 0x00000013#32 = .ok .crcChk ∧
    (∀ s : State, s.bi.length < 32 → exec .crcChk s = .next { s with bo := [[]], status := 0x123#32 }) ∧
    (∀ (s : State) (p t : BitSeq), s.bi = p ++ t → t.length = 32 → exec .crcChk s =
      .next { s with bo := [p],
                     status := if (crc32 (bytesOf (padz p))).toNat = val t then 0x110#32 else 0x123#32 })) ∧
  (∀ (s : State) (b : BitSeq), s.bi = addCrc32 b →
      exec .crcChk s = .next { s with bo := [padz b], status := 0x110#32 })

/-- R110: hn(k) is the least n with n - r_of(n) at least k, there equality holds, hn(k) is never a power of two, and
it grows strictly, by at least 8 when k grows by 8. -/
def Obligations.HammingGeometry : Prop :=
  ∀ k : Nat, hn k - rOf (hn k) = k ∧ (∀ n, n < hn k → n - rOf n < k) ∧ isPow2 (hn k) = false ∧
    hn k < hn (k + 1) ∧ hn k + 8 ≤ hn (k + 8)

/-- R111, R112, R113: HAM.ENC writes one codeword of hn(k) bits with the data in order at the positions that are no
power of two and every parity group even. -/
def Obligations.HammingEncodes : Prop :=
  decode 0x00000014#32 = .ok .hamEnc ∧
  (∀ s : State, exec .hamEnc s = .next { s with bo := [hammingEncode s.bi], status := 0x100#32 }) ∧
  (∀ b : BitSeq, (hammingEncode b).length = hn b.length ∧ dataBits 1 (hammingEncode b) = b ∧
    ∀ i, i < rOf (hn b.length) → groupXor i 1 (hammingEncode b) = false)

/-- R114, R115: HAM.DEC on any received word: syndrome 0 delivers the data bits with OK; a syndrome in range flips
that position first and sets CORRECTED; one out of range flips nothing and is CorrectionFailure. -/
def Obligations.HammingDecodes : Prop :=
  decode 0x00000015#32 = .ok .hamDec ∧
  ∀ (s : State) (syn : Nat), syn = syndrome s.bi (rOf s.bi.length) →
    (syn = 0 → exec .hamDec s = .next { s with bo := [dataBits 1 s.bi], status := 0x100#32 }) ∧
    (0 < syn → syn ≤ s.bi.length → exec .hamDec s =
      .next { s with bo := [dataBits 1 (flipBit s.bi (syn - 1))], status := 0x140#32 }) ∧
    (s.bi.length < syn → exec .hamDec s = .next { s with bo := [dataBits 1 s.bi], status := 0x184#32 })

/-- R116, R115 (d): no error decodes with corrected = false, one flipped bit anywhere in the codeword is corrected and
reported, and two flipped positions give the syndrome `p XOR q`, which is never 0. -/
def Obligations.HammingCorrectsOneError : Prop :=
  (∀ b, hammingDecode (hammingEncode b) = ⟨b, false, false, 0⟩) ∧
  (∀ b i, i < (hammingEncode b).length → hammingDecode (flipBit (hammingEncode b) i) = ⟨b, true, false, i + 1⟩) ∧
  (∀ b p q, 1 ≤ p → p ≤ (hammingEncode b).length → 1 ≤ q → q ≤ (hammingEncode b).length → p ≠ q →
    (hammingDecode (flipBit (flipBit (hammingEncode b) (p - 1)) (q - 1))).syn = p ^^^ q ∧ p ^^^ q ≠ 0)

/-! ## Framer -/

/-- R130, R131: SPLIT cuts BI into chunks of MAXPL bits, the last of 1 to MAXPL; MAXPL = 0 is a ConfigurationError. -/
def Obligations.SplitCuts : Prop :=
  decode 0x00000020#32 = .ok .split ∧
  (∀ s : State, s.maxpl ≠ 0#32 →
    exec .split s = .next { s with bo := splitBits s.bi s.maxpl.toNat, status := 0x100#32 }) ∧
  (∀ s : State, s.maxpl = 0#32 → exec .split s = .next { s with bo := [], status := 0x101#32 }) ∧
  (∀ (b : BitSeq) (M : Nat), 1 ≤ M → (splitBits b M).flatten = b ∧ (splitBits b M).length = (b.length + (M - 1)) / M ∧
    ∀ i, i < (splitBits b M).length →
      (splitBits b M)[i]? = some ((b.drop (i * M)).take (min M (b.length - i * M))) ∧ i * M < b.length)

/-- R132, R133, R134: WRAP.CNT puts the 8-bit count of bytes, rounded up, before the chunk; a chunk of more than 2040
bits is a FramingError. FRM.CNT does so for every chunk of the split; MAXPL = 0 is a ConfigurationError. -/
def Obligations.CountedFraming : Prop :=
  (decode 0x00000021#32 = .ok .wrapCnt ∧
    (∀ s : State, s.bi.length ≤ 2040 →
      exec .wrapCnt s = .next { s with bo := [be ((s.bi.length + 7) / 8) 8 ++ s.bi], status := 0x100#32 }) ∧
    (∀ s : State, 2040 < s.bi.length → exec .wrapCnt s = .next { s with bo := [], status := 0x102#32 })) ∧
  (decode 0x00000022#32 = .ok .frmCnt ∧
    (∀ s : State, s.maxpl ≠ 0#32 → min s.maxpl.toNat s.bi.length ≤ 2040 → exec .frmCnt s = .next
      { s with bo := (splitBits s.bi s.maxpl.toNat).map (fun ch => be ((ch.length + 7) / 8) 8 ++ ch),
               status := 0x100#32 }) ∧
    (∀ s : State, s.maxpl ≠ 0#32 → 2040 < min s.maxpl.toNat s.bi.length →
      exec .frmCnt s = .next { s with bo := [], status := 0x102#32 }) ∧
    (∀ s : State, s.maxpl = 0#32 → exec .frmCnt s = .next { s with bo := [], status := 0x101#32 }))

/-- R135, R136: DFR.CNT delivers the chunks of every stream that is counted frames of whole bytes with fewer than 8
bits after them, and raises FramingError on every other stream. -/
def Obligations.DeframeByCountExactly : Prop :=
  decode 0x00000023#32 = .ok .dfrCnt ∧
  (∀ (s : State) (chs : List BitSeq) (rest : BitSeq), (∀ c ∈ chs, c.length % 8 = 0 ∧ c.length ≤ 2040) →
    rest.length < 8 → s.bi = (chs.map fun c => be (c.length / 8) 8 ++ c).flatten ++ rest →
    exec .dfrCnt s = .next { s with bo := chs, status := 0x100#32 }) ∧
  (∀ s : State, (¬ ∃ (chs : List BitSeq) (rest : BitSeq), (∀ c ∈ chs, c.length % 8 = 0 ∧ c.length ≤ 2040) ∧
      rest.length < 8 ∧ s.bi = (chs.map fun c => be (c.length / 8) 8 ++ c).flatten ++ rest) →
    exec .dfrCnt s = .next { s with bo := [], status := 0x102#32 })

/-- R137: counted frames of whole-byte chunks deframe to the chunks, also with up to 7 arbitrary bits after them; with
a chunk that is no whole number of bytes they do not. -/
def Obligations.CountedRoundTrip : Prop :=
  (∀ (chs : List BitSeq) (rest : BitSeq), (∀ c ∈ chs, c.length % 8 = 0 ∧ c.length ≤ 2040) → rest.length < 8 →
    ∃ fs, allSome (chs.map wrapCount) = some fs ∧ deframeByCount (fs.flatten ++ rest) = some chs) ∧
  (∀ (chs fs : List BitSeq), allSome (chs.map wrapCount) = some fs → (∃ c ∈ chs, c.length % 8 ≠ 0) →
    deframeByCount fs.flatten ≠ some chs)

/-- R130, R138 to R141: WRAP.STF puts the stuffed chunk between two delimiters; every whole byte of the chunk that is
the delimiter or the escape is preceded by the escape, and a last part of a byte is copied. FRM.STF does so for every
chunk of the split. MAXPL = 0 and equal delimiter and escape are ConfigurationErrors. -/
def Obligations.StuffedFraming : Prop :=
  (decode 0x00000024#32 = .ok .wrapStf ∧
    (∀ (s : State) (d e : Byte), d = s.delim.extractLsb' 0 8 → e = s.esc.extractLsb' 0 8 → d ≠ e →
      exec .wrapStf s = .next { s with bo := [be d.toNat 8 ++ stuffBits s.bi d e ++ be d.toNat 8],
                                       status := 0x100#32 }) ∧
    (∀ s : State, s.delim.extractLsb' 0 8 = s.esc.extractLsb' 0 8 →
      exec .wrapStf s = .next { s with bo := [], status := 0x101#32 }) ∧
    (∀ (d e : Byte) (rest : BitSeq), rest.length < 8 → stuffBits rest d e = rest) ∧
    (∀ (d e y : Byte) (ch : BitSeq), stuffBits (be y.toNat 8 ++ ch) d e =
      (if y = d ∨ y = e then be e.toNat 8 else []) ++ be y.toNat 8 ++ stuffBits ch d e)) ∧
  (decode 0x00000025#32 = .ok .frmStf ∧
    (∀ (s : State) (d e : Byte), s.maxpl ≠ 0#32 → d = s.delim.extractLsb' 0 8 → e = s.esc.extractLsb' 0 8 → d ≠ e →
      exec .frmStf s = .next
        { s with bo := (splitBits s.bi s.maxpl.toNat).map
                   (fun ch => be d.toNat 8 ++ stuffBits ch d e ++ be d.toNat 8),
                 status := 0x100#32 }) ∧
    (∀ s : State, s.maxpl = 0#32 ∨ s.delim.extractLsb' 0 8 = s.esc.extractLsb' 0 8 →
      exec .frmStf s = .next { s with bo := [], status := 0x101#32 }))

/-- R142, R143: DFR.STF on a stream of stuffed whole-byte frames delivers their chunks, the empty ones discarded; on a
stream whose last frame is not closed it raises FramingError. In general the whole bytes of every stream are payload
before the first delimiter, then delimiters, each with the payload after it, then perhaps a last escape with nothing
after it, where every byte of payload stands plain or behind an escape, and a delimiter or an escape never stands
plain: the non-empty segments are delivered, literally and in order, also where two frames share one delimiter and
where an escape stands before an ordinary byte; payload before the first delimiter, payload after the last, or an
escape as the last byte is a FramingError. Up to 7 last bits are ignored. Equal delimiter and escape are a
ConfigurationError. -/
def Obligations.DeframeByStuffing : Prop :=
  decode 0x00000026#32 = .ok .dfrStf ∧
  (∀ (s : State) (d e : Byte) (chs : List BitSeq) (rest : BitSeq),
    d = s.delim.extractLsb' 0 8 → e = s.esc.extractLsb' 0 8 → d ≠ e →
    (∀ c ∈ chs, c.length % 8 = 0) → rest.length < 8 →
    s.bi = (chs.map fun c => wrapStuffed c d e).flatten ++ rest →
    exec .dfrStf s = .next { s with bo := chs.filter (fun c => c ≠ []), status := 0x100#32 }) ∧
  (∀ (s : State) (d e : Byte) (chs : List BitSeq) (ch rest : BitSeq),
    d = s.delim.extractLsb' 0 8 → e = s.esc.extractLsb' 0 8 → d ≠ e →
    (∀ c ∈ chs, c.length % 8 = 0) → ch ≠ [] → ch.length % 8 = 0 → rest.length < 8 →
    s.bi = (chs.map fun c => wrapStuffed c d e).flatten ++ be d.toNat 8 ++ stuffBits ch d e ++ rest →
    exec .dfrStf s = .next { s with bo := [], status := 0x102#32 }) ∧
  (∀ (s : State) (d e : Byte) (first : Segment) (segs : List Segment) (cut : Bool) (rest : BitSeq),
    d = s.delim.extractLsb' 0 8 → e = s.esc.extractLsb' 0 8 → d ≠ e →
    segmentOk d e first → (∀ g ∈ segs, segmentOk d e g) → rest.length < 8 →
    s.bi = bitsOf (tokenStream d e first segs cut) ++ rest →
    (first = [] → segs.getLastD [] = [] → cut = false → exec .dfrStf s =
      .next { s with bo := (segs.filter fun g => g ≠ []).map segmentBits, status := 0x100#32 }) ∧
    (first ≠ [] ∨ segs.getLastD [] ≠ [] ∨ cut = true →
      exec .dfrStf s = .next { s with bo := [], status := 0x102#32 })) ∧
  (∀ (d e : Byte) (b : BitSeq), d ≠ e → ∃ (first : Segment) (segs : List Segment) (cut : Bool) (rest : BitSeq),
    segmentOk d e first ∧ (∀ g ∈ segs, segmentOk d e g) ∧ rest.length < 8 ∧
    b = bitsOf (tokenStream d e first segs cut) ++ rest) ∧
  (∀ s : State, s.delim.extractLsb' 0 8 = s.esc.extractLsb' 0 8 →
    exec .dfrStf s = .next { s with bo := [], status := 0x101#32 })

/-- R144: stuffed frames of non-empty whole-byte chunks deframe to the chunks, also with up to 7 arbitrary bits after
them; the frame of an empty chunk, or of one that is no whole number of bytes, does not give the chunk back. -/
def Obligations.StuffedRoundTrip : Prop :=
  (∀ (d e : Byte) (chs : List BitSeq) (rest : BitSeq), d ≠ e → (∀ c ∈ chs, c ≠ [] ∧ c.length % 8 = 0) →
    rest.length < 8 →
    deframeByStuffing ((chs.map fun c => wrapStuffed c d e).flatten ++ rest) d e = some chs) ∧
  (∀ (d e : Byte), d ≠ e → deframeByStuffing (wrapStuffed [] d e) d e = some []) ∧
  (∀ (d e : Byte) (c : BitSeq), d ≠ e → c.length % 8 ≠ 0 →
    deframeByStuffing (wrapStuffed c d e) d e ≠ some [c])

/-! ## LineCoder -/

/-- R160, R161, R163, R165, R167: NRZ.MOD writes S samples +A for a one and -A for a zero; MAN.MOD floor(S/2) samples
of one sign and the rest of the other, high first for a one, low first for a zero; AMI.MOD 0 for a zero, and for a one
+A or -A as the number of ones before it in the message is even or odd; each with the times of its samples. -/
def Obligations.LineModulators : Prop :=
  (decode 0x00000030#32 = .ok .nrzMod ∧
    ∀ (s : State) (S : Word) (A F : ℚ), s.sps = some S → 1 ≤ S.toNat → s.amp = some A → 0 < A → s.fs = some F → 0 < F →
      exec .nrzMod s = .next
        { s with so := s.bi.flatMap fun x => List.replicate S.toNat (Sample.ofRat (if x then A else -A)),
                 tO := (List.range (s.bi.length * S.toNat)).map fun (j : Nat) => (j : ℚ) / F,
                 status := 0x100#32 }) ∧
  (decode 0x00000032#32 = .ok .manMod ∧
    ∀ (s : State) (S : Word) (A F : ℚ), s.sps = some S → 2 ≤ S.toNat → s.amp = some A → 0 < A → s.fs = some F → 0 < F →
      exec .manMod s = .next
        { s with so := s.bi.flatMap fun x =>
                   List.replicate (S.toNat / 2) (Sample.ofRat (if x then A else -A)) ++
                   List.replicate (S.toNat - S.toNat / 2) (Sample.ofRat (if x then -A else A)),
                 tO := (List.range (s.bi.length * S.toNat)).map fun (j : Nat) => (j : ℚ) / F,
                 status := 0x100#32 }) ∧
  (decode 0x00000034#32 = .ok .amiMod ∧
    ∀ (s : State) (S : Word) (A F : ℚ), s.sps = some S → 1 ≤ S.toNat → s.amp = some A → 0 < A → s.fs = some F → 0 < F →
      exec .amiMod s = .next
        { s with so := (List.range s.bi.length).flatMap fun m => List.replicate S.toNat (Sample.ofRat
                   (if s.bi.getD m false then (if popcount (s.bi.take m) % 2 = 0 then A else -A) else 0)),
                 tO := (List.range (s.bi.length * S.toNat)).map fun (j : Nat) => (j : ℚ) / F,
                 status := 0x100#32 })

/-- R160, R162, R164, R166, R168: one bit per window of S samples: NRZ.DEM delivers 1 exactly where the sum is > 0,
MAN.DEM exactly where the mean of the first floor(S/2) samples is above the mean of the rest, AMI.DEM exactly where
the mean of the absolute values exceeds THR. -/
def Obligations.LineDemodulators : Prop :=
  (decode 0x00000031#32 = .ok .nrzDem ∧
    ∀ (s : State) (S : Word), s.sps = some S → 1 ≤ S.toNat → s.si.length % S.toNat = 0 →
      ∃ b, exec .nrzDem s = .next { s with bo := [b], status := 0x100#32 } ∧ b.length = s.si.length / S.toNat ∧
        ∀ m, m < s.si.length / S.toNat → (b[m]? = some true ↔
          0 < ∑ i ∈ Finset.range S.toNat, (s.si.getD (m * S.toNat + i) Sample.zero).value)) ∧
  (decode 0x00000033#32 = .ok .manDem ∧
    ∀ (s : State) (S : Word), s.sps = some S → 2 ≤ S.toNat → s.si.length % S.toNat = 0 →
      ∃ b, exec .manDem s = .next { s with bo := [b], status := 0x100#32 } ∧ b.length = s.si.length / S.toNat ∧
        ∀ m, m < s.si.length / S.toNat → (b[m]? = some true ↔
          (∑ i ∈ Finset.Ico (S.toNat / 2) S.toNat, (s.si.getD (m * S.toNat + i) Sample.zero).value) /
              ((S.toNat - S.toNat / 2 : Nat) : ℝ) <
            (∑ i ∈ Finset.range (S.toNat / 2), (s.si.getD (m * S.toNat + i) Sample.zero).value) /
              ((S.toNat / 2 : Nat) : ℝ))) ∧
  (decode 0x00000035#32 = .ok .amiDem ∧
    ∀ (s : State) (S : Word), s.sps = some S → 1 ≤ S.toNat → 0 ≤ s.thr → s.si.length % S.toNat = 0 →
      ∃ b, exec .amiDem s = .next { s with bo := [b], status := 0x100#32 } ∧ b.length = s.si.length / S.toNat ∧
        ∀ m, m < s.si.length / S.toNat → (b[m]? = some true ↔
          (s.thr : ℝ) < (∑ i ∈ Finset.range S.toNat, |(s.si.getD (m * S.toNat + i) Sample.zero).value|) / (S.toNat : ℝ)))

/-- R169: for each line code, DEM on MOD's signal, with the same S (and THR < A for AMI), gives the bits back; `u` is
any state whose SI is the signal. -/
def Obligations.LineRoundTrip : Prop :=
  ∀ (s : State) (S : Word) (A : ℚ), s.sps = some S → s.amp = some A → 0 < A → positiveOk s.fs →
    (1 ≤ S.toNat → ∃ t, exec .nrzMod s = .next t ∧ ∀ u : State, u.sps = some S → u.si = t.so →
      exec .nrzDem u = .next { u with bo := [s.bi], status := 0x100#32 }) ∧
    (2 ≤ S.toNat → ∃ t, exec .manMod s = .next t ∧ ∀ u : State, u.sps = some S → u.si = t.so →
      exec .manDem u = .next { u with bo := [s.bi], status := 0x100#32 }) ∧
    (1 ≤ S.toNat → ∃ t, exec .amiMod s = .next t ∧ ∀ u : State, u.sps = some S → u.si = t.so →
      0 ≤ u.thr → u.thr < A → exec .amiDem u = .next { u with bo := [s.bi], status := 0x100#32 })

/-! ## LineCoder and CarrierModulator: checks and truncation -/

/-- R160, R162, R180, R182, R245, R248: where a register check of a MOD or DEM command fails (unset, or out of range),
the command is a ConfigurationError with empty outputs. Where all pass, a MOD command ends with OK, and a DEM command
raises TruncationError, and delivers no bit, exactly where the length of SI is no multiple of S; the empty signal
gives one empty packet. -/
def Obligations.SignalChecksAndTruncation : Prop :=
  ((∀ (i : Instr) (s : State), i ∈ modCommands ++ demCommands → ¬ signalRegsOk i s →
      exec i s = .next { s.clearOwned (ownedBy i) with status := 0x101#32 }) ∧
    (∀ (i : Instr) (s : State), i ∈ modCommands → signalRegsOk i s →
      ∃ x t, exec i s = .next { s with so := x, tO := t, status := 0x100#32 })) ∧
  (∀ (i : Instr) (s : State) (S : Word), i ∈ demCommands → signalRegsOk i s → s.sps = some S →
      (s.si.length % S.toNat ≠ 0 → exec i s = .next { s with bo := [], status := 0x105#32 }) ∧
      (s.si.length % S.toNat = 0 → ∃ b, exec i s = .next { s with bo := [b], status := 0x100#32 }) ∧
      (s.si = [] → exec i s = .next { s with bo := [[]], status := 0x100#32 }))

/-! ## CarrierModulator -/

/-- R180, R181, R184, R187, R190, R191, R192: the sample at index j of symbol m, at the phase ph(f) = 2 pi f j / FS:
ASK.MOD writes A sin(ph(FC)) for a one and 0 for a zero; FSK.MOD A sin(ph(FHI)) for a one and A sin(ph(FLO)) for a
zero; QAM.MOD I cos(ph(FC)) - Q sin(ph(FC)), where (I, Q) is A times the point of the m-th group of 3 bits, the last
group completed with zeros, for every QAM_MAP (log 6). The points of every legal map are the four (+-1, +-1), the two
(+-2, 0) and the two (0, +-2), one for each group; the default map, the one after reset (log 6), is the table of R191.
-/
def Obligations.CarrierModulators : Prop :=
  (decode 0x00000040#32 = .ok .askMod ∧
    ∀ (s : State) (S : Word) (A F f : ℚ), s.sps = some S → 1 ≤ S.toNat → s.amp = some A → 0 < A → s.fs = some F → 0 < F →
      s.fc = some f →
      ∃ x, exec .askMod s = .next
          { s with so := x, tO := (List.range x.length).map fun (j : Nat) => (j : ℚ) / F, status := 0x100#32 } ∧
        x.length = s.bi.length * S.toNat ∧
        ∀ m i, m < s.bi.length → i < S.toNat → (x.getD (m * S.toNat + i) Sample.zero).value =
          if s.bi.getD m false then
            (A : ℝ) * Real.sin (2 * Real.pi * (f : ℝ) * ((m * S.toNat + i : Nat) : ℝ) / (F : ℝ)) else 0) ∧
  (decode 0x00000042#32 = .ok .fskMod ∧
    ∀ (s : State) (S : Word) (A F lo hi : ℚ), s.sps = some S → 1 ≤ S.toNat → s.amp = some A → 0 < A → s.fs = some F →
      0 < F → s.flo = some lo → s.fhi = some hi →
      ∃ x, exec .fskMod s = .next
          { s with so := x, tO := (List.range x.length).map fun (j : Nat) => (j : ℚ) / F, status := 0x100#32 } ∧
        x.length = s.bi.length * S.toNat ∧
        ∀ m i, m < s.bi.length → i < S.toNat → (x.getD (m * S.toNat + i) Sample.zero).value =
          (A : ℝ) * Real.sin (2 * Real.pi * ((if s.bi.getD m false then hi else lo : ℚ) : ℝ) *
            ((m * S.toNat + i : Nat) : ℝ) / (F : ℝ))) ∧
  (decode 0x00000044#32 = .ok .qamMod ∧
    ∀ (s : State) (S : Word) (A F f : ℚ), s.sps = some S → 1 ≤ S.toNat → s.amp = some A → 0 < A → s.fs = some F → 0 < F →
      s.fc = some f →
      ∃ x, exec .qamMod s = .next
          { s with so := x, tO := (List.range x.length).map fun (j : Nat) => (j : ℚ) / F, status := 0x100#32 } ∧
        x.length = (s.bi.length + 2) / 3 * S.toNat ∧
        ∀ m i v, m < (s.bi.length + 2) / 3 → i < S.toNat →
          v = 4 * bitVal (s.bi.getD (3 * m) false) + 2 * bitVal (s.bi.getD (3 * m + 1) false)
            + bitVal (s.bi.getD (3 * m + 2) false) →
          (x.getD (m * S.toNat + i) Sample.zero).value =
            (A : ℝ) * (qamI (qamPointOf s.qamMap v) : ℝ) *
                Real.cos (2 * Real.pi * (f : ℝ) * ((m * S.toNat + i : Nat) : ℝ) / (F : ℝ)) -
              (A : ℝ) * (qamQ (qamPointOf s.qamMap v) : ℝ) *
                Real.sin (2 * Real.pi * (f : ℝ) * ((m * S.toNat + i : Nat) : ℝ) / (F : ℝ))) ∧
  ((∀ map : QamMap, qamMapLegal map = true →
      (∀ p : ℚ × ℚ, (∃ v, v ≤ 7 ∧ p = (qamI (qamPointOf map v), qamQ (qamPointOf map v))) ↔
        p ∈ [(1, 1), (1, -1), (-1, 1), (-1, -1), (2, 0), (-2, 0), (0, 2), (0, -2)]) ∧
      (∀ v w, v ≤ 7 → w ≤ 7 → qamI (qamPointOf map v) = qamI (qamPointOf map w) →
        qamQ (qamPointOf map v) = qamQ (qamPointOf map w) → v = w)) ∧
    State.reset.qamMap = qamMapDefault ∧
    ((List.range 8).map fun v => (qamI (qamPointOf qamMapDefault v), qamQ (qamPointOf qamMapDefault v))) =
      [(-1, -1), (-1, 1), (1, -1), (1, 1), (-2, 0), (0, 2), (0, -2), (2, 0)])

/-- R182, R185: ASK.DEM delivers 1 exactly where the mean square of the window exceeds THR. -/
def Obligations.AskDemodulates : Prop :=
  decode 0x00000041#32 = .ok .askDem ∧
  ∀ (s : State) (S : Word), s.sps = some S → 1 ≤ S.toNat → 0 ≤ s.thr → s.si.length % S.toNat = 0 →
    ∃ b, exec .askDem s = .next { s with bo := [b], status := 0x100#32 } ∧ b.length = s.si.length / S.toNat ∧
      ∀ m, m < s.si.length / S.toNat → (b[m]? = some true ↔
        (s.thr : ℝ) < (∑ i ∈ Finset.range S.toNat, (s.si.getD (m * S.toNat + i) Sample.zero).value ^ 2) / (S.toNat : ℝ))

/-- R182, R186, R188, R189: FSK.DEM delivers 1 exactly where the frequency of the smallest bin of greatest power among
bins 0 to floor(S/2) is strictly nearer to FHI than to FLO. The discrete Fourier transform behind the power of a bin,
and that bin k stands for the frequency k FS / S, are PRESUMED: the spec has them from general knowledge (R186, G2,
log 11). -/
def Obligations.FskDemodulates : Prop :=
  decode 0x00000043#32 = .ok .fskDem ∧
  ∀ (s : State) (S : Word) (F lo hi : ℚ), s.sps = some S → 1 ≤ S.toNat → s.fs = some F → 0 < F → s.flo = some lo →
    s.fhi = some hi → s.si.length % S.toNat = 0 →
    ∃ b, exec .fskDem s = .next { s with bo := [b], status := 0x100#32 } ∧ b.length = s.si.length / S.toNat ∧
      ∀ (m : Nat) (P : Nat → ℝ), m < s.si.length / S.toNat →
        (∀ k, P k =
          (∑ i ∈ Finset.range S.toNat, (s.si.getD (m * S.toNat + i) Sample.zero).value *
            Real.cos (2 * Real.pi * (i : ℝ) * (k : ℝ) / (S.toNat : ℝ))) ^ 2 +
          (∑ i ∈ Finset.range S.toNat, (s.si.getD (m * S.toNat + i) Sample.zero).value *
            Real.sin (2 * Real.pi * (i : ℝ) * (k : ℝ) / (S.toNat : ℝ))) ^ 2) →
        ∃ kmax, kmax ≤ S.toNat / 2 ∧ (∀ k, k ≤ S.toNat / 2 → P k ≤ P kmax) ∧ (∀ k, k < kmax → P k < P kmax) ∧
          (b[m]? = some true ↔ |(kmax : ℚ) * F / (S.toNat : ℚ) - hi| < |(kmax : ℚ) * F / (S.toNat : ℚ) - lo|)

/-- R182, R193, R194: QAM.DEM delivers for every window the 3 bits of the smallest group value whose point is nearest
to the estimated (Ie, Qe). It holds for every QAM_MAP (log 6). -/
def Obligations.QamDemodulates : Prop :=
  decode 0x00000045#32 = .ok .qamDem ∧
  ∀ (s : State) (S : Word) (A F f : ℚ), s.sps = some S → 1 ≤ S.toNat → s.amp = some A → 0 < A → s.fs = some F → 0 < F →
    s.fc = some f → s.si.length % S.toNat = 0 →
    ∃ b, exec .qamDem s = .next { s with bo := [b], status := 0x100#32 } ∧ b.length = 3 * (s.si.length / S.toNat) ∧
      ∀ (m : Nat) (Ie Qe : ℝ) (dist : Nat → ℝ), m < s.si.length / S.toNat →
        Ie = 2 * ((∑ i ∈ Finset.range S.toNat, (s.si.getD (m * S.toNat + i) Sample.zero).value *
          Real.cos (2 * Real.pi * (f : ℝ) * ((m * S.toNat + i : Nat) : ℝ) / (F : ℝ))) / (S.toNat : ℝ)) →
        Qe = -2 * ((∑ i ∈ Finset.range S.toNat, (s.si.getD (m * S.toNat + i) Sample.zero).value *
          Real.sin (2 * Real.pi * (f : ℝ) * ((m * S.toNat + i : Nat) : ℝ) / (F : ℝ))) / (S.toNat : ℝ)) →
        (∀ v, dist v = (Ie - (A : ℝ) * (qamI (qamPointOf s.qamMap v) : ℝ)) ^ 2 +
          (Qe - (A : ℝ) * (qamQ (qamPointOf s.qamMap v) : ℝ)) ^ 2) →
        ∃ v, v ≤ 7 ∧ (∀ u, u ≤ 7 → dist v ≤ dist u) ∧ (∀ u, u < v → dist v < dist u) ∧
          (b.drop (3 * m)).take 3 = be v 3

/-- R195 (ASK): with a whole number of cycles in a window and THR below half the square of A, ASK.DEM on ASK.MOD's
signal gives the bits back. -/
def Obligations.AskRoundTrip : Prop :=
  ∀ (s : State) (S : Word) (A F f : ℚ) (c : Nat), s.sps = some S → s.amp = some A → 0 < A → s.fs = some F → 0 < F →
    s.fc = some f → wholeCycles S.toNat f F c →
    ∃ t, exec .askMod s = .next t ∧ ∀ u : State, u.sps = some S → u.si = t.so → 0 ≤ u.thr → u.thr < A * A / 2 →
      exec .askDem u = .next { u with bo := [s.bi], status := 0x100#32 }

/-- R195 (FSK): with two different whole numbers of cycles in a window, FSK.DEM on FSK.MOD's signal gives the bits
back. -/
def Obligations.FskRoundTrip : Prop :=
  ∀ (s : State) (S : Word) (A F lo hi : ℚ) (c d : Nat), s.sps = some S → s.amp = some A → 0 < A → s.fs = some F →
    0 < F → s.flo = some lo → s.fhi = some hi → wholeCycles S.toNat lo F c → wholeCycles S.toNat hi F d → c ≠ d →
    ∃ t, exec .fskMod s = .next t ∧ ∀ u : State, u.sps = some S → u.fs = some F → u.flo = some lo →
      u.fhi = some hi → u.si = t.so →
      exec .fskDem u = .next { u with bo := [s.bi], status := 0x100#32 }

/-- R194, R195 (8-QAM), R287: with a whole number of cycles in a window and any one-to-one QAM_MAP, QAM.DEM on
QAM.MOD's signal gives the bits back, completed with zeros to a multiple of 3. -/
def Obligations.QamRoundTrip : Prop :=
  ∀ (s : State) (S : Word) (A F f : ℚ) (c : Nat), s.sps = some S → s.amp = some A → 0 < A → s.fs = some F → 0 < F →
    s.fc = some f → wholeCycles S.toNat f F c → qamMapLegal s.qamMap = true →
    ∃ t, exec .qamMod s = .next t ∧ ∀ u : State, u.sps = some S → u.amp = some A → u.fs = some F → u.fc = some f →
      u.qamMap = s.qamMap → u.si = t.so →
      exec .qamDem u = .next
        { u with bo := [s.bi ++ List.replicate (3 * ((s.bi.length + 2) / 3) - s.bi.length) false],
                 status := 0x100#32 }

/-! ## Pipeline -/

/-- R211: INJ.ONE flips bit INJPOS; with INJPOS unset, or no such bit, it is a ConfigurationError. -/
def Obligations.InjectOneBit : Prop :=
  decode 0x00000050#32 = .ok .injOne ∧
  (∀ (s : State) (k : Word) (p q : BitSeq) (x : Bool), s.injpos = some k → s.bi = p ++ x :: q → p.length = k.toNat →
    exec .injOne s = .next { s with bo := [p ++ (!x) :: q], status := 0x100#32 }) ∧
  (∀ (s : State) (k : Word), s.injpos = some k → s.bi.length ≤ k.toNat →
    exec .injOne s = .next { s with bo := [], status := 0x101#32 }) ∧
  (∀ s : State, s.injpos = none → exec .injOne s = .next { s with bo := [], status := 0x101#32 })

/-- R212, R213: INJ.RND exchanges BI with a mask of as many bits and at most INJMAX ones, whatever the free draw is;
with INJMAX unset it is a ConfigurationError. The model's form of the draw (log 5): the mask is made of a free
sequence of wishes for the present count of draws, cut to INJMAX ones; a mask made so of any wishes has their length
and at most k ones, and every mask with at most k ones is the mask of some wishes (of itself). -/
def Obligations.InjectBoundedBits : Prop :=
  (decode 0x00000051#32 = .ok .injRnd ∧
    (∀ (s : State) (k : Word) (e : BitSeq), s.injmax = some k → e = drawMask s.draws k.toNat s.bi.length →
      e.length = s.bi.length ∧ popcount e ≤ k.toNat ∧
      exec .injRnd s = .next { s with bo := [xorBits s.bi e], status := 0x100#32, draws := s.draws + 1 }) ∧
    (∀ d k n : Nat, drawMask d k n = keepOnes k ((List.range n).map fun i => Config.flipWish d i)) ∧
    (∀ s : State, s.injmax = none → exec .injRnd s = .next { s with bo := [], status := 0x101#32 })) ∧
  ((∀ (k : Nat) (e : BitSeq), (keepOnes k e).length = e.length ∧ popcount (keepOnes k e) ≤ k) ∧
    (∀ (k : Nat) (e : BitSeq), popcount e ≤ k → keepOnes k e = e))

/-- R22, R23: a CFG value is accepted exactly where it is legal, and each field is read from its bits; DET is [DET0,
DET1] without the NONE entries. -/
def Obligations.CfgFieldsAndLegality : Prop :=
  (∀ w : Word, (∃ c, readCfg w = some c) ↔ cfgLegal w) ∧
  (∀ (w : Word) (c : CfgFields), readCfg w = some c →
    framingCode c.framing = field w 0 0 ∧ c.det = [field w 2 1, field w 4 3].filterMap detOfCode ∧
    c.ham = w.getLsbD 5 ∧ lineCodeNumber c.line = field w 7 6 ∧ carrierCodeNumber c.carr = field w 9 8 ∧
    rxSourceCode c.rxsrc = field w 10 10 ∧ injectionCode c.inj = field w 12 11)

/-- R221, R223, R226: the protected chunk has plen(d) bits; plen and alen grow by at least 8 when d, a multiple of 8,
grows by 8, so both are strictly increasing over multiples of 8; dlen(L) is the d of 8, 16, up to MAXPL with alen(d) =
L, where there is one. -/
def Obligations.LengthsAndInference : Prop :=
  ((∀ (c : CfgFields) (ch : BitSeq), (protect c ch).length = plen c ch.length) ∧
    (∀ (c : CfgFields) (d : Nat), d % 8 = 0 →
      plen c d + 8 ≤ plen c (d + 8) ∧ alen c d + 8 ≤ alen c (d + 8) ∧ plen c d ≤ alen c d)) ∧
  (∀ (c : CfgFields) (M L d : Nat), M % 8 = 0 →
      (dlen c M L = some d ↔ 8 ≤ d ∧ d ≤ M ∧ d % 8 = 0 ∧ alen c d = L))

/-- R222, R223, R229, R118, R221: RX's unprotect undoes TX's protect and its ALIGN pad, every check passing; with
Hamming on, also after one bit of the codeword was flipped, which is reported as corrected. Both are written out for
the five detection lists, with Hamming on and off: protect appends the trailer of DET0 first, then that of DET1,
CRC-32 after padding to whole bytes, and Hamming encodes the whole last; unprotect takes the plen(d) bits, Hamming
decodes first, then checks and strips DET1, then DET0, each trailer with its pad, and reports the decoder's flags. -/
def Obligations.UnprotectInvertsProtect : Prop :=
  ∀ (c : CfgFields) (ch : BitSeq),
    unprotect c (padz (protect c ch)) ch.length = ⟨ch, List.replicate c.det.length true, false, false⟩ ∧
    (c.ham = true → ∀ p, p < plen c ch.length →
      unprotect c (flipBit (padz (protect c ch)) p) ch.length =
        ⟨ch, List.replicate c.det.length true, true, false⟩) ∧
    (∀ y z p q : BitSeq, y = ch ++ [decide (popcount ch % 2 = 1)] →
      z = padz ch ++ be (crc32 (bytesOf (padz ch))).toNat 32 →
      p = padz y ++ be (crc32 (bytesOf (padz y))).toNat 32 → q = z ++ [decide (popcount z % 2 = 1)] →
      (c.det = [] → protect c ch = if c.ham then hammingEncode ch else ch) ∧
      (c.det = [.parity] → protect c ch = if c.ham then hammingEncode y else y) ∧
      (c.det = [.crc32] → protect c ch = if c.ham then hammingEncode z else z) ∧
      (c.det = [.parity, .crc32] → protect c ch = if c.ham then hammingEncode p else p) ∧
      (c.det = [.crc32, .parity] → protect c ch = if c.ham then hammingEncode q else q)) ∧
    (∀ (d n : Nat) (w y : BitSeq), n = plen c d → y = (if c.ham then (hammingDecode (w.take n)).data else w.take n) →
      (c.det = [] → n = (if c.ham then hn d else d) ∧ (unprotect c w d).payload = y ∧ (unprotect c w d).checks = []) ∧
      (c.det = [.parity] → n = (if c.ham then hn (d + 1) else d + 1) ∧ (unprotect c w d).payload = y.take d ∧
        (unprotect c w d).checks = [checkParity y]) ∧
      (c.det = [.crc32] → n = (if c.ham then hn (pad8 d + 32) else pad8 d + 32) ∧
        (unprotect c w d).payload = y.take d ∧ (unprotect c w d).checks = [checkCrc32 y]) ∧
      (c.det = [.parity, .crc32] → n = (if c.ham then hn (pad8 (d + 1) + 32) else pad8 (d + 1) + 32) ∧
        (unprotect c w d).payload = (y.take (d + 1)).take d ∧
        (unprotect c w d).checks = [checkCrc32 y, checkParity (y.take (d + 1))]) ∧
      (c.det = [.crc32, .parity] → n = (if c.ham then hn (pad8 d + 32 + 1) else pad8 d + 32 + 1) ∧
        (unprotect c w d).payload = (y.take (pad8 d + 32)).take d ∧
        (unprotect c w d).checks = [checkParity y, checkCrc32 (y.take (pad8 d + 32))]) ∧
      (unprotect c w d).corrected = (c.ham && (hammingDecode (w.take n)).corrected) ∧
      (unprotect c w d).failed = (c.ham && (hammingDecode (w.take n)).failed))

/-- R220, R214, R224: TX whose checks pass writes the frame stream F to BO and its two signals with their times; with
injection it writes the corrupted copy too, with its signals (the random mask is INJ.RND's, log 5); INJ = ONE with no bit INJPOS in F is a
ConfigurationError. -/
def Obligations.TxTransmits : Prop :=
  decode 0x00000058#32 = .ok .tx ∧
  ∀ (c : CfgFields) (s : State) (S : Word) (A F : ℚ), txReady c s → s.sps = some S → s.amp = some A → s.fs = some F →
    ∀ (fr : BitSeq) (line carr : BitSeq → List Sample) (time : List Sample → List ℚ), fr = frameStream c s →
      line = lineSignal c.line S.toNat A → carr = carrierSignal c.carr s S.toNat A F →
      time = (fun x => (List.range x.length).map fun (j : Nat) => (j : ℚ) / F) →
      (c.inj = .off → exec .tx s = .next
        { s with bo := [fr], sd := line fr, td := time (line fr), sc := carr fr, tc := time (carr fr),
                 sde := [], tde := [], sce := [], tce := [], status := 0x100#32 }) ∧
      (∀ k, c.inj = .one → s.injpos = some k → k.toNat < fr.length → exec .tx s = .next
        { s with bo := [fr, flipBit fr k.toNat], sd := line fr, td := time (line fr), sc := carr fr,
                 tc := time (carr fr), sde := line (flipBit fr k.toNat), tde := time (line (flipBit fr k.toNat)),
                 sce := carr (flipBit fr k.toNat), tce := time (carr (flipBit fr k.toNat)), status := 0x100#32 }) ∧
      (∀ k, c.inj = .one → s.injpos = some k → fr.length ≤ k.toNat → exec .tx s = .next
        { s.clearOwned .tx with status := 0x101#32 }) ∧
      (∀ k, c.inj = .rnd → s.injmax = some k → ∃ e : BitSeq, e = drawMask s.draws k.toNat fr.length ∧
        e.length = fr.length ∧ popcount e ≤ k.toNat ∧ exec .tx s = .next
          { s with bo := [fr, xorBits fr e], sd := line fr, td := time (line fr), sc := carr fr,
                   tc := time (carr fr), sde := line (xorBits fr e), tde := time (line (xorBits fr e)),
                   sce := carr (xorBits fr e), tce := time (carr (xorBits fr e)), status := 0x100#32,
                   draws := s.draws + 1 })

/-- R220: TX and RX whose checks do not all pass are ConfigurationErrors, all owned outputs empty, nothing else
changed. -/
def Obligations.PipelineChecks : Prop :=
  (∀ s : State, (¬ ∃ c, txReady c s) → exec .tx s = .next { s.clearOwned .tx with status := 0x101#32 }) ∧
  (∀ s : State, (¬ ∃ c, rxReady c s) → exec .rx s = .next { s with byo := [], bo := [], status := 0x101#32 })

/-- R230, R231, R214, R226, R242, R250: RX runs the selected DEM command's function on the selected signal, deframes
its bits by count or by stuffing, finds for each chunk the one length d with alen(d) bits and unprotects the chunk: it
delivers every payload and the bytes of all of them, good or bad; the flags gather the checks and the corrections, and
ERR names the earlier stage. Where the deframer finds no frames, or a chunk's length belongs to no d, RX is a
FramingError; a signal that is no whole number of windows is a TruncationError; nothing is delivered then. -/
def Obligations.RxReceives : Prop :=
  decode 0x00000059#32 = .ok .rx ∧
  (∀ (c : CfgFields) (s : State) (S : Word), rxReady c s → s.sps = some S →
    (rxSignal c s).length % S.toNat = 0 → exec (rxDemCommand c) { s with si := rxSignal c s } =
      .next { s with si := rxSignal c s, bo := [rxBits c s S.toNat], status := 0x100#32 }) ∧
  (∀ (c : CfgFields) (s : State) (S : Word), rxReady c s → s.sps = some S →
    (rxSignal c s).length % S.toNat = 0 → rxChunks c s (rxBits c s S.toNat) = none →
    exec .rx s = .next { s with byo := [], bo := [], status := 0x102#32 }) ∧
  (∀ (c : CfgFields) (s : State) (S : Word) (qs : List BitSeq), rxReady c s → s.sps = some S →
    (rxSignal c s).length % S.toNat = 0 → rxChunks c s (rxBits c s S.toNat) = some qs →
    (∃ q ∈ qs, ∀ d, ¬ chunkLength c s.maxpl.toNat q.length d) →
    exec .rx s = .next { s with byo := [], bo := [], status := 0x102#32 }) ∧
  (∀ (c : CfgFields) (s : State) (S : Word) (qs : List BitSeq) (us : List Unprotected), rxReady c s →
    s.sps = some S → (rxSignal c s).length % S.toNat = 0 → rxChunks c s (rxBits c s S.toNat) = some qs →
    List.Forall₂ (fun q u => ∃ d, chunkLength c s.maxpl.toNat q.length d ∧ u = unprotect c q d) qs us →
    ∃ t, exec .rx s = .next t ∧
      t = { s with byo := bytesOf (us.map Unprotected.payload).flatten, bo := us.map Unprotected.payload,
                   status := t.status } ∧
      (statusChk t.status = true ↔ (∃ u ∈ us, u.checks ≠ []) ∧ ∀ u ∈ us, ∀ k ∈ u.checks, k = true) ∧
      (statusDetfail t.status = true ↔ ∃ u ∈ us, false ∈ u.checks) ∧
      (statusCorrected t.status = true ↔ ∃ u ∈ us, u.corrected = true) ∧
      (statusCorrfail t.status = true ↔ ∃ u ∈ us, u.failed = true) ∧
      statusErr t.status = (if statusCorrfail t.status then 4 else if statusDetfail t.status then 3 else 0) ∧
      statusDone t.status = true ∧ t.status.extractLsb' 9 23 = 0#23) ∧
  (∀ (c : CfgFields) (s : State) (S : Word), rxReady c s → s.sps = some S →
    (rxSignal c s).length % S.toNat ≠ 0 → exec .rx s = .next { s with byo := [], bo := [], status := 0x105#32 })

/-- R230: the input buffer that CFG.RXSRC does not select has no effect on RX. -/
def Obligations.RxReadsOnlyItsSource : Prop :=
  ∀ (c : CfgFields) (s t : State) (x : List Sample), readCfg s.cfg = some c → exec .rx s = .next t →
    (c.rxsrc = .line → exec .rx { s with si2 := x } = .next { t with si2 := x }) ∧
    (c.rxsrc = .carrier → exec .rx { s with si := x } = .next { t with si := x })

/-- R232 (line): whatever message TX sends under a configuration that passes its checks, RX on the digital signal,
with the same configuration (INJ and RXSRC aside) and parameters and THR < A for AMI, delivers it with no error, and
CHK = 1 exactly where there is a check and a chunk. -/
def Obligations.PipelineRoundTripLine : Prop :=
  ∀ (c : CfgFields) (s : State) (A : ℚ), txReady c s → s.amp = some A →
    (c.inj = .one → ∀ k, s.injpos = some k → k.toNat < (frameStream c s).length) →
    ∃ t, exec .tx s = .next t ∧
      ∀ (u : State) (j : Injection), readCfg u.cfg = some { c with inj := j, rxsrc := .line } →
        sameParameters s u → (c.line = .ami → 0 ≤ u.thr ∧ u.thr < A) → u.si = t.sd →
        exec .rx u = .next
          { u with byo := s.byi, bo := splitBits (bitsOf s.byi) s.maxpl.toNat,
                   status := if c.det ≠ [] ∧ s.byi ≠ [] then 0x110#32 else 0x100#32 }

/-- R232 (carrier): the same for RX on the carrier signal, under the conditions of R195 and any one-to-one QAM_MAP. -/
def Obligations.PipelineRoundTripCarrier : Prop :=
  ∀ (c : CfgFields) (s : State) (S : Word) (A F : ℚ), txReady c s → s.sps = some S → s.amp = some A → s.fs = some F →
    (c.inj = .one → ∀ k, s.injpos = some k → k.toNat < (frameStream c s).length) →
    ∃ t, exec .tx s = .next t ∧
      ∀ (u : State) (j : Injection), readCfg u.cfg = some { c with inj := j, rxsrc := .carrier } →
        sameParameters s u → carrierInvertible c.carr u S.toNat A F → u.si2 = t.sc →
        exec .rx u = .next
          { u with byo := s.byi, bo := splitBits (bitsOf s.byi) s.maxpl.toNat,
                   status := if c.det ≠ [] ∧ s.byi ≠ [] then 0x110#32 else 0x100#32 }

/-! ## Invariants of every step -/

/-- R35, R58, R191, R224, R240: STATUS stays a word the spec allows, every output signal keeps a time axis of its own
length, QAM_MAP stays one-to-one. -/
def Obligations.StepKeepsLegal : Prop := ∀ s t : State, s.Legal → step s = .next t → t.Legal

/-- R44, R191: the state after reset obeys that invariant. -/
def Obligations.ResetIsLegal : Prop := State.reset.Legal

/-- R21, R39 (the two stops are the model's, log 9): a step stops exactly where the pending host action writes a word
to a real-valued register, writes a real number to an integer register other than STATUS, or copies a packet that BO
does not have. Every other step answers a next state: a write of the read-only STATUS, of a word or of a real number,
is ignored and is no stop, and so is a write of a number that is not implemented; with no action pending there is no
stop. -/
def Obligations.StepStopsOnlyOnUnsafeActions : Prop := ∀ s : State, stepSafe s ↔ ∃ t, step s = .next t
end

