-- ==== Sys2Proof/Laws/Bits.lean ====
section
/-! SUPPORT. Bit order and lengths: `be` and `val` are inverse, padding reaches the next multiple of 8. -/

namespace Sys2Proof.Machine

@[simp] theorem be_length (v n : Nat) : (be v n).length = n := by
  induction n with
  | zero => rfl
  | succ n ih => simp [be, ih]

/-- `be` gives the low bits of a number, so the bits above do not matter. -/
theorem be_mod (v n : Nat) : be (v % 2 ^ n) n = be v n := by
  have h : ∀ m, m ≤ n → be (v % 2 ^ n) m = be v m := by
    intro m
    induction m with
    | zero => intro _; rfl
    | succ m ih => intro hm; simp [be, Nat.testBit_mod_two_pow, ih (by omega), show m < n by omega]
  exact h n le_rfl

/-- `val` of one more leading bit. -/
theorem val_cons (x : Bool) (b : BitSeq) : val (x :: b) = bitVal x * 2 ^ b.length + val b := by
  have h : ∀ (b : BitSeq) (a : Nat),
      b.foldl (fun acc x => 2 * acc + bitVal x) a = a * 2 ^ b.length + b.foldl (fun acc x => 2 * acc + bitVal x) 0 := by
    intro b
    induction b with
    | nil => intro a; simp
    | cons y b ih => intro a; simp only [List.foldl_cons, List.length_cons]; rw [ih, ih (2 * 0 + bitVal y)]; ring
  unfold val
  rw [List.foldl_cons, h]
  simp

@[simp] theorem val_nil : val [] = 0 := rfl

theorem val_lt (b : BitSeq) : val b < 2 ^ b.length := by
  induction b with
  | nil => simp
  | cons x b ih =>
    rw [val_cons, List.length_cons, pow_succ]
    have : bitVal x ≤ 1 := by cases x <;> simp [bitVal]
    nlinarith [Nat.pos_of_ne_zero (pow_ne_zero b.length (two_ne_zero : (2 : Nat) ≠ 0))]

/-- `val(be(v, n)) = v` for a number of n bits. -/
theorem val_be (v n : Nat) : val (be v n) = v % 2 ^ n := by
  induction n with
  | zero => simp [be, Nat.mod_one]
  | succ n ih =>
    rw [be, val_cons, be_length, ih, Nat.mod_pow_succ, add_comm]
    have h2 : v / 2 ^ n % 2 = bitVal (v.testBit n) := by
      rw [Nat.testBit_eq_decide_div_mod_eq]
      have := Nat.mod_lt (v / 2 ^ n) (show 2 > 0 by omega)
      by_cases h : v / 2 ^ n % 2 = 1
      · simp [bitVal, h]
      · simp [bitVal, h]; omega
    rw [h2, mul_comm]

/-- `be(val(b), len(b)) = b` (R13). -/
theorem be_val (b : BitSeq) : be (val b) b.length = b := by
  induction b with
  | nil => rfl
  | cons x b ih =>
    have hb := val_lt b
    rw [List.length_cons, be, ← be_mod, val_cons]
    have h1 : (bitVal x * 2 ^ b.length + val b) % 2 ^ b.length = val b := by
      rw [mul_comm, Nat.mul_add_mod, Nat.mod_eq_of_lt hb]
    rw [h1, ih]
    congr 1
    cases x
    · simp [bitVal, Nat.testBit_lt_two_pow hb]
    · simp only [bitVal, if_true, one_mul]
      rw [Nat.testBit_two_pow_add_eq, Nat.testBit_lt_two_pow hb]; rfl

theorem ceilDiv_spec (n m : Nat) (h : 0 < m) : n ≤ m * ceilDiv n m ∧ m * ceilDiv n m < n + m := by
  unfold ceilDiv
  have h1 := Nat.div_add_mod (n + (m - 1)) m
  have h2 := Nat.mod_lt (n + (m - 1)) h
  constructor <;> omega

theorem pad8_spec (n : Nat) : n ≤ pad8 n ∧ pad8 n < n + 8 ∧ pad8 n % 8 = 0 := by
  have h := ceilDiv_spec n 8 (by omega)
  unfold pad8
  omega

@[simp] theorem zeros_length (n : Nat) : (zeros n).length = n := by simp [zeros]

@[simp] theorem padz_length (b : BitSeq) : (padz b).length = pad8 b.length := by
  have h := pad8_spec b.length
  simp [padz]; omega

theorem sub_length {α : Type} (b : List α) (i n : Nat) : (sub b i n).length = min n (b.length - i) := by
  simp [sub]

@[simp] theorem windows_length {α : Type} (x : List α) (S : Nat) : (windows x S).length = x.length / S := by
  simp [windows]

end Sys2Proof.Machine
end

