-- ==== Sys2Proof/Laws/State.lean ====
section
/-! SUPPORT. One lemma per field per update of State, true by rfl; and the fields after `clearOwned`. -/

namespace Sys2Proof.Machine

variable (s : State) (w : Word) (l : List BitSeq) (ys : List Byte) (x y : List Sample) (t tx ty : List ℚ)

/-! ## setStatus -/

@[simp] theorem State.setStatus_status : (s.setStatus w).status = w := rfl
@[simp] theorem State.setStatus_cfg : (s.setStatus w).cfg = s.cfg := rfl
@[simp] theorem State.setStatus_maxpl : (s.setStatus w).maxpl = s.maxpl := rfl
@[simp] theorem State.setStatus_sps : (s.setStatus w).sps = s.sps := rfl
@[simp] theorem State.setStatus_delim : (s.setStatus w).delim = s.delim := rfl
@[simp] theorem State.setStatus_esc : (s.setStatus w).esc = s.esc := rfl
@[simp] theorem State.setStatus_injpos : (s.setStatus w).injpos = s.injpos := rfl
@[simp] theorem State.setStatus_injmax : (s.setStatus w).injmax = s.injmax := rfl
@[simp] theorem State.setStatus_amp : (s.setStatus w).amp = s.amp := rfl
@[simp] theorem State.setStatus_fs : (s.setStatus w).fs = s.fs := rfl
@[simp] theorem State.setStatus_fc : (s.setStatus w).fc = s.fc := rfl
@[simp] theorem State.setStatus_flo : (s.setStatus w).flo = s.flo := rfl
@[simp] theorem State.setStatus_fhi : (s.setStatus w).fhi = s.fhi := rfl
@[simp] theorem State.setStatus_thr : (s.setStatus w).thr = s.thr := rfl
@[simp] theorem State.setStatus_byi : (s.setStatus w).byi = s.byi := rfl
@[simp] theorem State.setStatus_bi : (s.setStatus w).bi = s.bi := rfl
@[simp] theorem State.setStatus_si : (s.setStatus w).si = s.si := rfl
@[simp] theorem State.setStatus_si2 : (s.setStatus w).si2 = s.si2 := rfl
@[simp] theorem State.setStatus_byo : (s.setStatus w).byo = s.byo := rfl
@[simp] theorem State.setStatus_bo : (s.setStatus w).bo = s.bo := rfl
@[simp] theorem State.setStatus_so : (s.setStatus w).so = s.so := rfl
@[simp] theorem State.setStatus_tO : (s.setStatus w).tO = s.tO := rfl
@[simp] theorem State.setStatus_sd : (s.setStatus w).sd = s.sd := rfl
@[simp] theorem State.setStatus_td : (s.setStatus w).td = s.td := rfl
@[simp] theorem State.setStatus_sc : (s.setStatus w).sc = s.sc := rfl
@[simp] theorem State.setStatus_tc : (s.setStatus w).tc = s.tc := rfl
@[simp] theorem State.setStatus_sde : (s.setStatus w).sde = s.sde := rfl
@[simp] theorem State.setStatus_tde : (s.setStatus w).tde = s.tde := rfl
@[simp] theorem State.setStatus_sce : (s.setStatus w).sce = s.sce := rfl
@[simp] theorem State.setStatus_tce : (s.setStatus w).tce = s.tce := rfl
@[simp] theorem State.setStatus_hostq : (s.setStatus w).hostq = s.hostq := rfl
@[simp] theorem State.setStatus_rdata : (s.setStatus w).rdata = s.rdata := rfl
@[simp] theorem State.setStatus_epoch : (s.setStatus w).epoch = s.epoch := rfl
@[simp] theorem State.setStatus_draws : (s.setStatus w).draws = s.draws := rfl
@[simp] theorem State.setStatus_qamMap : (s.setStatus w).qamMap = s.qamMap := rfl

/-! ## putBo -/

@[simp] theorem State.putBo_status : (s.putBo l).status = s.status := rfl
@[simp] theorem State.putBo_cfg : (s.putBo l).cfg = s.cfg := rfl
@[simp] theorem State.putBo_maxpl : (s.putBo l).maxpl = s.maxpl := rfl
@[simp] theorem State.putBo_sps : (s.putBo l).sps = s.sps := rfl
@[simp] theorem State.putBo_delim : (s.putBo l).delim = s.delim := rfl
@[simp] theorem State.putBo_esc : (s.putBo l).esc = s.esc := rfl
@[simp] theorem State.putBo_injpos : (s.putBo l).injpos = s.injpos := rfl
@[simp] theorem State.putBo_injmax : (s.putBo l).injmax = s.injmax := rfl
@[simp] theorem State.putBo_amp : (s.putBo l).amp = s.amp := rfl
@[simp] theorem State.putBo_fs : (s.putBo l).fs = s.fs := rfl
@[simp] theorem State.putBo_fc : (s.putBo l).fc = s.fc := rfl
@[simp] theorem State.putBo_flo : (s.putBo l).flo = s.flo := rfl
@[simp] theorem State.putBo_fhi : (s.putBo l).fhi = s.fhi := rfl
@[simp] theorem State.putBo_thr : (s.putBo l).thr = s.thr := rfl
@[simp] theorem State.putBo_byi : (s.putBo l).byi = s.byi := rfl
@[simp] theorem State.putBo_bi : (s.putBo l).bi = s.bi := rfl
@[simp] theorem State.putBo_si : (s.putBo l).si = s.si := rfl
@[simp] theorem State.putBo_si2 : (s.putBo l).si2 = s.si2 := rfl
@[simp] theorem State.putBo_byo : (s.putBo l).byo = s.byo := rfl
@[simp] theorem State.putBo_bo : (s.putBo l).bo = l := rfl
@[simp] theorem State.putBo_so : (s.putBo l).so = s.so := rfl
@[simp] theorem State.putBo_tO : (s.putBo l).tO = s.tO := rfl
@[simp] theorem State.putBo_sd : (s.putBo l).sd = s.sd := rfl
@[simp] theorem State.putBo_td : (s.putBo l).td = s.td := rfl
@[simp] theorem State.putBo_sc : (s.putBo l).sc = s.sc := rfl
@[simp] theorem State.putBo_tc : (s.putBo l).tc = s.tc := rfl
@[simp] theorem State.putBo_sde : (s.putBo l).sde = s.sde := rfl
@[simp] theorem State.putBo_tde : (s.putBo l).tde = s.tde := rfl
@[simp] theorem State.putBo_sce : (s.putBo l).sce = s.sce := rfl
@[simp] theorem State.putBo_tce : (s.putBo l).tce = s.tce := rfl
@[simp] theorem State.putBo_hostq : (s.putBo l).hostq = s.hostq := rfl
@[simp] theorem State.putBo_rdata : (s.putBo l).rdata = s.rdata := rfl
@[simp] theorem State.putBo_epoch : (s.putBo l).epoch = s.epoch := rfl
@[simp] theorem State.putBo_draws : (s.putBo l).draws = s.draws := rfl
@[simp] theorem State.putBo_qamMap : (s.putBo l).qamMap = s.qamMap := rfl

/-! ## putByo -/

@[simp] theorem State.putByo_status : (s.putByo ys).status = s.status := rfl
@[simp] theorem State.putByo_cfg : (s.putByo ys).cfg = s.cfg := rfl
@[simp] theorem State.putByo_maxpl : (s.putByo ys).maxpl = s.maxpl := rfl
@[simp] theorem State.putByo_sps : (s.putByo ys).sps = s.sps := rfl
@[simp] theorem State.putByo_delim : (s.putByo ys).delim = s.delim := rfl
@[simp] theorem State.putByo_esc : (s.putByo ys).esc = s.esc := rfl
@[simp] theorem State.putByo_injpos : (s.putByo ys).injpos = s.injpos := rfl
@[simp] theorem State.putByo_injmax : (s.putByo ys).injmax = s.injmax := rfl
@[simp] theorem State.putByo_amp : (s.putByo ys).amp = s.amp := rfl
@[simp] theorem State.putByo_fs : (s.putByo ys).fs = s.fs := rfl
@[simp] theorem State.putByo_fc : (s.putByo ys).fc = s.fc := rfl
@[simp] theorem State.putByo_flo : (s.putByo ys).flo = s.flo := rfl
@[simp] theorem State.putByo_fhi : (s.putByo ys).fhi = s.fhi := rfl
@[simp] theorem State.putByo_thr : (s.putByo ys).thr = s.thr := rfl
@[simp] theorem State.putByo_byi : (s.putByo ys).byi = s.byi := rfl
@[simp] theorem State.putByo_bi : (s.putByo ys).bi = s.bi := rfl
@[simp] theorem State.putByo_si : (s.putByo ys).si = s.si := rfl
@[simp] theorem State.putByo_si2 : (s.putByo ys).si2 = s.si2 := rfl
@[simp] theorem State.putByo_byo : (s.putByo ys).byo = ys := rfl
@[simp] theorem State.putByo_bo : (s.putByo ys).bo = s.bo := rfl
@[simp] theorem State.putByo_so : (s.putByo ys).so = s.so := rfl
@[simp] theorem State.putByo_tO : (s.putByo ys).tO = s.tO := rfl
@[simp] theorem State.putByo_sd : (s.putByo ys).sd = s.sd := rfl
@[simp] theorem State.putByo_td : (s.putByo ys).td = s.td := rfl
@[simp] theorem State.putByo_sc : (s.putByo ys).sc = s.sc := rfl
@[simp] theorem State.putByo_tc : (s.putByo ys).tc = s.tc := rfl
@[simp] theorem State.putByo_sde : (s.putByo ys).sde = s.sde := rfl
@[simp] theorem State.putByo_tde : (s.putByo ys).tde = s.tde := rfl
@[simp] theorem State.putByo_sce : (s.putByo ys).sce = s.sce := rfl
@[simp] theorem State.putByo_tce : (s.putByo ys).tce = s.tce := rfl
@[simp] theorem State.putByo_hostq : (s.putByo ys).hostq = s.hostq := rfl
@[simp] theorem State.putByo_rdata : (s.putByo ys).rdata = s.rdata := rfl
@[simp] theorem State.putByo_epoch : (s.putByo ys).epoch = s.epoch := rfl
@[simp] theorem State.putByo_draws : (s.putByo ys).draws = s.draws := rfl
@[simp] theorem State.putByo_qamMap : (s.putByo ys).qamMap = s.qamMap := rfl

/-! ## putSo -/

@[simp] theorem State.putSo_status : (s.putSo x t).status = s.status := rfl
@[simp] theorem State.putSo_cfg : (s.putSo x t).cfg = s.cfg := rfl
@[simp] theorem State.putSo_maxpl : (s.putSo x t).maxpl = s.maxpl := rfl
@[simp] theorem State.putSo_sps : (s.putSo x t).sps = s.sps := rfl
@[simp] theorem State.putSo_delim : (s.putSo x t).delim = s.delim := rfl
@[simp] theorem State.putSo_esc : (s.putSo x t).esc = s.esc := rfl
@[simp] theorem State.putSo_injpos : (s.putSo x t).injpos = s.injpos := rfl
@[simp] theorem State.putSo_injmax : (s.putSo x t).injmax = s.injmax := rfl
@[simp] theorem State.putSo_amp : (s.putSo x t).amp = s.amp := rfl
@[simp] theorem State.putSo_fs : (s.putSo x t).fs = s.fs := rfl
@[simp] theorem State.putSo_fc : (s.putSo x t).fc = s.fc := rfl
@[simp] theorem State.putSo_flo : (s.putSo x t).flo = s.flo := rfl
@[simp] theorem State.putSo_fhi : (s.putSo x t).fhi = s.fhi := rfl
@[simp] theorem State.putSo_thr : (s.putSo x t).thr = s.thr := rfl
@[simp] theorem State.putSo_byi : (s.putSo x t).byi = s.byi := rfl
@[simp] theorem State.putSo_bi : (s.putSo x t).bi = s.bi := rfl
@[simp] theorem State.putSo_si : (s.putSo x t).si = s.si := rfl
@[simp] theorem State.putSo_si2 : (s.putSo x t).si2 = s.si2 := rfl
@[simp] theorem State.putSo_byo : (s.putSo x t).byo = s.byo := rfl
@[simp] theorem State.putSo_bo : (s.putSo x t).bo = s.bo := rfl
@[simp] theorem State.putSo_so : (s.putSo x t).so = x := rfl
@[simp] theorem State.putSo_tO : (s.putSo x t).tO = t := rfl
@[simp] theorem State.putSo_sd : (s.putSo x t).sd = s.sd := rfl
@[simp] theorem State.putSo_td : (s.putSo x t).td = s.td := rfl
@[simp] theorem State.putSo_sc : (s.putSo x t).sc = s.sc := rfl
@[simp] theorem State.putSo_tc : (s.putSo x t).tc = s.tc := rfl
@[simp] theorem State.putSo_sde : (s.putSo x t).sde = s.sde := rfl
@[simp] theorem State.putSo_tde : (s.putSo x t).tde = s.tde := rfl
@[simp] theorem State.putSo_sce : (s.putSo x t).sce = s.sce := rfl
@[simp] theorem State.putSo_tce : (s.putSo x t).tce = s.tce := rfl
@[simp] theorem State.putSo_hostq : (s.putSo x t).hostq = s.hostq := rfl
@[simp] theorem State.putSo_rdata : (s.putSo x t).rdata = s.rdata := rfl
@[simp] theorem State.putSo_epoch : (s.putSo x t).epoch = s.epoch := rfl
@[simp] theorem State.putSo_draws : (s.putSo x t).draws = s.draws := rfl
@[simp] theorem State.putSo_qamMap : (s.putSo x t).qamMap = s.qamMap := rfl

/-! ## putTxSignals -/

@[simp] theorem State.putTxSignals_status : (s.putTxSignals x tx y ty).status = s.status := rfl
@[simp] theorem State.putTxSignals_cfg : (s.putTxSignals x tx y ty).cfg = s.cfg := rfl
@[simp] theorem State.putTxSignals_maxpl : (s.putTxSignals x tx y ty).maxpl = s.maxpl := rfl
@[simp] theorem State.putTxSignals_sps : (s.putTxSignals x tx y ty).sps = s.sps := rfl
@[simp] theorem State.putTxSignals_delim : (s.putTxSignals x tx y ty).delim = s.delim := rfl
@[simp] theorem State.putTxSignals_esc : (s.putTxSignals x tx y ty).esc = s.esc := rfl
@[simp] theorem State.putTxSignals_injpos : (s.putTxSignals x tx y ty).injpos = s.injpos := rfl
@[simp] theorem State.putTxSignals_injmax : (s.putTxSignals x tx y ty).injmax = s.injmax := rfl
@[simp] theorem State.putTxSignals_amp : (s.putTxSignals x tx y ty).amp = s.amp := rfl
@[simp] theorem State.putTxSignals_fs : (s.putTxSignals x tx y ty).fs = s.fs := rfl
@[simp] theorem State.putTxSignals_fc : (s.putTxSignals x tx y ty).fc = s.fc := rfl
@[simp] theorem State.putTxSignals_flo : (s.putTxSignals x tx y ty).flo = s.flo := rfl
@[simp] theorem State.putTxSignals_fhi : (s.putTxSignals x tx y ty).fhi = s.fhi := rfl
@[simp] theorem State.putTxSignals_thr : (s.putTxSignals x tx y ty).thr = s.thr := rfl
@[simp] theorem State.putTxSignals_byi : (s.putTxSignals x tx y ty).byi = s.byi := rfl
@[simp] theorem State.putTxSignals_bi : (s.putTxSignals x tx y ty).bi = s.bi := rfl
@[simp] theorem State.putTxSignals_si : (s.putTxSignals x tx y ty).si = s.si := rfl
@[simp] theorem State.putTxSignals_si2 : (s.putTxSignals x tx y ty).si2 = s.si2 := rfl
@[simp] theorem State.putTxSignals_byo : (s.putTxSignals x tx y ty).byo = s.byo := rfl
@[simp] theorem State.putTxSignals_bo : (s.putTxSignals x tx y ty).bo = s.bo := rfl
@[simp] theorem State.putTxSignals_so : (s.putTxSignals x tx y ty).so = s.so := rfl
@[simp] theorem State.putTxSignals_tO : (s.putTxSignals x tx y ty).tO = s.tO := rfl
@[simp] theorem State.putTxSignals_sd : (s.putTxSignals x tx y ty).sd = x := rfl
@[simp] theorem State.putTxSignals_td : (s.putTxSignals x tx y ty).td = tx := rfl
@[simp] theorem State.putTxSignals_sc : (s.putTxSignals x tx y ty).sc = y := rfl
@[simp] theorem State.putTxSignals_tc : (s.putTxSignals x tx y ty).tc = ty := rfl
@[simp] theorem State.putTxSignals_sde : (s.putTxSignals x tx y ty).sde = s.sde := rfl
@[simp] theorem State.putTxSignals_tde : (s.putTxSignals x tx y ty).tde = s.tde := rfl
@[simp] theorem State.putTxSignals_sce : (s.putTxSignals x tx y ty).sce = s.sce := rfl
@[simp] theorem State.putTxSignals_tce : (s.putTxSignals x tx y ty).tce = s.tce := rfl
@[simp] theorem State.putTxSignals_hostq : (s.putTxSignals x tx y ty).hostq = s.hostq := rfl
@[simp] theorem State.putTxSignals_rdata : (s.putTxSignals x tx y ty).rdata = s.rdata := rfl
@[simp] theorem State.putTxSignals_epoch : (s.putTxSignals x tx y ty).epoch = s.epoch := rfl
@[simp] theorem State.putTxSignals_draws : (s.putTxSignals x tx y ty).draws = s.draws := rfl
@[simp] theorem State.putTxSignals_qamMap : (s.putTxSignals x tx y ty).qamMap = s.qamMap := rfl

/-! ## putTxErrorSignals -/

@[simp] theorem State.putTxErrorSignals_status : (s.putTxErrorSignals x tx y ty).status = s.status := rfl
@[simp] theorem State.putTxErrorSignals_cfg : (s.putTxErrorSignals x tx y ty).cfg = s.cfg := rfl
@[simp] theorem State.putTxErrorSignals_maxpl : (s.putTxErrorSignals x tx y ty).maxpl = s.maxpl := rfl
@[simp] theorem State.putTxErrorSignals_sps : (s.putTxErrorSignals x tx y ty).sps = s.sps := rfl
@[simp] theorem State.putTxErrorSignals_delim : (s.putTxErrorSignals x tx y ty).delim = s.delim := rfl
@[simp] theorem State.putTxErrorSignals_esc : (s.putTxErrorSignals x tx y ty).esc = s.esc := rfl
@[simp] theorem State.putTxErrorSignals_injpos : (s.putTxErrorSignals x tx y ty).injpos = s.injpos := rfl
@[simp] theorem State.putTxErrorSignals_injmax : (s.putTxErrorSignals x tx y ty).injmax = s.injmax := rfl
@[simp] theorem State.putTxErrorSignals_amp : (s.putTxErrorSignals x tx y ty).amp = s.amp := rfl
@[simp] theorem State.putTxErrorSignals_fs : (s.putTxErrorSignals x tx y ty).fs = s.fs := rfl
@[simp] theorem State.putTxErrorSignals_fc : (s.putTxErrorSignals x tx y ty).fc = s.fc := rfl
@[simp] theorem State.putTxErrorSignals_flo : (s.putTxErrorSignals x tx y ty).flo = s.flo := rfl
@[simp] theorem State.putTxErrorSignals_fhi : (s.putTxErrorSignals x tx y ty).fhi = s.fhi := rfl
@[simp] theorem State.putTxErrorSignals_thr : (s.putTxErrorSignals x tx y ty).thr = s.thr := rfl
@[simp] theorem State.putTxErrorSignals_byi : (s.putTxErrorSignals x tx y ty).byi = s.byi := rfl
@[simp] theorem State.putTxErrorSignals_bi : (s.putTxErrorSignals x tx y ty).bi = s.bi := rfl
@[simp] theorem State.putTxErrorSignals_si : (s.putTxErrorSignals x tx y ty).si = s.si := rfl
@[simp] theorem State.putTxErrorSignals_si2 : (s.putTxErrorSignals x tx y ty).si2 = s.si2 := rfl
@[simp] theorem State.putTxErrorSignals_byo : (s.putTxErrorSignals x tx y ty).byo = s.byo := rfl
@[simp] theorem State.putTxErrorSignals_bo : (s.putTxErrorSignals x tx y ty).bo = s.bo := rfl
@[simp] theorem State.putTxErrorSignals_so : (s.putTxErrorSignals x tx y ty).so = s.so := rfl
@[simp] theorem State.putTxErrorSignals_tO : (s.putTxErrorSignals x tx y ty).tO = s.tO := rfl
@[simp] theorem State.putTxErrorSignals_sd : (s.putTxErrorSignals x tx y ty).sd = s.sd := rfl
@[simp] theorem State.putTxErrorSignals_td : (s.putTxErrorSignals x tx y ty).td = s.td := rfl
@[simp] theorem State.putTxErrorSignals_sc : (s.putTxErrorSignals x tx y ty).sc = s.sc := rfl
@[simp] theorem State.putTxErrorSignals_tc : (s.putTxErrorSignals x tx y ty).tc = s.tc := rfl
@[simp] theorem State.putTxErrorSignals_sde : (s.putTxErrorSignals x tx y ty).sde = x := rfl
@[simp] theorem State.putTxErrorSignals_tde : (s.putTxErrorSignals x tx y ty).tde = tx := rfl
@[simp] theorem State.putTxErrorSignals_sce : (s.putTxErrorSignals x tx y ty).sce = y := rfl
@[simp] theorem State.putTxErrorSignals_tce : (s.putTxErrorSignals x tx y ty).tce = ty := rfl
@[simp] theorem State.putTxErrorSignals_hostq : (s.putTxErrorSignals x tx y ty).hostq = s.hostq := rfl
@[simp] theorem State.putTxErrorSignals_rdata : (s.putTxErrorSignals x tx y ty).rdata = s.rdata := rfl
@[simp] theorem State.putTxErrorSignals_epoch : (s.putTxErrorSignals x tx y ty).epoch = s.epoch := rfl
@[simp] theorem State.putTxErrorSignals_draws : (s.putTxErrorSignals x tx y ty).draws = s.draws := rfl
@[simp] theorem State.putTxErrorSignals_qamMap : (s.putTxErrorSignals x tx y ty).qamMap = s.qamMap := rfl

/-! ## countDraw -/

@[simp] theorem State.countDraw_status : (s.countDraw).status = s.status := rfl
@[simp] theorem State.countDraw_cfg : (s.countDraw).cfg = s.cfg := rfl
@[simp] theorem State.countDraw_maxpl : (s.countDraw).maxpl = s.maxpl := rfl
@[simp] theorem State.countDraw_sps : (s.countDraw).sps = s.sps := rfl
@[simp] theorem State.countDraw_delim : (s.countDraw).delim = s.delim := rfl
@[simp] theorem State.countDraw_esc : (s.countDraw).esc = s.esc := rfl
@[simp] theorem State.countDraw_injpos : (s.countDraw).injpos = s.injpos := rfl
@[simp] theorem State.countDraw_injmax : (s.countDraw).injmax = s.injmax := rfl
@[simp] theorem State.countDraw_amp : (s.countDraw).amp = s.amp := rfl
@[simp] theorem State.countDraw_fs : (s.countDraw).fs = s.fs := rfl
@[simp] theorem State.countDraw_fc : (s.countDraw).fc = s.fc := rfl
@[simp] theorem State.countDraw_flo : (s.countDraw).flo = s.flo := rfl
@[simp] theorem State.countDraw_fhi : (s.countDraw).fhi = s.fhi := rfl
@[simp] theorem State.countDraw_thr : (s.countDraw).thr = s.thr := rfl
@[simp] theorem State.countDraw_byi : (s.countDraw).byi = s.byi := rfl
@[simp] theorem State.countDraw_bi : (s.countDraw).bi = s.bi := rfl
@[simp] theorem State.countDraw_si : (s.countDraw).si = s.si := rfl
@[simp] theorem State.countDraw_si2 : (s.countDraw).si2 = s.si2 := rfl
@[simp] theorem State.countDraw_byo : (s.countDraw).byo = s.byo := rfl
@[simp] theorem State.countDraw_bo : (s.countDraw).bo = s.bo := rfl
@[simp] theorem State.countDraw_so : (s.countDraw).so = s.so := rfl
@[simp] theorem State.countDraw_tO : (s.countDraw).tO = s.tO := rfl
@[simp] theorem State.countDraw_sd : (s.countDraw).sd = s.sd := rfl
@[simp] theorem State.countDraw_td : (s.countDraw).td = s.td := rfl
@[simp] theorem State.countDraw_sc : (s.countDraw).sc = s.sc := rfl
@[simp] theorem State.countDraw_tc : (s.countDraw).tc = s.tc := rfl
@[simp] theorem State.countDraw_sde : (s.countDraw).sde = s.sde := rfl
@[simp] theorem State.countDraw_tde : (s.countDraw).tde = s.tde := rfl
@[simp] theorem State.countDraw_sce : (s.countDraw).sce = s.sce := rfl
@[simp] theorem State.countDraw_tce : (s.countDraw).tce = s.tce := rfl
@[simp] theorem State.countDraw_hostq : (s.countDraw).hostq = s.hostq := rfl
@[simp] theorem State.countDraw_rdata : (s.countDraw).rdata = s.rdata := rfl
@[simp] theorem State.countDraw_epoch : (s.countDraw).epoch = s.epoch := rfl
@[simp] theorem State.countDraw_draws : (s.countDraw).draws = s.draws + 1 := rfl
@[simp] theorem State.countDraw_qamMap : (s.countDraw).qamMap = s.qamMap := rfl

/-! ## tick -/

@[simp] theorem State.tick_status : (s.tick).status = s.status := rfl
@[simp] theorem State.tick_cfg : (s.tick).cfg = s.cfg := rfl
@[simp] theorem State.tick_maxpl : (s.tick).maxpl = s.maxpl := rfl
@[simp] theorem State.tick_sps : (s.tick).sps = s.sps := rfl
@[simp] theorem State.tick_delim : (s.tick).delim = s.delim := rfl
@[simp] theorem State.tick_esc : (s.tick).esc = s.esc := rfl
@[simp] theorem State.tick_injpos : (s.tick).injpos = s.injpos := rfl
@[simp] theorem State.tick_injmax : (s.tick).injmax = s.injmax := rfl
@[simp] theorem State.tick_amp : (s.tick).amp = s.amp := rfl
@[simp] theorem State.tick_fs : (s.tick).fs = s.fs := rfl
@[simp] theorem State.tick_fc : (s.tick).fc = s.fc := rfl
@[simp] theorem State.tick_flo : (s.tick).flo = s.flo := rfl
@[simp] theorem State.tick_fhi : (s.tick).fhi = s.fhi := rfl
@[simp] theorem State.tick_thr : (s.tick).thr = s.thr := rfl
@[simp] theorem State.tick_byi : (s.tick).byi = s.byi := rfl
@[simp] theorem State.tick_bi : (s.tick).bi = s.bi := rfl
@[simp] theorem State.tick_si : (s.tick).si = s.si := rfl
@[simp] theorem State.tick_si2 : (s.tick).si2 = s.si2 := rfl
@[simp] theorem State.tick_byo : (s.tick).byo = s.byo := rfl
@[simp] theorem State.tick_bo : (s.tick).bo = s.bo := rfl
@[simp] theorem State.tick_so : (s.tick).so = s.so := rfl
@[simp] theorem State.tick_tO : (s.tick).tO = s.tO := rfl
@[simp] theorem State.tick_sd : (s.tick).sd = s.sd := rfl
@[simp] theorem State.tick_td : (s.tick).td = s.td := rfl
@[simp] theorem State.tick_sc : (s.tick).sc = s.sc := rfl
@[simp] theorem State.tick_tc : (s.tick).tc = s.tc := rfl
@[simp] theorem State.tick_sde : (s.tick).sde = s.sde := rfl
@[simp] theorem State.tick_tde : (s.tick).tde = s.tde := rfl
@[simp] theorem State.tick_sce : (s.tick).sce = s.sce := rfl
@[simp] theorem State.tick_tce : (s.tick).tce = s.tce := rfl
@[simp] theorem State.tick_hostq : (s.tick).hostq = s.hostq := rfl
@[simp] theorem State.tick_rdata : (s.tick).rdata = s.rdata := rfl
@[simp] theorem State.tick_epoch : (s.tick).epoch = s.epoch + 1 := rfl
@[simp] theorem State.tick_draws : (s.tick).draws = s.draws := rfl
@[simp] theorem State.tick_qamMap : (s.tick).qamMap = s.qamMap := rfl

/-! ## clearOwned: what no command owns is unchanged -/

@[simp] theorem State.clearOwned_status (o : Owned) : (s.clearOwned o).status = s.status := by
  cases o <;> rfl
@[simp] theorem State.clearOwned_cfg (o : Owned) : (s.clearOwned o).cfg = s.cfg := by
  cases o <;> rfl
@[simp] theorem State.clearOwned_maxpl (o : Owned) : (s.clearOwned o).maxpl = s.maxpl := by
  cases o <;> rfl
@[simp] theorem State.clearOwned_sps (o : Owned) : (s.clearOwned o).sps = s.sps := by
  cases o <;> rfl
@[simp] theorem State.clearOwned_delim (o : Owned) : (s.clearOwned o).delim = s.delim := by
  cases o <;> rfl
@[simp] theorem State.clearOwned_esc (o : Owned) : (s.clearOwned o).esc = s.esc := by
  cases o <;> rfl
@[simp] theorem State.clearOwned_injpos (o : Owned) : (s.clearOwned o).injpos = s.injpos := by
  cases o <;> rfl
@[simp] theorem State.clearOwned_injmax (o : Owned) : (s.clearOwned o).injmax = s.injmax := by
  cases o <;> rfl
@[simp] theorem State.clearOwned_amp (o : Owned) : (s.clearOwned o).amp = s.amp := by
  cases o <;> rfl
@[simp] theorem State.clearOwned_fs (o : Owned) : (s.clearOwned o).fs = s.fs := by
  cases o <;> rfl
@[simp] theorem State.clearOwned_fc (o : Owned) : (s.clearOwned o).fc = s.fc := by
  cases o <;> rfl
@[simp] theorem State.clearOwned_flo (o : Owned) : (s.clearOwned o).flo = s.flo := by
  cases o <;> rfl
@[simp] theorem State.clearOwned_fhi (o : Owned) : (s.clearOwned o).fhi = s.fhi := by
  cases o <;> rfl
@[simp] theorem State.clearOwned_thr (o : Owned) : (s.clearOwned o).thr = s.thr := by
  cases o <;> rfl
@[simp] theorem State.clearOwned_byi (o : Owned) : (s.clearOwned o).byi = s.byi := by
  cases o <;> rfl
@[simp] theorem State.clearOwned_bi (o : Owned) : (s.clearOwned o).bi = s.bi := by
  cases o <;> rfl
@[simp] theorem State.clearOwned_si (o : Owned) : (s.clearOwned o).si = s.si := by
  cases o <;> rfl
@[simp] theorem State.clearOwned_si2 (o : Owned) : (s.clearOwned o).si2 = s.si2 := by
  cases o <;> rfl
@[simp] theorem State.clearOwned_hostq (o : Owned) : (s.clearOwned o).hostq = s.hostq := by
  cases o <;> rfl
@[simp] theorem State.clearOwned_rdata (o : Owned) : (s.clearOwned o).rdata = s.rdata := by
  cases o <;> rfl
@[simp] theorem State.clearOwned_epoch (o : Owned) : (s.clearOwned o).epoch = s.epoch := by
  cases o <;> rfl
@[simp] theorem State.clearOwned_draws (o : Owned) : (s.clearOwned o).draws = s.draws := by
  cases o <;> rfl
@[simp] theorem State.clearOwned_qamMap (o : Owned) : (s.clearOwned o).qamMap = s.qamMap := by
  cases o <;> rfl

end Sys2Proof.Machine
end

