-- ==== Sys2Proof/Laws/Ops.lean ====
section
/-! SUPPORT. What each shared operation can do, said once: ending a command, composing its parts, reading its operands,
taking a host action. Later proofs cite these and do not unfold the operations. -/

namespace Sys2Proof.Machine

/-! ## The STATUS words -/

@[simp] theorem statusWord_ok : statusWord .ok noFlags = 0x100#32 := rfl
@[simp] theorem statusWord_config : statusWord .config noFlags = 0x101#32 := rfl
@[simp] theorem statusWord_framing : statusWord .framing noFlags = 0x102#32 := rfl
@[simp] theorem statusWord_truncation : statusWord .truncation noFlags = 0x105#32 := rfl
@[simp] theorem statusWord_alignment : statusWord .alignment noFlags = 0x106#32 := rfl
@[simp] theorem statusWord_passed : statusWord .ok (checkFlags true) = 0x110#32 := rfl
@[simp] theorem statusWord_failed : statusWord .detection (checkFlags false) = 0x123#32 := rfl

/-! ## Ending a command -/

theorem State.complete_eq (e : Err) (f : Flags) (s : State) :
    s.complete e f = { s with status := statusWord e f } := rfl

theorem State.raise_eq (o : Owned) (e : Err) (s : State) :
    s.raise o e = { s.clearOwned o with status := statusWord e noFlags } := rfl

@[simp] theorem State.raise_status (o : Owned) (e : Err) (s : State) :
    (s.raise o e).status = statusWord e noFlags := rfl

@[simp] theorem State.finishBo_ok (l : List BitSeq) (s : State) :
    s.finishBo (.ok l) = { s with bo := l, status := 0x100#32 } := rfl

@[simp] theorem State.finishBo_error (e : Err) (s : State) :
    s.finishBo (.error e) = { s with bo := [], status := statusWord e noFlags } := rfl

@[simp] theorem State.finishSignal_ok (x : List Sample) (t : List ℚ) (s : State) :
    s.finishSignal (.ok (x, t)) = { s with so := x, tO := t, status := 0x100#32 } := rfl

@[simp] theorem State.finishSignal_error (e : Err) (s : State) :
    s.finishSignal (.error e) = { s with so := [], tO := [], status := statusWord e noFlags } := rfl

@[simp] theorem State.finishCheck_true (p : BitSeq) (s : State) :
    s.finishCheck p true = { s with bo := [p], status := 0x110#32 } := rfl

@[simp] theorem State.finishCheck_false (p : BitSeq) (s : State) :
    s.finishCheck p false = { s with bo := [p], status := 0x123#32 } := rfl

/-! ## Composing the parts of a command -/

@[simp] theorem andThen_ok {α β : Type} (x : α) (f : α → Except Err β) : andThen (.ok x) f = f x := rfl
@[simp] theorem andThen_error {α β : Type} (e : Err) (f : α → Except Err β) : andThen (.error e) f = .error e := rfl
@[simp] theorem orConfig_some {α : Type} (x : α) : orConfig (some x) = .ok x := rfl
@[simp] theorem orConfig_none {α : Type} : orConfig (none : Option α) = .error .config := rfl
@[simp] theorem orFraming_some {α : Type} (x : α) : orFraming (some x) = .ok x := rfl
@[simp] theorem orFraming_none {α : Type} : orFraming (none : Option α) = .error .framing := rfl

/-- A composition that answers has two parts that answer. -/
theorem andThen_eq_ok {α β : Type} {r : Except Err α} {f : α → Except Err β} {y : β} :
    andThen r f = .ok y ↔ ∃ x, r = .ok x ∧ f x = .ok y := by
  cases r <;> simp

/-- A composition fails in its first part or in its second. -/
theorem andThen_eq_error {α β : Type} {r : Except Err α} {f : α → Except Err β} {e : Err} :
    andThen r f = .error e ↔ r = .error e ∨ ∃ x, r = .ok x ∧ f x = .error e := by
  cases r <;> simp

theorem orConfig_eq_ok {α : Type} {r : Option α} {x : α} : orConfig r = .ok x ↔ r = some x := by
  cases r <;> simp

theorem orConfig_eq_error {α : Type} {r : Option α} {e : Err} : orConfig r = .error e ↔ r = none ∧ e = .config := by
  cases r <;> simp [eq_comm]

theorem orFraming_eq_ok {α : Type} {r : Option α} {x : α} : orFraming r = .ok x ↔ r = some x := by
  cases r <;> simp

theorem orFraming_eq_error {α : Type} {r : Option α} {e : Err} :
    orFraming r = .error e ↔ r = none ∧ e = .framing := by
  cases r <;> simp [eq_comm]

@[simp] theorem modulate_some (m : Modulator) (b : BitSeq) :
    modulate (some m) b = .ok (m.signal b, timeAxis m.fs (m.signal b).length) := rfl
@[simp] theorem modulate_none (b : BitSeq) : modulate none b = .error .config := rfl
@[simp] theorem demodulate_none (x : List Sample) : demodulate none x = .error .config := rfl

theorem demodulate_some (m : Demodulator) (x : List Sample) :
    demodulate (some m) x = if x.length % m.sps = 0 then .ok (m.bits x) else .error .truncation := rfl

/-! ## Reading operands -/

theorem readMaxpl_eq_some {s : State} {M : Nat} : readMaxpl s = some M ↔ s.maxpl.toNat = M ∧ 0 < M := by
  unfold readMaxpl
  split
  · simp; omega
  · simp; omega

theorem readMaxpl8_eq_some {s : State} {M : Nat} :
    readMaxpl8 s = some M ↔ s.maxpl.toNat = M ∧ 0 < M ∧ M % 8 = 0 := by
  unfold readMaxpl8
  split
  · simp; omega
  · simp; omega

theorem readSps_eq_some {least : Nat} {s : State} {S : Nat} :
    readSps least s = some S ↔ ∃ w, s.sps = some w ∧ w.toNat = S ∧ least ≤ S := by
  unfold readSps
  cases h : s.sps with
  | none => simp
  | some w =>
    simp only [Option.some.injEq]
    split
    · simp; omega
    · simp; omega

theorem readPositive_eq_some {r : Option ℚ} {q : ℚ} : readPositive r = some q ↔ r = some q ∧ 0 < q := by
  unfold readPositive
  cases r with
  | none => simp
  | some p => simp only [Option.some.injEq]; split <;> rename_i h <;> simp at h ⊢ <;> rintro rfl <;> exact h

theorem readThr_eq_some {s : State} {q : ℚ} : readThr s = some q ↔ s.thr = q ∧ 0 ≤ q := by
  unfold readThr
  split
  · rename_i h; simp; rintro rfl; exact h
  · rename_i h; simp at h; simp; rintro rfl; exact h

theorem readDelimEsc_eq_some {s : State} {d e : Byte} :
    readDelimEsc s = some (d, e) ↔ s.delim.extractLsb' 0 8 = d ∧ s.esc.extractLsb' 0 8 = e ∧ d ≠ e := by
  unfold readDelimEsc
  split
  · rename_i h; simp; rintro rfl rfl; exact h
  · rename_i h; simp; rintro rfl rfl; exact h

theorem readModRegs_eq_some {least : Nat} {s : State} {r : ModRegs} :
    readModRegs least s = some r ↔
      readSps least s = some r.sps ∧ readPositive s.amp = some r.amp ∧ readPositive s.fs = some r.fs := by
  unfold readModRegs
  split
  · rename_i h1 h2 h3; rw [h1, h2, h3]; cases r; simp
  · rename_i h; simp only [reduceCtorEq, false_iff]; rintro ⟨h1, h2, h3⟩; exact h _ _ _ h1 h2 h3

theorem readCarrierRegs_eq_some {s : State} {r : CarrierRegs} :
    readCarrierRegs s = some r ↔ readModRegs 1 s = some ⟨r.sps, r.amp, r.fs⟩ ∧ s.fc = some r.fc := by
  unfold readCarrierRegs
  split
  · rename_i m c h1 h2; rw [h1, h2]; cases r; cases m; simp [and_assoc]
  · rename_i h; simp only [reduceCtorEq, false_iff]; rintro ⟨h1, h2⟩; exact h _ _ h1 h2

theorem readFskModRegs_eq_some {s : State} {r : FskModRegs} :
    readFskModRegs s = some r ↔
      readModRegs 1 s = some ⟨r.sps, r.amp, r.fs⟩ ∧ s.flo = some r.flo ∧ s.fhi = some r.fhi := by
  unfold readFskModRegs
  split
  · rename_i m l h h1 h2 h3; rw [h1, h2, h3]; cases r; cases m; simp [and_assoc]
  · rename_i h; simp only [reduceCtorEq, false_iff]; rintro ⟨h1, h2, h3⟩; exact h _ _ _ h1 h2 h3

theorem readFskDemRegs_eq_some {s : State} {r : FskDemRegs} :
    readFskDemRegs s = some r ↔
      readSps 1 s = some r.sps ∧ readPositive s.fs = some r.fs ∧ s.flo = some r.flo ∧ s.fhi = some r.fhi := by
  unfold readFskDemRegs
  split
  · rename_i h1 h2 h3 h4; rw [h1, h2, h3, h4]; cases r; simp
  · rename_i h; simp only [reduceCtorEq, false_iff]; rintro ⟨h1, h2, h3, h4⟩; exact h _ _ _ _ h1 h2 h3 h4

theorem readThrRegs_eq_some {s : State} {r : ThrRegs} :
    readThrRegs s = some r ↔ readSps 1 s = some r.sps ∧ readThr s = some r.thr := by
  unfold readThrRegs
  split
  · rename_i h1 h2; rw [h1, h2]; cases r; simp
  · rename_i h; simp only [reduceCtorEq, false_iff]; rintro ⟨h1, h2⟩; exact h _ _ h1 h2

/-! ## Taking a host action -/

@[simp] theorem takeAction_idle {s : State} (h : s.hostq = []) : takeAction s = .next s := by
  unfold takeAction; rw [h]

theorem takeAction_cons {s : State} {a : HostAction} {rest : List HostAction} (h : s.hostq = a :: rest) :
    takeAction s = act a { s with hostq := rest } := by
  unfold takeAction; rw [h]

theorem issue_ok {w : Word} {i : Instr} (h : decode w = .ok i) (s : State) : issue w s = exec i s := by
  unfold issue; rw [h]

theorem issue_error {w : Word} {e : DecodeError} (h : decode w = .error e) (s : State) :
    issue w s = .next { s with status := 0x101#32 } := by
  unfold issue; rw [h]; rfl

end Sys2Proof.Machine
end

