-- ==== Sys2Proof/Laws/PerInstr.lean ====
section
/-! SUPPORT. Per-instruction laws: the encoding of each command (spec/30_encoding.md R70, R72). -/

namespace Sys2Proof.Laws

/-- A command is well-formed, its word is legal (ZERO field 0, OP in the map), and the word decodes to it. -/
def Encoding.Statement (i : Instr) : Prop :=
  i.wellFormed = true ∧ commandWordOk (encode i) = true ∧ decode (encode i) = .ok i

theorem Encoding.b2bits : Encoding.Statement .b2bits := ⟨rfl, rfl, rfl⟩
theorem Encoding.bits2b : Encoding.Statement .bits2b := ⟨rfl, rfl, rfl⟩
theorem Encoding.parAdd : Encoding.Statement .parAdd := ⟨rfl, rfl, rfl⟩
theorem Encoding.parChk : Encoding.Statement .parChk := ⟨rfl, rfl, rfl⟩
theorem Encoding.crcAdd : Encoding.Statement .crcAdd := ⟨rfl, rfl, rfl⟩
theorem Encoding.crcChk : Encoding.Statement .crcChk := ⟨rfl, rfl, rfl⟩
theorem Encoding.hamEnc : Encoding.Statement .hamEnc := ⟨rfl, rfl, rfl⟩
theorem Encoding.hamDec : Encoding.Statement .hamDec := ⟨rfl, rfl, rfl⟩
theorem Encoding.split : Encoding.Statement .split := ⟨rfl, rfl, rfl⟩
theorem Encoding.wrapCnt : Encoding.Statement .wrapCnt := ⟨rfl, rfl, rfl⟩
theorem Encoding.frmCnt : Encoding.Statement .frmCnt := ⟨rfl, rfl, rfl⟩
theorem Encoding.dfrCnt : Encoding.Statement .dfrCnt := ⟨rfl, rfl, rfl⟩
theorem Encoding.wrapStf : Encoding.Statement .wrapStf := ⟨rfl, rfl, rfl⟩
theorem Encoding.frmStf : Encoding.Statement .frmStf := ⟨rfl, rfl, rfl⟩
theorem Encoding.dfrStf : Encoding.Statement .dfrStf := ⟨rfl, rfl, rfl⟩
theorem Encoding.nrzMod : Encoding.Statement .nrzMod := ⟨rfl, rfl, rfl⟩
theorem Encoding.nrzDem : Encoding.Statement .nrzDem := ⟨rfl, rfl, rfl⟩
theorem Encoding.manMod : Encoding.Statement .manMod := ⟨rfl, rfl, rfl⟩
theorem Encoding.manDem : Encoding.Statement .manDem := ⟨rfl, rfl, rfl⟩
theorem Encoding.amiMod : Encoding.Statement .amiMod := ⟨rfl, rfl, rfl⟩
theorem Encoding.amiDem : Encoding.Statement .amiDem := ⟨rfl, rfl, rfl⟩
theorem Encoding.askMod : Encoding.Statement .askMod := ⟨rfl, rfl, rfl⟩
theorem Encoding.askDem : Encoding.Statement .askDem := ⟨rfl, rfl, rfl⟩
theorem Encoding.fskMod : Encoding.Statement .fskMod := ⟨rfl, rfl, rfl⟩
theorem Encoding.fskDem : Encoding.Statement .fskDem := ⟨rfl, rfl, rfl⟩
theorem Encoding.qamMod : Encoding.Statement .qamMod := ⟨rfl, rfl, rfl⟩
theorem Encoding.qamDem : Encoding.Statement .qamDem := ⟨rfl, rfl, rfl⟩
theorem Encoding.injOne : Encoding.Statement .injOne := ⟨rfl, rfl, rfl⟩
theorem Encoding.injRnd : Encoding.Statement .injRnd := ⟨rfl, rfl, rfl⟩
theorem Encoding.tx : Encoding.Statement .tx := ⟨rfl, rfl, rfl⟩
theorem Encoding.rx : Encoding.Statement .rx := ⟨rfl, rfl, rfl⟩

end Sys2Proof.Laws
end

