-- ==== Sys2Proof/Laws/SampleValue.lean ====
section
/-! SUPPORT. The arithmetic of samples computes the real numbers it stands for: one lemma per operation of
Machine/Sample.lean. -/

namespace Sys2Proof.Machine

@[simp] theorem Sample.value_ofRat (q : ℚ) : (Sample.ofRat q).value = q := by
  simp [Sample.value, Sample.ofRat]

@[simp] theorem Sample.value_zero : Sample.zero.value = 0 := by
  simp [Sample.zero]

theorem addTerm_value (t : Term) (us : List Term) :
    ((addTerm t us).map Term.value).sum = t.value + (us.map Term.value).sum := by
  induction us with
  | nil => simp [addTerm]
  | cons u us ih =>
    unfold addTerm
    split
    · simp
    · split
      · rename_i h
        have hm : t.value + u.value = ((t.amp + u.amp : ℚ) : ℝ) * Real.cos (2 * Real.pi * (t.turn : ℝ)) := by
          simp only [Term.value, h]; push_cast; ring
        split
        · rename_i h0
          simp [← add_assoc, hm, h0]
        · simp only [List.map_cons, List.sum_cons, ← add_assoc, hm]
          simp [Term.value]
      · simp [ih]; ring

@[simp] theorem Sample.value_add (x y : Sample) : (Sample.add x y).value = x.value + y.value := by
  have h : ∀ ts : List Term, ((ts.foldr addTerm y.terms).map Term.value).sum
      = (ts.map Term.value).sum + (y.terms.map Term.value).sum := by
    intro ts
    induction ts with
    | nil => simp
    | cons t ts ih => simp [addTerm_value, ih]; ring
  simp only [Sample.value, Sample.add, h]
  push_cast; ring

@[simp] theorem Sample.value_scale (q : ℚ) (x : Sample) : (Sample.scale q x).value = q * x.value := by
  unfold Sample.scale
  split
  · rename_i h; simp [h]
  · have h : ∀ ts : List Term, ((ts.map fun t => (⟨t.turn, q * t.amp⟩ : Term)).map Term.value).sum
        = q * (ts.map Term.value).sum := by
      intro ts
      induction ts with
      | nil => simp
      | cons t ts ih => simp only [List.map_cons, List.sum_cons, ih]; simp [Term.value]; ring
    simp only [Sample.value, h]
    push_cast; ring

@[simp] theorem Sample.value_neg (x : Sample) : (Sample.neg x).value = - x.value := by
  simp [Sample.neg]

@[simp] theorem Sample.value_diff (x y : Sample) : (Sample.diff x y).value = x.value - y.value := by
  simp [Sample.diff, sub_eq_add_neg]

@[simp] theorem cosQuarter_value (f : ℚ) : (cosQuarter f).value = Real.cos (2 * Real.pi * f) := by
  unfold cosQuarter
  split
  · rename_i h; simp [h]
  · split
    · rename_i h
      rw [Sample.value_ofRat, h]
      have : 2 * Real.pi * ((1 / 6 : ℚ) : ℝ) = Real.pi / 3 := by push_cast; ring
      rw [this, Real.cos_pi_div_three]; push_cast; ring
    · split
      · rename_i h
        rw [Sample.value_ofRat, h]
        have : 2 * Real.pi * ((1 / 4 : ℚ) : ℝ) = Real.pi / 2 := by push_cast; ring
        rw [this, Real.cos_pi_div_two]; simp
      · simp [Sample.value, Term.value]

@[simp] theorem cosHalf_value (f : ℚ) : (cosHalf f).value = Real.cos (2 * Real.pi * f) := by
  unfold cosHalf
  split
  · simp
  · rw [Sample.value_neg, cosQuarter_value]
    have : 2 * Real.pi * ((1 / 2 - f : ℚ) : ℝ) = Real.pi - 2 * Real.pi * f := by push_cast; ring
    rw [this, Real.cos_pi_sub]; ring

theorem cos_fracTurn (θ : ℚ) : Real.cos (2 * Real.pi * (fracTurn θ : ℚ)) = Real.cos (2 * Real.pi * θ) := by
  have : 2 * Real.pi * ((fracTurn θ : ℚ) : ℝ) = 2 * Real.pi * θ - (θ.floor : ℤ) * (2 * Real.pi) := by
    unfold fracTurn; push_cast; ring
  rw [this, Real.cos_sub_int_mul_two_pi]

@[simp] theorem cosTurn_value (θ : ℚ) : (cosTurn θ).value = Real.cos (2 * Real.pi * θ) := by
  unfold cosTurn
  split
  · rw [cosHalf_value, cos_fracTurn]
  · rw [cosHalf_value, ← cos_fracTurn θ]
    have : 2 * Real.pi * ((1 - fracTurn θ : ℚ) : ℝ) = 2 * Real.pi - 2 * Real.pi * (fracTurn θ : ℚ) := by
      push_cast; ring
    rw [this, Real.cos_two_pi_sub]

@[simp] theorem sinTurn_value (θ : ℚ) : (sinTurn θ).value = Real.sin (2 * Real.pi * θ) := by
  rw [sinTurn, cosTurn_value]
  have : 2 * Real.pi * ((θ - 1 / 4 : ℚ) : ℝ) = 2 * Real.pi * θ - Real.pi / 2 := by push_cast; ring
  rw [this, Real.cos_sub_pi_div_two]

theorem termMul_value (t u : Term) : (termMul t u).value = t.value * u.value := by
  simp only [termMul, Sample.value_scale, Sample.value_add, cosTurn_value, Term.value]
  push_cast
  rw [mul_add (2 * Real.pi), mul_sub (2 * Real.pi), Real.cos_add, Real.cos_sub]
  ring

theorem termTimes_value (t : Term) (y : Sample) : (termTimes t y).value = t.value * y.value := by
  have h : ∀ us : List Term,
      (us.foldr (fun u acc => Sample.add (termMul t u) acc) (Sample.scale (y.const * t.amp) (cosTurn t.turn))).value
        = t.value * ((y.const : ℝ) + (us.map Term.value).sum) := by
    intro us
    induction us with
    | nil => simp [Term.value]; ring
    | cons u us ih => simp only [List.foldr_cons, Sample.value_add, ih, termMul_value, List.map_cons, List.sum_cons]; ring
  exact h y.terms

@[simp] theorem Sample.value_mul (x y : Sample) : (Sample.mul x y).value = x.value * y.value := by
  have h : ∀ ts : List Term,
      (ts.foldr (fun t acc => Sample.add (termTimes t y) acc) (Sample.scale x.const y)).value
        = ((x.const : ℝ) + (ts.map Term.value).sum) * y.value := by
    intro ts
    induction ts with
    | nil => simp
    | cons t ts ih => simp only [List.foldr_cons, Sample.value_add, ih, termTimes_value, List.map_cons, List.sum_cons]; ring
  exact h x.terms

@[simp] theorem Sample.value_sq (x : Sample) : (Sample.sq x).value = x.value ^ 2 := by
  simp [Sample.sq, pow_two]

@[simp] theorem Sample.value_sum (xs : List Sample) : (Sample.sum xs).value = (xs.map Sample.value).sum := by
  induction xs with
  | nil => simp [Sample.sum]
  | cons x xs ih => simp only [Sample.sum, List.foldr_cons, Sample.value_add] at *; simp [ih]

@[simp] theorem Sample.value_mean (xs : List Sample) :
    (Sample.mean xs).value = (xs.map Sample.value).sum / xs.length := by
  simp [Sample.mean]; ring

end Sys2Proof.Machine
end

