-- ==== Sys2Proof/Laws/SampleOrder.lean ====
section
/-! SUPPORT. The order of samples is exact: `Sample.pos` and `Sample.lt` decide the order of the real numbers, and
`argMax`, `argMin` find the smallest index of a greatest, least element. -/

namespace Sys2Proof.Machine

open Polynomial

theorem integer_poly_embedding_bound {K : Type} [Field K] [Algebra ℚ K] [FiniteDimensional ℚ K]
    (v : K →ₐ[ℚ] ℂ) (g : K) (N : ℕ) (hN : 0 < N) (hgN : g ^ N = 1) (hdim : Module.finrank ℚ K ≤ N)
    (Q : ℤ[X]) (L : ℝ) (hL : 1 ≤ L) (hb : ∀ z : ℂ, z ^ N = 1 → ‖aeval z Q‖ ≤ L)
    (hne : aeval (v g) Q ≠ 0) : 1 ≤ ‖aeval (v g) Q‖ * L ^ N := by
  have hgint : IsIntegral ℤ g := ⟨X ^ N - 1, monic_X_pow_sub_C 1 hN.ne', by simp [hgN]⟩
  have hxint : IsIntegral ℤ (aeval g Q) := by
    rw [aeval_eq_sum_range]
    exact IsIntegral.sum _ fun i _ => (hgint.pow i).smul _
  have hσ : ∀ σ : K →ₐ[ℚ] ℂ, σ (aeval g Q) = aeval (σ g) Q := fun σ =>
    (Polynomial.aeval_algHom_apply (σ.restrictScalars ℤ) g Q).symm
  have hx0 : aeval g Q ≠ 0 := by
    intro h
    have hv := hσ v
    rw [h, map_zero] at hv
    exact hne hv.symm
  obtain ⟨m, hm⟩ : ∃ m : ℤ, algebraMap ℤ ℚ m = Algebra.norm ℚ (aeval g Q) :=
    IsIntegrallyClosed.isIntegral_iff.1 (Algebra.isIntegral_norm ℚ hxint)
  have hm0 : m ≠ 0 := by
    rintro rfl
    apply hx0
    rw [← Algebra.norm_eq_zero_iff (R := ℚ), ← hm, map_zero]
  have hprod := Algebra.norm_eq_prod_embeddings ℚ ℂ (aeval g Q)
  rw [← hm] at hprod
  have h1 : (1 : ℝ) ≤ ∏ σ : K →ₐ[ℚ] ℂ, ‖σ (aeval g Q)‖ := by
    rw [← norm_prod, ← hprod]
    simp only [eq_intCast, map_intCast, Complex.norm_intCast]
    exact_mod_cast Int.one_le_abs hm0
  have hcard : Fintype.card (K →ₐ[ℚ] ℂ) ≤ N := by rwa [AlgHom.card ℚ K ℂ]
  have hbd : ∀ σ : K →ₐ[ℚ] ℂ, ‖σ (aeval g Q)‖ ≤ L := by
    intro σ
    rw [hσ]
    exact hb _ (by rw [← map_pow, hgN, map_one])
  classical
  have hsplit := Finset.mul_prod_erase Finset.univ (fun σ : K →ₐ[ℚ] ℂ => ‖σ (aeval g Q)‖) (Finset.mem_univ v)
  calc (1 : ℝ) ≤ ‖v (aeval g Q)‖ * ∏ σ ∈ Finset.univ.erase v, ‖σ (aeval g Q)‖ := hsplit ▸ h1
    _ ≤ ‖aeval (v g) Q‖ * ∏ σ ∈ Finset.univ.erase v, L := by
        rw [hσ v]
        gcongr with σ
        exact hbd σ
    _ ≤ ‖aeval (v g) Q‖ * L ^ N := by
        rw [Finset.prod_const]
        gcongr
        exact Finset.card_erase_le.trans (by simpa using hcard)

theorem integer_poly_far_from_zero (N : ℕ) (hN : 0 < N) (Q : ℤ[X]) (ζ : ℂ) (hζ : ζ ^ N = 1) (L : ℝ)
    (hL : 1 ≤ L) (hb : ∀ z : ℂ, z ^ N = 1 → ‖aeval z Q‖ ≤ L) (hne : aeval ζ Q ≠ 0) :
    1 ≤ ‖aeval ζ Q‖ * L ^ N := by
  have hζQ : aeval ζ (X ^ N - 1 : ℚ[X]) = 0 := by simp [hζ]
  have hX : (X ^ N - 1 : ℚ[X]).Monic := monic_X_pow_sub_C 1 hN.ne'
  have hint : IsIntegral ℚ ζ := ⟨X ^ N - 1, hX, by simpa using hζQ⟩
  have hirr := minpoly.irreducible hint
  have : Fact (Irreducible (minpoly ℚ ζ)) := ⟨hirr⟩
  have hfd : FiniteDimensional ℚ (AdjoinRoot (minpoly ℚ ζ)) :=
    (AdjoinRoot.powerBasis hirr.ne_zero).finite
  have hdvd : minpoly ℚ ζ ∣ X ^ N - 1 := minpoly.dvd _ _ hζQ
  let v : AdjoinRoot (minpoly ℚ ζ) →ₐ[ℚ] ℂ := AdjoinRoot.liftAlgHom (minpoly ℚ ζ) (Algebra.ofId ℚ ℂ) ζ (minpoly.aeval ℚ ζ)
  have hv : v (AdjoinRoot.root _) = ζ := AdjoinRoot.liftAlgHom_root _ _ _ _
  have hg : (AdjoinRoot.root (minpoly ℚ ζ)) ^ N = 1 := by
    have h := AdjoinRoot.mk_eq_zero.2 hdvd
    rw [map_sub, map_pow, map_one, AdjoinRoot.mk_X] at h
    exact sub_eq_zero.1 h
  have hdim : Module.finrank ℚ (AdjoinRoot (minpoly ℚ ζ)) ≤ N := by
    rw [(AdjoinRoot.powerBasis hirr.ne_zero).finrank, AdjoinRoot.powerBasis_dim]
    exact (natDegree_le_of_dvd hdvd hX.ne_zero).trans (natDegree_X_pow_sub_C (r := 1)).le
  have h := integer_poly_embedding_bound v _ N hN hg hdim Q L hL hb (by rwa [hv])
  rwa [hv] at h

theorem arctanInv_cast (q m : ℕ) :
    ((arctanInv q m : ℚ) : ℝ)
      = ∑ j ∈ Finset.range m, (-1 : ℝ) ^ j * ((q : ℝ)⁻¹) ^ (2 * j + 1) / ((2 * j + 1 : ℕ) : ℝ) := by
  induction m with
  | zero => simp [arctanInv]
  | succ m ih =>
    rw [Finset.sum_range_succ, ← ih, arctanInv]
    rcases Nat.even_or_odd m with h | h
    · rw [if_pos (Nat.even_iff.1 h), h.neg_one_pow]
      push_cast; simp only [inv_pow, div_eq_mul_inv, mul_inv]; ring
    · rw [if_neg (by have := Nat.odd_iff.1 h; omega), h.neg_one_pow]
      push_cast; simp only [inv_pow, div_eq_mul_inv, mul_inv]; ring

theorem arctanInv_error (q m : ℕ) (hq : 5 ≤ q) :
    |((arctanInv q m : ℚ) : ℝ) - Real.arctan ((q : ℝ)⁻¹)| ≤ 1 / 4 * (1 / 25) ^ m := by
  have hq' : (5 : ℝ) ≤ q := by exact_mod_cast hq
  have hpos : (0 : ℝ) < (q : ℝ)⁻¹ := by positivity
  have hle : ((q : ℝ)⁻¹) ≤ 1 / 5 := by
    rw [inv_eq_one_div]; exact one_div_le_one_div_of_le (by norm_num) hq'
  have hs := (Real.hasSum_arctan (x := (q : ℝ)⁻¹) (by rw [Real.norm_eq_abs, abs_of_pos hpos]; linarith)).tendsto_sum_nat
  have hterm : ∀ n : ℕ, dist (∑ i ∈ Finset.range n, (-1 : ℝ) ^ i * ((q : ℝ)⁻¹) ^ (2 * i + 1) / ((2 * i + 1 : ℕ) : ℝ))
      (∑ i ∈ Finset.range (n + 1), (-1 : ℝ) ^ i * ((q : ℝ)⁻¹) ^ (2 * i + 1) / ((2 * i + 1 : ℕ) : ℝ)) ≤ 1 / 5 * (1 / 25) ^ n := by
    intro n
    rw [Finset.sum_range_succ, dist_self_add_right, norm_div, norm_mul, norm_pow, norm_pow, norm_neg, norm_one, one_pow,
      one_mul, Real.norm_eq_abs, abs_of_pos hpos]
    have h1 : ((q : ℝ)⁻¹) ^ (2 * n + 1) ≤ (1 / 5) ^ (2 * n + 1) := pow_le_pow_left₀ hpos.le hle _
    have h2 : ((1 : ℝ) / 5) ^ (2 * n + 1) = 1 / 5 * (1 / 25) ^ n := by
      rw [pow_succ, pow_mul]; norm_num; ring
    have h3 : (1 : ℝ) ≤ ‖((2 * n + 1 : ℕ) : ℝ)‖ := by
      rw [Real.norm_natCast]; exact_mod_cast Nat.le_add_left 1 (2 * n)
    calc ((q : ℝ)⁻¹) ^ (2 * n + 1) / ‖((2 * n + 1 : ℕ) : ℝ)‖ ≤ ((q : ℝ)⁻¹) ^ (2 * n + 1) :=
          div_le_self (by positivity) h3
      _ ≤ _ := h2 ▸ h1
  have h := dist_le_of_le_geometric_of_tendsto (1 / 25 : ℝ) (1 / 5) (by norm_num) hterm hs m
  rw [arctanInv_cast, ← Real.dist_eq]
  refine h.trans ?_
  have : (0 : ℝ) ≤ (1 / 25) ^ m := by positivity
  rw [div_le_iff₀ (by norm_num)]
  linarith

theorem piApprox_error (k : ℕ) : |((piApprox k : ℚ) : ℝ) - Real.pi| ≤ (1 / 2) ^ k := by
  set m := k / 4 + 3 with hm
  set p : ℚ := 16 * arctanInv 5 m - 4 * arctanInv 239 m with hp
  have h5 := arctanInv_error 5 m (by norm_num)
  have h239 := arctanInv_error 239 m (by norm_num)
  have hmachin := Real.four_mul_arctan_inv_5_sub_arctan_inv_239
  have hpow : ((1 : ℝ) / 25) ^ m ≤ (1 / 2) ^ k * (1 / 2) ^ 9 := by
    calc ((1 : ℝ) / 25) ^ m ≤ (1 / 16) ^ m := pow_le_pow_left₀ (by norm_num) (by norm_num) _
      _ = (1 / 2) ^ (4 * m) := by rw [pow_mul]; norm_num
      _ ≤ (1 / 2) ^ (k + 9) := pow_le_pow_of_le_one (by norm_num) (by norm_num) (by omega)
      _ = _ := pow_add _ _ _
  have hk : (0 : ℝ) < (1 / 2) ^ k := by positivity
  have hpe : |(p : ℝ) - Real.pi| ≤ (1 / 2) ^ k * (1 / 64) := by
    rw [hp, abs_le]
    push_cast at h5 h239 ⊢
    rw [abs_le] at h5 h239
    constructor <;> nlinarith [h5.1, h5.2, h239.1, h239.2]
  have hfl : |((piApprox k : ℚ) : ℝ) - p| ≤ (1 / 2) ^ k * (1 / 4) := by
    have h2 : (0 : ℚ) < 2 ^ (k + 2) := by positivity
    have ha : piApprox k ≤ p := by
      rw [piApprox, div_le_iff₀ h2]; exact Int.floor_le _
    have hb : p < piApprox k + 1 / 2 ^ (k + 2) := by
      rw [piApprox, ← add_div, lt_div_iff₀ h2]; exact Int.lt_floor_add_one _
    have ha' : ((piApprox k : ℚ) : ℝ) ≤ p := by exact_mod_cast ha
    have hb' : (p : ℝ) < ((piApprox k : ℚ) : ℝ) + 1 / 2 ^ (k + 2) := by
      have h := (Rat.cast_lt (K := ℝ)).2 hb
      push_cast at h; exact h
    have he : (1 : ℝ) / 2 ^ (k + 2) = (1 / 2) ^ k * (1 / 4) := by
      rw [pow_add, one_div_pow]; field_simp; norm_num
    rw [abs_le]; constructor <;> linarith
  calc |((piApprox k : ℚ) : ℝ) - Real.pi| ≤ |((piApprox k : ℚ) : ℝ) - p| + |(p : ℝ) - Real.pi| := abs_sub_le _ _ _
    _ ≤ (1 / 2) ^ k := by linarith

theorem cosSeries_cast (y2 : ℚ) (m j : ℕ) :
    ((cosSeries y2 m j : ℚ) : ℝ)
      = ∑ i ∈ Finset.range m, (-1 : ℝ) ^ i * (y2 : ℝ) ^ i * ((2 * j).factorial : ℝ) / ((2 * j + 2 * i).factorial : ℝ) := by
  induction m generalizing j with
  | zero => simp [cosSeries]
  | succ m ih =>
    rw [Finset.sum_range_succ', cosSeries]
    have h0 : ((2 * j).factorial : ℝ) ≠ 0 := by positivity
    have hz : (-1 : ℝ) ^ 0 * (y2 : ℝ) ^ 0 * ((2 * j).factorial : ℝ) / ((2 * j + 2 * 0).factorial : ℝ) = 1 := by
      simp [h0]
    rw [hz, Rat.cast_sub, Rat.cast_mul, ih, Finset.mul_sum, Rat.cast_one, sub_eq_neg_add,
      ← Finset.sum_neg_distrib]
    congr 1
    · apply Finset.sum_congr rfl
      intro i _
      have hf : (2 * (j + 1)).factorial = (2 * j + 2) * ((2 * j + 1) * (2 * j).factorial) := by
        rw [show 2 * (j + 1) = 2 * j + 1 + 1 by ring, Nat.factorial_succ, Nat.factorial_succ]
      have he : 2 * (j + 1) + 2 * i = 2 * j + 2 * (i + 1) := by ring
      rw [he, hf]
      have h1 : ((2 * j + 2 * (i + 1)).factorial : ℝ) ≠ 0 := by positivity
      push_cast
      field_simp
      ring

theorem cos_taylor_re (y : ℝ) (m : ℕ) :
    (∑ i ∈ Finset.range (2 * m), ((y : ℂ) * Complex.I) ^ i / (i.factorial : ℂ)).re
      = ∑ i ∈ Finset.range m, (-1 : ℝ) ^ i * (y ^ 2) ^ i / ((2 * i).factorial : ℝ) := by
  induction m with
  | zero => simp
  | succ m ih =>
    rw [Finset.sum_range_succ, ← ih, show 2 * (m + 1) = 2 * m + 1 + 1 by ring, Finset.sum_range_succ,
      Finset.sum_range_succ, Complex.add_re, Complex.add_re, add_assoc]
    congr 1
    have h1 : ((y : ℂ) * Complex.I) ^ (2 * m) / ((2 * m).factorial : ℂ)
        = (((-1) ^ m * (y ^ 2) ^ m / ((2 * m).factorial : ℝ) : ℝ) : ℂ) := by
      rw [pow_mul, mul_pow, Complex.I_sq]; push_cast; rw [mul_pow]; ring
    have h2 : ((y : ℂ) * Complex.I) ^ (2 * m + 1) / ((2 * m + 1).factorial : ℂ)
        = (((-1) ^ m * (y ^ 2) ^ m * y / ((2 * m + 1).factorial : ℝ) : ℝ) : ℂ) * Complex.I := by
      rw [pow_succ, pow_mul, mul_pow, Complex.I_sq]; push_cast; rw [mul_pow]; ring
    rw [h1, h2, Complex.ofReal_re, Complex.re_ofReal_mul, Complex.I_re]
    ring

theorem cos_taylor_error (y : ℝ) (m : ℕ) (hy : |y| ≤ 2) (hm : 2 ≤ m) :
    |Real.cos y - ∑ i ∈ Finset.range m, (-1 : ℝ) ^ i * (y ^ 2) ^ i / ((2 * i).factorial : ℝ)|
      ≤ 22 * (1 / 2) ^ (2 * m) := by
  have hn : ‖(y : ℂ) * Complex.I‖ = |y| := by simp
  have hb := Complex.exp_bound' (x := (y : ℂ) * Complex.I) (n := 2 * m) (by
    rw [hn, div_le_iff₀ (by positivity)]
    have : (4 : ℝ) ≤ (2 * m : ℕ) := by exact_mod_cast (by omega : 4 ≤ 2 * m)
    push_cast at *; linarith)
  have hre : Real.cos y - ∑ i ∈ Finset.range m, (-1 : ℝ) ^ i * (y ^ 2) ^ i / ((2 * i).factorial : ℝ)
      = (Complex.exp ((y : ℂ) * Complex.I) - ∑ i ∈ Finset.range (2 * m), ((y : ℂ) * Complex.I) ^ i / (i.factorial : ℂ)).re := by
    rw [Complex.sub_re, cos_taylor_re, Complex.exp_ofReal_mul_I_re]
  rw [hre]
  refine (Complex.abs_re_le_norm _).trans (hb.trans ?_)
  rw [hn]
  have hfac : ∀ n : ℕ, 4 ^ n ≤ 11 * n.factorial := by
    intro n
    induction n with
    | zero => decide
    | succ n ih =>
      by_cases h : n < 3
      · interval_cases n <;> decide
      · rw [pow_succ, Nat.factorial_succ]
        have : 4 ≤ n + 1 := by omega
        nlinarith [Nat.factorial_pos n]
  have hf : ((4 : ℝ)) ^ (2 * m) ≤ 11 * ((2 * m).factorial : ℝ) := by exact_mod_cast hfac (2 * m)
  have hf0 : (0 : ℝ) < ((2 * m).factorial : ℝ) := by positivity
  have hp : |y| ^ (2 * m) ≤ 2 ^ (2 * m) := pow_le_pow_left₀ (abs_nonneg y) hy _
  have h4 : (4 : ℝ) ^ (2 * m) = 2 ^ (2 * m) * 2 ^ (2 * m) := by rw [← mul_pow]; norm_num
  have h2 : (2 : ℝ) ^ (2 * m) * (1 / 2) ^ (2 * m) = 1 := by rw [← mul_pow]; norm_num
  have : |y| ^ (2 * m) / ((2 * m).factorial : ℝ) ≤ 11 * (1 / 2) ^ (2 * m) := by
    rw [div_le_iff₀ hf0]
    have hx : (0 : ℝ) < (1 / 2) ^ (2 * m) := by positivity
    have h2p : (0 : ℝ) < 2 ^ (2 * m) := by positivity
    calc |y| ^ (2 * m) ≤ 2 ^ (2 * m) := hp
      _ = 4 ^ (2 * m) * (1 / 2) ^ (2 * m) := by rw [h4, mul_assoc, h2, mul_one]
      _ ≤ 11 * ((2 * m).factorial : ℝ) * (1 / 2) ^ (2 * m) := by gcongr
      _ = _ := by ring
  linarith

theorem cosApproxQuarter_error (k : ℕ) (f : ℚ) (h0 : 0 ≤ f) (h1 : f ≤ 1 / 4) :
    |((cosApproxQuarter k f : ℚ) : ℝ) - Real.cos (2 * Real.pi * f)| ≤ (1 / 2) ^ k := by
  set p := piApprox (k + 1) with hp
  have hpi := piApprox_error (k + 1)
  rw [← hp] at hpi
  have hf0 : (0 : ℝ) ≤ f := by exact_mod_cast h0
  have hf1 : (f : ℝ) ≤ 1 / 4 := by
    have h := (Rat.cast_le (K := ℝ)).2 h1
    push_cast at h; exact h
  have hk1 : ((1 : ℝ) / 2) ^ (k + 1) ≤ 1 / 2 := by
    rw [pow_succ]; have := pow_le_one₀ (n := k) (by norm_num : (0:ℝ) ≤ 1 / 2) (by norm_num); linarith
  have hp4 : |(p : ℝ)| ≤ 4 := by
    rw [abs_le] at hpi ⊢
    constructor <;> linarith [Real.pi_gt_three, Real.pi_lt_d2, hpi.1, hpi.2]
  set y : ℝ := 2 * p * f with hy
  have hy2 : |y| ≤ 2 := by
    rw [hy, abs_mul, abs_mul, abs_of_nonneg hf0, abs_two]; nlinarith [abs_nonneg (p : ℝ)]
  have hser : ((cosApproxQuarter k f : ℚ) : ℝ)
      = ∑ i ∈ Finset.range (k / 2 + 4), (-1 : ℝ) ^ i * (y ^ 2) ^ i / ((2 * i).factorial : ℝ) := by
    rw [cosApproxQuarter, ← hp, cosSeries_cast]
    simp [hy]
  have ht := cos_taylor_error y (k / 2 + 4) hy2 (by omega)
  have hpow : ((1 : ℝ) / 2) ^ (2 * (k / 2 + 4)) ≤ (1 / 2) ^ k * (1 / 128) := by
    calc ((1 : ℝ) / 2) ^ (2 * (k / 2 + 4)) ≤ (1 / 2) ^ (k + 7) :=
          pow_le_pow_of_le_one (by norm_num) (by norm_num) (by omega)
      _ = _ := by rw [pow_add]; norm_num
  have hl : |Real.cos y - Real.cos (2 * Real.pi * f)| ≤ (1 / 2) ^ k * (1 / 4) := by
    calc |Real.cos y - Real.cos (2 * Real.pi * f)| ≤ |y - 2 * Real.pi * f| := Real.abs_cos_sub_cos_le _ _
      _ = |(p : ℝ) - Real.pi| * (2 * f) := by
          have he : y - 2 * Real.pi * f = ((p : ℝ) - Real.pi) * (2 * f) := by rw [hy]; ring
          rw [he, abs_mul, abs_of_nonneg (by positivity : (0 : ℝ) ≤ 2 * f)]
      _ ≤ (1 / 2) ^ (k + 1) * (1 / 2) := by gcongr; linarith
      _ = _ := by rw [pow_succ]; ring
  rw [hser]
  calc _ ≤ |∑ i ∈ Finset.range (k / 2 + 4), (-1 : ℝ) ^ i * (y ^ 2) ^ i / ((2 * i).factorial : ℝ) - Real.cos y|
        + |Real.cos y - Real.cos (2 * Real.pi * f)| := abs_sub_le _ _ _
    _ ≤ (1 / 2) ^ k := by
        rw [abs_sub_comm]
        have : (0 : ℝ) < (1 / 2) ^ k := by positivity
        linarith


/-! ## The approximation of a sample -/

theorem cosHalf_form (f : ℚ) (h0 : 0 ≤ f) (h1 : f ≤ 1 / 2) :
    (cosHalf f).terms = [] ∨ ∃ g a : ℚ, (cosHalf f).terms = [⟨g, a⟩] ∧ 0 ≤ g ∧ g ≤ 1 / 4 ∧ |a| = 1 := by
  have hq : ∀ g : ℚ, 0 ≤ g → g ≤ 1 / 4 → (cosQuarter g).terms = [] ∨ (cosQuarter g).terms = [⟨g, 1⟩] := by
    intro g _ _
    unfold cosQuarter
    split_ifs <;> simp [Sample.ofRat]
  unfold cosHalf
  split
  · rename_i h
    rcases hq f h0 h with h' | h'
    · exact .inl h'
    · exact .inr ⟨f, 1, h', h0, h, abs_one⟩
  · rename_i h
    have h2 : 1 / 2 - f ≤ 1 / 4 := by linarith
    rcases hq (1 / 2 - f) (by linarith) h2 with h' | h'
    · left
      rw [Sample.neg, Sample.scale, if_neg (by norm_num)]
      simp only [h', List.map_nil]
    · right
      refine ⟨1 / 2 - f, -1, ?_, by linarith, h2, by norm_num⟩
      rw [Sample.neg, Sample.scale, if_neg (by norm_num)]
      simp only [h', List.map_cons, List.map_nil, mul_one]

theorem fracTurn_nonneg (θ : ℚ) : 0 ≤ fracTurn θ := sub_nonneg.2 (Int.floor_le θ)

theorem fracTurn_lt_one (θ : ℚ) : fracTurn θ < 1 := by
  have := Int.lt_floor_add_one θ
  unfold fracTurn
  change θ < ((θ.floor : ℤ) : ℚ) + 1 at this
  linarith

theorem cosTurn_form (θ : ℚ) :
    (cosTurn θ).terms = [] ∨ ∃ g a : ℚ, (cosTurn θ).terms = [⟨g, a⟩] ∧ 0 ≤ g ∧ g ≤ 1 / 4 ∧ |a| = 1 := by
  have h0 := fracTurn_nonneg θ
  have h1 := fracTurn_lt_one θ
  unfold cosTurn
  split
  · exact cosHalf_form _ h0 (by assumption)
  · exact cosHalf_form _ (by linarith) (by linarith)

theorem Sample.approx_error (k : ℕ) (x : Sample) :
    |((x.approx k : ℚ) : ℝ) - x.value| ≤ (x.spread : ℝ) * (1 / 2) ^ k := by
  have h : ∀ (c : ℚ) (ts : List Term),
      |((ts.foldr (fun t acc =>
        (cosTurn t.turn).terms.foldr (fun u a => t.amp * u.amp * cosApproxQuarter k u.turn + a)
          (t.amp * (cosTurn t.turn).const + acc)) c : ℚ) : ℝ) - ((c : ℝ) + (ts.map Term.value).sum)|
        ≤ ((ts.foldr (fun t acc => |t.amp| + acc) 0 : ℚ) : ℝ) * (1 / 2) ^ k := by
    intro c ts
    induction ts with
    | nil => simp
    | cons t ts ih =>
      simp only [List.foldr_cons, List.map_cons, List.sum_cons]
      set r := ts.foldr (fun t acc =>
        (cosTurn t.turn).terms.foldr (fun u a => t.amp * u.amp * cosApproxQuarter k u.turn + a)
          (t.amp * (cosTurn t.turn).const + acc)) c
      have hv := cosTurn_value t.turn
      rcases cosTurn_form t.turn with h' | ⟨g, a, h', g0, g1, ha⟩
      · rw [h', List.foldr_nil]
        simp only [Sample.value, h', List.map_nil, List.sum_nil, add_zero] at hv
        have e : ((t.amp * (cosTurn t.turn).const + r : ℚ) : ℝ) - ((c : ℝ) + (t.value + (ts.map Term.value).sum))
            = (r : ℝ) - ((c : ℝ) + (ts.map Term.value).sum) := by
          push_cast; rw [Term.value, ← hv]; ring
        rw [e]
        refine ih.trans ?_
        push_cast
        have := abs_nonneg (t.amp : ℝ)
        have : (0 : ℝ) < (1 / 2) ^ k := by positivity
        nlinarith
      · rw [h', List.foldr_cons, List.foldr_nil]
        simp only [Sample.value, h', List.map_cons, List.map_nil, List.sum_cons, List.sum_nil, add_zero, Term.value] at hv
        have hg := cosApproxQuarter_error k g g0 g1
        have ha' : |(a : ℝ)| = 1 := by exact_mod_cast ha
        have e : ((t.amp * a * cosApproxQuarter k g + (t.amp * (cosTurn t.turn).const + r) : ℚ) : ℝ)
              - ((c : ℝ) + (t.value + (ts.map Term.value).sum))
            = (t.amp : ℝ) * ((a : ℝ) * ((cosApproxQuarter k g : ℚ) - Real.cos (2 * Real.pi * g)))
              + ((r : ℝ) - ((c : ℝ) + (ts.map Term.value).sum)) := by
          push_cast; rw [Term.value, ← hv]; ring
        rw [e]
        refine (abs_add_le _ _).trans ?_
        push_cast
        rw [add_mul, abs_mul, abs_mul, ha', one_mul]
        gcongr
  exact h x.const x.terms

/-! ## How near to 0 a sample can be -/

theorem spread_nonneg (ts : List Term) : (0 : ℚ) ≤ ts.foldr (fun t acc => |t.amp| + acc) 0 := by
  induction ts with
  | nil => simp
  | cons t ts ih => simp only [List.foldr_cons]; positivity

theorem ratio_of_dvd (q : ℚ) (n : ℕ) (h : q.den ∣ n) : ∃ m : ℤ, (n : ℚ) * q = m := by
  obtain ⟨c, rfl⟩ := h
  refine ⟨c * q.num, ?_⟩
  push_cast
  rw [mul_comm (q.den : ℚ), mul_assoc, Rat.den_mul_eq_num]

/-- Twice a cosine at a multiple of `1/N` turn is a sum of two powers of the N-th root of unity `exp(2 π i / N)`. -/
theorem two_cos_eq_powers (N : ℕ) (hN : 0 < N) (θ : ℚ) (h : θ.den ∣ N) :
    ∃ e e' : ℕ, ((2 * Real.cos (2 * Real.pi * θ) : ℝ) : ℂ)
      = Complex.exp (2 * Real.pi * Complex.I / N) ^ e + Complex.exp (2 * Real.pi * Complex.I / N) ^ e' := by
  obtain ⟨m, hm⟩ := ratio_of_dvd θ N h
  have hN0 : (N : ℂ) ≠ 0 := by exact_mod_cast hN.ne'
  have hθ : (θ : ℂ) = (m : ℂ) / N := by
    rw [eq_div_iff hN0, mul_comm]; exact_mod_cast congrArg (Rat.cast : ℚ → ℂ) hm
  have hpow : ∀ z : ℤ, Complex.exp (2 * Real.pi * Complex.I / N) ^ (z % (N : ℤ)).toNat
      = Complex.exp (z * (2 * Real.pi * Complex.I / N)) := by
    intro z
    have hz : (((z % (N : ℤ)).toNat : ℕ) : ℤ) = z - N * (z / N) := by
      rw [Int.toNat_of_nonneg (Int.emod_nonneg _ (by exact_mod_cast hN.ne')), Int.emod_def]
    rw [← Complex.exp_nat_mul]
    have hc : (((z % (N : ℤ)).toNat : ℕ) : ℂ) = (z : ℂ) - N * ((z / N : ℤ) : ℂ) := by exact_mod_cast congrArg (Int.cast : ℤ → ℂ) hz
    rw [hc]
    have : ((z : ℂ) - N * ((z / N : ℤ) : ℂ)) * (2 * Real.pi * Complex.I / N)
        = z * (2 * Real.pi * Complex.I / N) - ((z / N : ℤ) : ℂ) * (2 * Real.pi * Complex.I) := by
      field_simp
    rw [this, Complex.exp_sub, Complex.exp_int_mul_two_pi_mul_I, div_one]
  refine ⟨(m % (N : ℤ)).toNat, (-m % (N : ℤ)).toNat, ?_⟩
  rw [hpow, hpow]
  push_cast
  rw [Complex.two_cos, hθ]
  congr 1 <;> congr 1 <;> ring

theorem terms_as_polynomial (N D : ℕ) (hN : 0 < N) (ts : List Term)
    (ht : ∀ t ∈ ts, t.turn.den ∣ N ∧ t.amp.den ∣ D) :
    ∃ Q : ℤ[X], aeval (Complex.exp (2 * Real.pi * Complex.I / N)) Q = ((2 * D * (ts.map Term.value).sum : ℝ) : ℂ) ∧
      ∀ z : ℂ, z ^ N = 1 → ‖aeval z Q‖ ≤ 2 * D * ((ts.foldr (fun t acc => |t.amp| + acc) 0 : ℚ) : ℝ) := by
  induction ts with
  | nil => exact ⟨0, by simp, by simp⟩
  | cons t ts ih =>
    obtain ⟨Q, hQ, hb⟩ := ih fun u hu => ht u (List.mem_cons_of_mem _ hu)
    obtain ⟨hd1, hd2⟩ := ht t List.mem_cons_self
    obtain ⟨e, e', he⟩ := two_cos_eq_powers N hN t.turn hd1
    obtain ⟨m, hm⟩ := ratio_of_dvd t.amp D hd2
    have hmr : (D : ℝ) * (t.amp : ℝ) = m := by exact_mod_cast congrArg (Rat.cast : ℚ → ℝ) hm
    refine ⟨C m * (X ^ e + X ^ e') + Q, ?_, ?_⟩
    · rw [map_add, hQ, map_mul, map_add, map_pow, map_pow, aeval_X, ← he]
      simp only [List.map_cons, List.sum_cons, eq_intCast, map_intCast, Term.value]
      rw [← Complex.ofReal_intCast, ← hmr]
      push_cast; ring
    · intro z hz
      have hz1 : ‖z‖ = 1 := by
        have := congrArg norm hz
        rw [norm_pow, norm_one] at this
        exact (pow_eq_one_iff_of_nonneg (norm_nonneg z) hN.ne').1 this
      rw [map_add, map_mul, map_add, map_pow, map_pow, aeval_X]
      simp only [eq_intCast, map_intCast, List.foldr_cons]
      refine (norm_add_le _ _).trans ?_
      have h2 : ‖(m : ℂ) * (z ^ e + z ^ e')‖ ≤ 2 * D * |(t.amp : ℝ)| := by
        rw [norm_mul, Complex.norm_intCast, ← hmr, abs_mul, abs_of_nonneg (Nat.cast_nonneg D)]
        have : ‖z ^ e + z ^ e'‖ ≤ 2 := (norm_add_le _ _).trans (by simp [hz1]; norm_num)
        have h0 : 0 ≤ (D : ℝ) * |(t.amp : ℝ)| := by positivity
        nlinarith
      push_cast
      have := hb z hz
      linarith

theorem turnDen_dvd (ts : List Term) : (0 < ts.foldr (fun t n => Nat.lcm t.turn.den n) 1) ∧
    ∀ t ∈ ts, t.turn.den ∣ ts.foldr (fun t n => Nat.lcm t.turn.den n) 1 := by
  induction ts with
  | nil => simp
  | cons t ts ih =>
    refine ⟨Nat.lcm_pos t.turn.pos ih.1, ?_⟩
    intro u hu
    rcases List.mem_cons.1 hu with rfl | hu
    · exact Nat.dvd_lcm_left _ _
    · exact (ih.2 u hu).trans (Nat.dvd_lcm_right _ _)

theorem ampDen_dvd (d : ℕ) (hd : 0 < d) (ts : List Term) : (0 < ts.foldr (fun t n => Nat.lcm t.amp.den n) d) ∧
    d ∣ ts.foldr (fun t n => Nat.lcm t.amp.den n) d ∧
    ∀ t ∈ ts, t.amp.den ∣ ts.foldr (fun t n => Nat.lcm t.amp.den n) d := by
  induction ts with
  | nil => simp [hd]
  | cons t ts ih =>
    refine ⟨Nat.lcm_pos t.amp.pos ih.1, ih.2.1.trans (Nat.dvd_lcm_right _ _), ?_⟩
    intro u hu
    rcases List.mem_cons.1 hu with rfl | hu
    · exact Nat.dvd_lcm_left _ _
    · exact (ih.2.2 u hu).trans (Nat.dvd_lcm_right _ _)

theorem Sample.height_spec (x : Sample) :
    (1 : ℝ) ≤ x.height ∧ 2 * (x.ampDen : ℝ) * (|(x.const : ℝ)| + x.spread) ≤ x.height := by
  have h1 : (2 * (x.ampDen : ℚ) * (|x.const| + x.spread)) ≤ (x.height : ℚ) := by
    unfold Sample.height
    set q := 2 * (x.ampDen : ℚ) * (|x.const| + x.spread)
    have ha : q < ((q.floor : ℤ) : ℚ) + 1 := Int.lt_floor_add_one q
    have hb : ((q.floor : ℤ) : ℚ) ≤ ((q.floor.toNat : ℕ) : ℚ) := by exact_mod_cast Int.self_le_toNat q.floor
    push_cast; linarith
  refine ⟨?_, ?_⟩
  · unfold Sample.height; push_cast; linarith [Nat.cast_nonneg (α := ℝ) (2 * (x.ampDen : ℚ) * (|x.const| + x.spread)).floor.toNat]
  · have := (Rat.cast_le (K := ℝ)).2 h1
    push_cast at this; exact this

/-- A sample that is not 0 is at least `sep` away from 0. -/
theorem Sample.sep_le_abs_value (x : Sample) (hx : x.value ≠ 0) : (x.sep : ℝ) ≤ |x.value| := by
  obtain ⟨hN, hNd⟩ := turnDen_dvd x.terms
  obtain ⟨hD, hDc, hDd⟩ := ampDen_dvd x.const.den x.const.pos x.terms
  change 0 < x.turnDen at hN
  change 0 < x.ampDen at hD
  obtain ⟨hL1, hL2⟩ := x.height_spec
  obtain ⟨Q, hQ, hb⟩ := terms_as_polynomial x.turnDen x.ampDen hN x.terms fun t ht => ⟨hNd t ht, hDd t ht⟩
  obtain ⟨m, hm⟩ := ratio_of_dvd x.const x.ampDen hDc
  have hmr : (x.ampDen : ℝ) * (x.const : ℝ) = m := by exact_mod_cast congrArg (Rat.cast : ℚ → ℝ) hm
  set ζ := Complex.exp (2 * Real.pi * Complex.I / x.turnDen)
  have hN0 : (x.turnDen : ℂ) ≠ 0 := by exact_mod_cast hN.ne'
  have hζ : ζ ^ x.turnDen = 1 := by
    rw [← Complex.exp_nat_mul, mul_div_cancel₀ _ hN0, Complex.exp_two_pi_mul_I]
  have hval : aeval ζ (C (2 * m) + Q) = ((2 * x.ampDen * x.value : ℝ) : ℂ) := by
    rw [map_add, hQ, aeval_C, eq_intCast, Sample.value]
    push_cast
    rw [← Complex.ofReal_intCast m, ← hmr]; push_cast; ring
  have hD0 : (0 : ℝ) < x.ampDen := by exact_mod_cast hD
  have hfar := integer_poly_far_from_zero x.turnDen hN (C (2 * m) + Q) ζ hζ x.height hL1 (by
    intro z hz
    rw [map_add, aeval_C, eq_intCast]
    refine (norm_add_le _ _).trans (le_trans ?_ hL2)
    have h1 := hb z hz
    change _ ≤ 2 * (x.ampDen : ℝ) * (x.spread : ℝ) at h1
    rw [Complex.norm_intCast]
    push_cast
    rw [← hmr, abs_mul, abs_two, abs_mul, abs_of_pos hD0]
    linarith) (by
    rw [hval]
    exact_mod_cast mul_ne_zero (mul_ne_zero two_ne_zero hD0.ne') hx)
  rw [hval, Complex.norm_real, Real.norm_eq_abs, abs_mul, abs_mul, abs_two, abs_of_pos hD0] at hfar
  have hLp : (0 : ℝ) < (x.height : ℝ) ^ x.turnDen := by positivity
  rw [Sample.sep]
  push_cast
  rw [div_le_iff₀ (by positivity)]
  linarith

theorem Sample.spread_mul_le (x : Sample) : (x.spread : ℝ) * (1 / 2) ^ x.sepBits ≤ x.sep / 4 := by
  obtain ⟨hL1, hL2⟩ := x.height_spec
  have hD : (0 : ℝ) < x.ampDen := by exact_mod_cast (ampDen_dvd x.const.den x.const.pos x.terms).1
  have hlog : (x.height : ℝ) ≤ 2 ^ (Nat.log2 x.height + 1) := by
    exact_mod_cast (Nat.lt_log2_self (n := x.height)).le
  have hs : (x.spread : ℝ) * (2 * x.ampDen) ≤ x.height := by nlinarith [abs_nonneg (x.const : ℝ)]
  have hpow : (x.height : ℝ) ^ (x.turnDen + 1) ≤ 2 ^ ((x.turnDen + 1) * (Nat.log2 x.height + 1)) := by
    rw [mul_comm (x.turnDen + 1), pow_mul]; exact pow_le_pow_left₀ (by linarith) hlog _
  have hLp : (0 : ℝ) < (x.height : ℝ) ^ x.turnDen := by positivity
  have h2 : (0 : ℝ) < 2 ^ ((x.turnDen + 1) * (Nat.log2 x.height + 1)) := by positivity
  rw [Sample.sep, Sample.sepBits, pow_add, one_div_pow _ ((x.turnDen + 1) * _)]
  push_cast
  rw [div_div, ← mul_assoc, mul_one_div, div_le_div_iff₀ h2 (by positivity)]
  rw [pow_succ] at hpow
  have : (x.spread : ℝ) * (2 * x.ampDen) * (x.height : ℝ) ^ x.turnDen ≤ x.height * (x.height : ℝ) ^ x.turnDen := by gcongr
  nlinarith

/-- The sign test of samples is exact. -/
@[simp] theorem Sample.pos_iff (x : Sample) : x.pos = true ↔ 0 < x.value := by
  unfold Sample.pos
  split
  · rename_i h
    simp [Sample.value, h]
  · split
    · rename_i h
      have he := x.approx_error 64
      have h' := (Rat.cast_lt (K := ℝ)).2 h
      push_cast at h'
      rw [div_eq_mul_inv, ← inv_pow, ← one_div] at h'
      have hlt := he.trans_lt h'
      rw [decide_eq_true_iff]
      constructor
      · intro hp
        have hp' : (0 : ℝ) < x.approx 64 := by exact_mod_cast hp
        rw [abs_of_pos hp'] at hlt
        linarith [(abs_lt.1 hlt).2]
      · intro hp
        by_contra hn
        have hn' : ((x.approx 64 : ℚ) : ℝ) ≤ 0 := by exact_mod_cast not_lt.1 hn
        rw [abs_of_nonpos hn'] at hlt
        linarith [(abs_lt.1 hlt).1]
    · have he := (x.approx_error x.sepBits).trans x.spread_mul_le
      rw [abs_le] at he
      have hD : (0 : ℝ) < x.ampDen := by exact_mod_cast (ampDen_dvd x.const.den x.const.pos x.terms).1
      have hL := x.height_spec.1
      have hsep : (0 : ℝ) < x.sep := by
        rw [Sample.sep]; push_cast; positivity
      have hc : (x.sep / 2 < x.approx x.sepBits) ↔ (x.sep : ℝ) / 2 < (x.approx x.sepBits : ℚ) := by
        rw [← Rat.cast_lt (K := ℝ)]; push_cast; rfl
      rw [decide_eq_true_iff, hc]
      constructor
      · intro h; linarith [he.2]
      · intro h
        have := x.sep_le_abs_value h.ne'
        rw [abs_of_pos h] at this
        linarith [he.1]

@[simp] theorem Sample.lt_iff (x y : Sample) : Sample.lt x y = true ↔ x.value < y.value := by
  simp [Sample.lt]

@[simp] theorem Sample.value_abs (x : Sample) : (Sample.abs x).value = |x.value| := by
  unfold Sample.abs
  split
  · rename_i h
    rw [Sample.pos_iff, Sample.value_neg] at h
    rw [Sample.value_neg, abs_of_neg (by linarith)]
  · rename_i h
    rw [Sample.pos_iff, Sample.value_neg] at h
    rw [abs_of_nonneg (by linarith)]

/-! ## The greatest element of a list -/

theorem argMaxFrom_spec (best : ℕ) (v : Sample) (i : ℕ) (xs : List Sample) (f : ℕ → ℝ) (hb : f best = v.value)
    (hlt : best < i) (hx : ∀ j (h : j < xs.length), f (i + j) = (xs[j]).value)
    (hmax : ∀ j < i, f j ≤ f best) (hfirst : ∀ j < best, f j < f best) :
    argMaxFrom best v i xs < i + xs.length ∧ (∀ j < i + xs.length, f j ≤ f (argMaxFrom best v i xs)) ∧
      ∀ j < argMaxFrom best v i xs, f j < f (argMaxFrom best v i xs) := by
  induction xs generalizing best v i with
  | nil => exact ⟨by simpa [argMaxFrom] using hlt, by simpa [argMaxFrom] using hmax, by simpa [argMaxFrom] using hfirst⟩
  | cons x xs ih =>
    have hi : f i = x.value := by
      have := hx 0 (Nat.succ_pos _)
      rwa [Nat.add_zero] at this
    have hrest : ∀ j (h : j < xs.length), f (i + 1 + j) = (xs[j]).value := by
      intro j h
      have := hx (j + 1) (by simpa using h)
      rw [show i + 1 + j = i + (j + 1) by ring, this, List.getElem_cons_succ]
    rw [argMaxFrom, List.length_cons, show i + (xs.length + 1) = i + 1 + xs.length by ring]
    split
    · rename_i h
      rw [Sample.lt_iff, ← hb, ← hi] at h
      refine ih i x (i + 1) hi (Nat.lt_succ_self i) hrest ?_ ?_
      · intro j hj
        rcases Nat.lt_succ_iff_lt_or_eq.1 hj with hj | rfl
        · exact (hmax j hj).trans h.le
        · exact le_rfl
      · exact fun j hj => (hmax j hj).trans_lt h
    · rename_i h
      rw [Sample.lt_iff, ← hb, ← hi, not_lt] at h
      refine ih best v (i + 1) hb (Nat.lt_succ_of_lt hlt) hrest ?_ hfirst
      intro j hj
      rcases Nat.lt_succ_iff_lt_or_eq.1 hj with hj | rfl
      · exact hmax j hj
      · exact h

/-- `argMax` is the smallest index of a greatest element (R188). -/
theorem argMax_spec (xs : List Sample) (hne : xs ≠ []) :
    argMax xs < xs.length ∧
      (∀ j < xs.length, (xs.map Sample.value).getD j 0 ≤ (xs.map Sample.value).getD (argMax xs) 0) ∧
      ∀ j < argMax xs, (xs.map Sample.value).getD j 0 < (xs.map Sample.value).getD (argMax xs) 0 := by
  obtain ⟨x, xs, rfl⟩ := List.exists_cons_of_ne_nil hne
  have h := argMaxFrom_spec 0 x 1 xs (fun j => ((x :: xs).map Sample.value).getD j 0) (by simp) one_pos
    (by intro j hj; rw [Nat.add_comm 1 j]; simp [hj]) (by intro j hj; interval_cases j; exact le_rfl) (by simp)
  rw [Nat.add_comm 1] at h
  exact h

/-- `argMin` is the smallest index of a least element (R193). -/
theorem argMin_spec (xs : List Sample) (hne : xs ≠ []) :
    argMin xs < xs.length ∧
      (∀ j < xs.length, (xs.map Sample.value).getD (argMin xs) 0 ≤ (xs.map Sample.value).getD j 0) ∧
      ∀ j < argMin xs, (xs.map Sample.value).getD (argMin xs) 0 < (xs.map Sample.value).getD j 0 := by
  obtain ⟨h1, h2, h3⟩ := argMax_spec (xs.map Sample.neg) (by simpa using hne)
  simp only [List.length_map] at h1 h2
  have hk : ∀ j < xs.length,
      ((xs.map Sample.neg).map Sample.value).getD j 0 = -((xs.map Sample.value).getD j 0) := by
    intro j hj
    simp [List.getD, hj]
  change argMin xs < xs.length at h1
  refine ⟨h1, fun j hj => ?_, fun j hj => ?_⟩
  · have h := h2 j hj
    change _ ≤ ((xs.map Sample.neg).map Sample.value).getD (argMin xs) 0 at h
    rw [hk j hj, hk _ h1] at h
    linarith
  · have h := h3 j hj
    change _ < ((xs.map Sample.neg).map Sample.value).getD (argMin xs) 0 at h
    rw [hk j (hj.trans h1), hk _ h1] at h
    linarith

end Sys2Proof.Machine
end

