-- ==== Sys2Proof/Laws/Signal.lean ====
section
/-! SUPPORT. What the shared signal operations give: the samples of a list of symbols, the samples of a window, the real
value of a correlation. -/

namespace Sys2Proof.Machine

@[simp] theorem symbolsFrom_length {α : Type} (S : Nat) (sym : α → Nat → Sample) (m : Nat) (as : List α) :
    (symbolsFrom S sym m as).length = as.length * S := by
  induction as generalizing m with
  | nil => simp [symbolsFrom]
  | cons a as ih => simp [symbolsFrom, ih]; ring

/-- Sample i of symbol k is `sym` at the symbol and the global index (R181). -/
theorem symbolsFrom_getElem? {α : Type} (S : Nat) (sym : α → Nat → Sample) (m : Nat) (as : List α) (k i : Nat)
    (hi : i < S) (hk : k < as.length) :
    (symbolsFrom S sym m as)[k * S + i]? = some (sym as[k] ((m + k) * S + i)) := by
  induction as generalizing m k with
  | nil => simp at hk
  | cons a as ih =>
    unfold symbolsFrom
    cases k with
    | zero => rw [List.getElem?_append_left (by simpa using hi)]; simp [hi]
    | succ k =>
      rw [List.getElem?_append_right (by simp; nlinarith)]
      have e : (k + 1) * S + i - ((List.range S).map fun i => sym a (m * S + i)).length = k * S + i := by
        simp only [List.length_map, List.length_range, Nat.add_mul]; omega
      rw [e, ih (m + 1) k (by simpa using hk)]
      simp only [List.getElem_cons_succ]
      congr 2
      ring

/-- Sample i of window m is sample `m * S + i` of the signal (R59). -/
theorem win_getElem? {α : Type} (x : List α) (S m i : Nat) (hi : i < S) : (win x S m)[i]? = x[m * S + i]? := by
  simp [win, sub, hi]

/-- The window numbers are those of the whole windows (R59). -/
theorem windows_getElem? {α : Type} (x : List α) (S m : Nat) (hm : m < x.length / S) :
    (windows x S)[m]? = some (win x S m) := by
  simp [windows, hm]

/-- A whole window has S samples (R59). -/
theorem win_length {α : Type} (x : List α) (S m : Nat) (hm : m < x.length / S) : (win x S m).length = S := by
  have h1 : (m + 1) * S ≤ x.length := by
    calc (m + 1) * S ≤ x.length / S * S := Nat.mul_le_mul_right S hm
      _ ≤ x.length := Nat.div_mul_le_self _ _
  simp only [win, sub_length]
  rw [Nat.add_mul] at h1
  omega

/-- A correlation is the sum of the products of the samples with the reference at their indices. -/
theorem correlateFrom_value (g : Nat → Sample) (i : Nat) (w : List Sample) :
    (correlateFrom g i w).value =
      ∑ j ∈ Finset.range w.length, (w.getD j Sample.zero).value * (g (i + j)).value := by
  induction w generalizing i with
  | nil => simp [correlateFrom]
  | cons x xs ih =>
    rw [correlateFrom, Sample.value_add, Sample.value_mul, ih, List.length_cons, Finset.sum_range_succ']
    simp only [List.getD_cons_zero, List.getD_cons_succ, Nat.add_zero]
    rw [add_comm]
    congr 1
    refine Finset.sum_congr rfl fun j _ => ?_
    rw [Nat.add_assoc, Nat.add_comm 1 j]

end Sys2Proof.Machine
end

