-- ==== Sys2Proof/Tests/Slice0.lean ====
section
/-! SUPPORT. The model's own tests. Expected values are the worked examples of spec/ (V… are the vectors of
spec/95_test_vectors.md); each test is one command on a small state. Theorems named `witness_…` show that the hypotheses
of the statement of that name can be met, clause by clause, at the edges of their ranges. -/

open Sys2Proof Sys2Proof.Machine

namespace Sys2Proof.Tests

set_option Elab.async false

/-! ## Helpers -/

/-- "Hi" (R91). -/
def hi : List Byte := [0x48, 0x69]

/-- The 16 bits of "Hi". -/
def hiBits : BitSeq := be 0x4869 16

/-- A state with the given BI. -/
def onBits (b : BitSeq) : State := { State.reset with bi := b }

/-- The carrier setting Q of spec/95 section 6, with injector registers. -/
def setQ : State :=
  { State.reset with sps := some 4#32, amp := some 1, fs := some 4, fc := some 1, injpos := some 0#32, injmax := some 1#32 }

/-- The FSK setting of V6.8. -/
def setF : State := { State.reset with sps := some 8#32, amp := some 1, fs := some 8, flo := some 1, fhi := some 2 }

/-- A state with the given CFG and the NRZ signal of a bit stream in SI, one sample a bit. -/
def onLine (cfg : Word) (b : BitSeq) : State := { State.reset with cfg := cfg, sps := some 1#32, si := nrzMod 1 1 b }

/-- Rational samples. -/
def rats (l : List ℚ) : List Sample := l.map Sample.ofRat

/-- STATUS and BO after a command. -/
def bo (i : Instr) (s : State) : Option (Word × List BitSeq) :=
  match exec i s with
  | .next t => some (t.status, t.bo)
  | .fault _ => none
  | .refused _ => none

/-- STATUS and BYO after a command. -/
def byo (i : Instr) (s : State) : Option (Word × List Byte) :=
  match exec i s with
  | .next t => some (t.status, t.byo)
  | .fault _ => none
  | .refused _ => none

/-- STATUS, SO and TO after a command. -/
def so (i : Instr) (s : State) : Option (Word × List Sample × List ℚ) :=
  match exec i s with
  | .next t => some (t.status, t.so, t.tO)
  | .fault _ => none
  | .refused _ => none

/-! ## WellFormed refuses ill-formed words and tables -/

theorem test_zero_field_refuses : zeroFieldOk 0x00000158#32 = false := by decide
theorem test_op_field_refuses : opFieldOk 0x00000003#32 = false := by decide
theorem test_word_refuses_zero : commandWordOk 0#32 = false := by decide
theorem test_word_refuses_ones : commandWordOk 0xFFFFFFFF#32 = false := by decide
theorem test_map_refuses_repeat : qamMapLegal { qamMapDefault with p1 := .innerNN } = false := by decide
theorem test_map_default_legal : qamMapLegal qamMapDefault = true := by decide
theorem test_status_refuses_reserved : ¬ statusLegal 0x300#32 := by decide
theorem test_status_refuses_code : ¬ statusLegal 0x107#32 := by decide
theorem test_axes_refuse : ¬ axesLegal { State.reset with td := [0] } := by decide
theorem test_action_refuses_packet : ¬ actionSafe (.biFromPacket 0) State.reset := by decide
theorem test_action_refuses_type : ¬ actionSafe (.writeWord 0x10 0) State.reset := by decide

/-! ## Decode: every word, bit by bit, from the opcode map of R72 -/

theorem test_decode_b2bits : decode 0b00000000000000000000000000000001#32 = .ok .b2bits := by decide
theorem test_decode_bits2b : decode 0b00000000000000000000000000000010#32 = .ok .bits2b := by decide
theorem test_decode_parAdd : decode 0b00000000000000000000000000010000#32 = .ok .parAdd := by decide
theorem test_decode_parChk : decode 0b00000000000000000000000000010001#32 = .ok .parChk := by decide
theorem test_decode_crcAdd : decode 0b00000000000000000000000000010010#32 = .ok .crcAdd := by decide
theorem test_decode_crcChk : decode 0b00000000000000000000000000010011#32 = .ok .crcChk := by decide
theorem test_decode_hamEnc : decode 0b00000000000000000000000000010100#32 = .ok .hamEnc := by decide
theorem test_decode_hamDec : decode 0b00000000000000000000000000010101#32 = .ok .hamDec := by decide
theorem test_decode_split : decode 0b00000000000000000000000000100000#32 = .ok .split := by decide
theorem test_decode_wrapCnt : decode 0b00000000000000000000000000100001#32 = .ok .wrapCnt := by decide
theorem test_decode_frmCnt : decode 0b00000000000000000000000000100010#32 = .ok .frmCnt := by decide
theorem test_decode_dfrCnt : decode 0b00000000000000000000000000100011#32 = .ok .dfrCnt := by decide
theorem test_decode_wrapStf : decode 0b00000000000000000000000000100100#32 = .ok .wrapStf := by decide
theorem test_decode_frmStf : decode 0b00000000000000000000000000100101#32 = .ok .frmStf := by decide
theorem test_decode_dfrStf : decode 0b00000000000000000000000000100110#32 = .ok .dfrStf := by decide
theorem test_decode_nrzMod : decode 0b00000000000000000000000000110000#32 = .ok .nrzMod := by decide
theorem test_decode_nrzDem : decode 0b00000000000000000000000000110001#32 = .ok .nrzDem := by decide
theorem test_decode_manMod : decode 0b00000000000000000000000000110010#32 = .ok .manMod := by decide
theorem test_decode_manDem : decode 0b00000000000000000000000000110011#32 = .ok .manDem := by decide
theorem test_decode_amiMod : decode 0b00000000000000000000000000110100#32 = .ok .amiMod := by decide
theorem test_decode_amiDem : decode 0b00000000000000000000000000110101#32 = .ok .amiDem := by decide
theorem test_decode_askMod : decode 0b00000000000000000000000001000000#32 = .ok .askMod := by decide
theorem test_decode_askDem : decode 0b00000000000000000000000001000001#32 = .ok .askDem := by decide
theorem test_decode_fskMod : decode 0b00000000000000000000000001000010#32 = .ok .fskMod := by decide
theorem test_decode_fskDem : decode 0b00000000000000000000000001000011#32 = .ok .fskDem := by decide
theorem test_decode_qamMod : decode 0b00000000000000000000000001000100#32 = .ok .qamMod := by decide
theorem test_decode_qamDem : decode 0b00000000000000000000000001000101#32 = .ok .qamDem := by decide
theorem test_decode_injOne : decode 0b00000000000000000000000001010000#32 = .ok .injOne := by decide
theorem test_decode_injRnd : decode 0b00000000000000000000000001010001#32 = .ok .injRnd := by decide
theorem test_decode_tx : decode 0b00000000000000000000000001011000#32 = .ok .tx := by decide
theorem test_decode_rx : decode 0b00000000000000000000000001011001#32 = .ok .rx := by decide
theorem test_decode_high_bit : decode 0b10000000000000000000000001011001#32 = .error (.nonzeroHighBits 0x80000059) := by
  decide
theorem test_decode_table_word : decodeTableWord 32 0x59 = some .rx := by decide

/-! ## BitCodec -/

/-- V2.1, V2.3. -/
theorem test_b2bits : bo .b2bits { State.reset with byi := hi } = some (0x100, [be 0b0100100001101001 16]) ∧
    bo .b2bits { State.reset with byi := [0x80, 0x01, 0xFF] } = some (0x100, [be 0b100000000000000111111111 24]) := by
  decide +kernel

/-- V2.5, V2.7. -/
theorem test_bits2b : byo .bits2b (onBits hiBits) = some (0x100, hi) ∧
    byo .bits2b (onBits (hiBits.take 15)) = some (0x106, []) := by decide +kernel

/-! ## ErrorControl -/

/-- V3.1, V3.2. -/
theorem test_par_add : bo .parAdd (onBits (be 0b10110 5)) = some (0x100, [be 0b101101 6]) ∧
    bo .parAdd (onBits hiBits) = some (0x100, [be 0b01001000011010010 17]) := by decide +kernel

/-- V3.6, V3.8, V3.11. -/
theorem test_par_chk : bo .parChk (onBits (be 0b101100 6)) = some (0x123, [be 0b10110 5]) ∧
    bo .parChk (onBits (be 0b011101 6)) = some (0x110, [be 0b01110 5]) ∧
    bo .parChk (onBits []) = some (0x123, [[]]) := by decide +kernel

/-- V3.20, V3.21. -/
theorem test_crc_add : bo .crcAdd (onBits hiBits) = some (0x100, [hiBits ++ be 0x4D170E0E 32]) ∧
    bo .crcAdd (onBits (be 0b10110 5)) = some (0x100, [be 0b10110000 8 ++ be 0x19635C01 32]) := by decide +kernel

/-- R104: the check value of the bytes "123456789". -/
theorem test_crc_check_value : crc32 [0x31, 0x32, 0x33, 0x34, 0x35, 0x36, 0x37, 0x38, 0x39] = 0xCBF43926 := by
  decide +kernel

/-- V3.25, V3.26, V3.31. -/
theorem test_crc_chk : bo .crcChk (onBits (hiBits ++ be 0x4D170E0E 32)) = some (0x110, [hiBits]) ∧
    bo .crcChk (onBits (be 0xC869 16 ++ be 0x4D170E0E 32)) = some (0x123, [be 0xC869 16]) ∧
    bo .crcChk (onBits (be 0b1011 4)) = some (0x123, [[]]) := by decide +kernel

/-- V3.40, V3.51, V3.50. -/
theorem test_ham_enc : bo .hamEnc (onBits (be 0b1011 4)) = some (0x100, [be 0b0110011 7]) ∧
    bo .hamEnc (onBits hiBits) = some (0x100, [be 0b010010011000011001001 21]) ∧
    bo .hamEnc (onBits (be 0b10101010101 11)) = some (0x100, [be 0b101101001010101 15]) := by decide +kernel

/-- V3.54, V3.57, V3.59. -/
theorem test_ham_dec : bo .hamDec (onBits (be 0b0110111 7)) = some (0x140, [be 0b1011 4]) ∧
    bo .hamDec (onBits (be 0b10110 5)) = some (0x184, [be 0b10 2]) ∧
    bo .hamDec (onBits [true]) = some (0x140, [[]]) := by decide +kernel

/-! ## Framer -/

/-- V4.3, V4.5. -/
theorem test_split : bo .split { onBits (be 0b1011001110 10) with maxpl := 4 } =
      some (0x100, [be 0b1011 4, be 0b0011 4, be 0b10 2]) ∧
    bo .split { onBits hiBits with maxpl := 0 } = some (0x101, []) := by decide +kernel

/-- V4.6, V4.7, V4.10. -/
theorem test_wrap_cnt : bo .wrapCnt (onBits hiBits) = some (0x100, [be 0b000000100100100001101001 24]) ∧
    bo .wrapCnt (onBits (be 0b10110 5)) = some (0x100, [be 0b0000000110110 13]) ∧
    bo .wrapCnt (onBits (zeros 2041)) = some (0x102, []) := by decide +kernel

/-- V4.11. -/
theorem test_frm_cnt : bo .frmCnt (onBits (be 0x486921 24)) = some (0x100, [be 0x024869 24, be 0x0121 16]) := by
  decide +kernel

/-- V4.15, V4.16, V4.20. -/
theorem test_dfr_cnt : bo .dfrCnt (onBits (be 0b00000010010010000110100100 26)) = some (0x100, [hiBits]) ∧
    bo .dfrCnt (onBits (be 0b000000000000000110101010 24)) = some (0x100, [[], be 0b10101010 8]) ∧
    bo .dfrCnt (onBits (be 0b0000000110110 13)) = some (0x102, []) := by decide +kernel

/-- V4.22, V4.24. -/
theorem test_wrap_stf : bo .wrapStf (onBits (be 0x417E2342 32)) = some (0x100, [be 0x7E41237E2323427E 64]) ∧
    bo .wrapStf (onBits (be 0b10110 5)) = some (0x100, [be 0b011111101011001111110 21]) := by decide +kernel

/-- V4.28. -/
theorem test_frm_stf : bo .frmStf (onBits (be 0x486921 24)) = some (0x100, [be 0x7E48697E 32, be 0x7E217E 24]) := by
  decide +kernel

/-- V4.31, V4.33, V4.36, V4.37. -/
theorem test_dfr_stf : bo .dfrStf (onBits (be 0x7E41237E2323427E 64)) = some (0x100, [be 0x417E2342 32]) ∧
    bo .dfrStf (onBits (be 0x7E487E697E 40)) = some (0x100, [be 0x48 8, be 0x69 8]) ∧
    bo .dfrStf (onBits (be 0x7E48237E 32)) = some (0x102, []) ∧
    bo .dfrStf (onBits (be 0x487E697E 32)) = some (0x102, []) := by decide +kernel

/-! ## LineCoder -/

/-- V5.1. -/
theorem test_nrz_mod : so .nrzMod { setQ with sps := some 2, fs := some 2, bi := be 0b10110 5 } =
    some (0x100, rats [1, 1, -1, -1, 1, 1, 1, 1, -1, -1], [0, 1/2, 1, 3/2, 2, 5/2, 3, 7/2, 4, 9/2]) := by decide +kernel

/-- V5.5, V5.7. -/
theorem test_nrz_dem : bo .nrzDem { setQ with sps := some 2, si := rats [1/2, -1/5, -1, 3/10] } =
      some (0x100, [be 0b10 2]) ∧
    bo .nrzDem { setQ with sps := some 2, si := rats [1, 1, -1] } = some (0x105, []) := by decide +kernel

/-- V5.11. -/
theorem test_man_mod : so .manMod { setQ with sps := some 3, fs := some 1, bi := be 0b01 2 } =
    some (0x100, rats [-1, 1, 1, 1, -1, -1], [0, 1, 2, 3, 4, 5]) := by decide +kernel

/-- V5.14, V5.15. -/
theorem test_man_dem : bo .manDem { setQ with sps := some 3, si := rats [1, -1, -1, -1, 1, 1] } =
      some (0x100, [be 0b10 2]) ∧
    bo .manDem { setQ with sps := some 2, si := rats [1, 1, -1, -1] } = some (0x100, [be 0b00 2]) := by decide +kernel

/-- V5.20. -/
theorem test_ami_mod : so .amiMod { setQ with sps := some 1, fs := some 1, bi := be 0b1101001 7 } =
    some (0x100, rats [1, -1, 0, 1, 0, 0, -1], [0, 1, 2, 3, 4, 5, 6]) := by decide +kernel

/-- V5.22, V5.23. -/
theorem test_ami_dem : bo .amiDem { setQ with sps := some 1, si := rats [1, 0, 1, -1, 0] } =
      some (0x100, [be 0b10110 5]) ∧
    bo .amiDem { setQ with sps := some 2, thr := 1/2, si := rats [2/5, 2/5, 1, 1/5] } = some (0x100, [be 0b01 2]) := by
  decide +kernel

/-! ## CarrierModulator -/

/-- V6.1. -/
theorem test_ask_mod : so .askMod { setQ with bi := be 0b10 2 } =
    some (0x100, rats [0, 1, 0, -1, 0, 0, 0, 0], [0, 1/4, 1/2, 3/4, 1, 5/4, 3/2, 7/4]) := by decide +kernel

/-- V6.4, V6.6. -/
theorem test_ask_dem : bo .askDem { setQ with si := rats [0, 1, 0, -1, 0, 0, 0, 0] } = some (0x100, [be 0b10 2]) ∧
    bo .askDem { setQ with thr := 1/2, si := rats [0, 1, 0, -1] } = some (0x100, [be 0b0 1]) := by decide +kernel

/-- V6.8, its first window: the second holds the irrational r. -/
theorem test_fsk_mod : (so .fskMod { setF with bi := be 0b10 2 }).map (fun r => (r.1, r.2.1.take 8)) =
    some (0x100, rats [0, 1, 0, -1, 0, 1, 0, -1]) := by decide +kernel

/-- V6.10 (on V6.8's signal), V6.11. -/
theorem test_fsk_dem : bo .fskDem { setF with si := fskMod ⟨8, 1, 8, 1, 2⟩ (be 0b10 2) } = some (0x100, [be 0b10 2]) ∧
    bo .fskDem { setF with si := rats [0, 0, 0, 0, 0, 0, 0, 0] } = some (0x100, [be 0b0 1]) := by decide +kernel

/-- V6.14, V6.17. -/
theorem test_qam_mod : (so .qamMod { setQ with bi := be 0b011111 6 }).map (fun r => (r.1, r.2.1)) =
      some (0x100, rats [1, -1, -1, 1, 2, 0, -2, 0]) ∧
    (so .qamMod { setQ with bi := be 0b1 1 }).map (fun r => (r.1, r.2.1)) = some (0x100, rats [-2, 0, 2, 0]) := by
  decide +kernel

/-- V6.20, V6.22. -/
theorem test_qam_dem : bo .qamDem { setQ with si := rats [-2, 0, 2, 0, 0, -2, 0, 2, 0, 2, 0, -2] } =
      some (0x100, [be 0b100101110 9]) ∧
    bo .qamDem { setQ with si := rats [0, 0, 0, 0] } = some (0x100, [be 0b000 3]) := by decide +kernel

/-! ## Pipeline -/

/-- V7.1b, V7.1c. -/
theorem test_inj_one : bo .injOne { onBits hiBits with injpos := some 15 } =
      some (0x100, [be 0b0100100001101000 16]) ∧
    bo .injOne { onBits hiBits with injpos := some 16 } = some (0x101, []) := by decide +kernel

/-- V7.1f, V7.1i. -/
theorem test_inj_rnd : bo .injRnd { onBits (be 0b1011 4) with injmax := some 0 } = some (0x100, [be 0b1011 4]) ∧
    bo .injRnd { onBits [] with injmax := some 2 } = some (0x100, [[]]) := by decide +kernel

/-- V7.5, V7.12. -/
theorem test_tx : bo .tx { setQ with cfg := 0x24, byi := hi } = some (0x100, [be 0x0719874A685C3838 64]) ∧
    bo .tx { setQ with cfg := 0x03, byi := [0x48, 0x69, 0x21] } = some (0x100, [be 0x7E4869007E7E21007E 72]) := by
  decide +kernel

/-- V7.26, V7.22: the stream of V7.5 with bits 10 and 11 flipped, and that of V7.2 with bit 7 flipped. -/
theorem test_rx : byo .rx (onLine 0x24 (flipBit (flipBit (be 0x0719874A685C3838 64) 10) 11)) =
      some (0x163, [0xD8, 0x69]) ∧
    byo .rx (onLine 0x04 (flipBit (be 0x0648694D170E0E 56) 7)) = some (0x102, []) := by decide +kernel

/-! ## Steps -/

/-- A step from a state with a fetched word runs the command and takes the word from the queue. -/
theorem test_step : (match step ((onBits hiBits).withFetchWord 32 0x12) with
    | .next t => some (t.status, t.bo, t.hostq, t.epoch)
    | .fault _ => none
    | .refused _ => none) = some (0x100, [hiBits ++ be 0x4D170E0E 32], [], 1) := by decide +kernel

/-- R21: a write of the read-only STATUS, of a word or of a real number, changes no register; a real number for an
integer register has no meaning (log 9). -/
theorem test_status_writes : act (.writeWord 1 0xFF) setQ = .next { setQ with epoch := 1 } ∧
    act (.writeReal 1 (1/2)) setQ = .next { setQ with epoch := 1 } ∧
    act (.writeReal 2 (1/2)) setQ = .refused (.wrongRegisterType 2) := ⟨rfl, rfl, rfl⟩

/-! ## Witnesses: the hypotheses of the statements can be met -/

/-- 0x158 differs from TX's word in one high bit; it, 0 and all ones are no command's word. -/
theorem witness_IllegalWordChangesOnlyStatus :
    (∀ i, (0x158#32 : Word) ≠ encode i) ∧ (∀ i, (0#32 : Word) ≠ encode i) ∧
    (∀ i, BitVec.allOnes 32 ≠ encode i) := by
  refine ⟨?_, ?_, ?_⟩ <;> intro i <;> cases i <;> decide

theorem witness_StepRunsTheDecodedCommand :
    (State.reset.withFetchWord 32 0x59).hostq = [.writeWord 0 0x59#32] ∧ decode 0x59#32 = .ok .rx ∧
    decodeTableWord 32 0x59 = some .rx := ⟨rfl, rfl, rfl⟩

theorem witness_StepTakesTheOldestAction :
    State.reset.hostq = [] ∧ ({ State.reset with hostq := [.reset] } : State).hostq = [.reset] := ⟨rfl, rfl⟩

/-- The numbers next to the implemented ones, and a register that is set. -/
theorem witness_RegisterPort :
    (0x09 ≤ 0x09 ∧ 0x09 ≤ 0x0F) ∧ (0x09 ≤ 0x0F ∧ 0x0F ≤ 0x0F) ∧ 0x16 ≤ 0x16 ∧
    setQ.sps = some 4#32 ∧ setQ.injpos = some 0#32 ∧ setQ.injmax = some 1#32 ∧ setQ.amp = some 1 ∧
    setQ.fs = some 4 ∧ setQ.fc = some 1 ∧ setF.flo = some 1 ∧ setF.fhi = some 2 :=
  ⟨by decide, by decide, by decide, rfl, rfl, rfl, rfl, rfl, rfl, rfl, rfl⟩

theorem witness_BufferActions : ({ State.reset with bo := [hiBits] } : State).bo[0]? = some hiBits := rfl

/-- A step that writes a register, from a state with every register set. -/
theorem witness_OnlyResetUnsets :
    ∃ s t : State, step s = .next t ∧ (∀ rest, s.hostq ≠ .reset :: rest) ∧ s.sps.isSome ∧ s.injpos.isSome ∧
      s.injmax.isSome ∧ s.amp.isSome ∧ s.fs.isSome ∧ s.fc.isSome ∧ s.flo.isSome ∧ s.fhi.isSome :=
  ⟨{ setQ with flo := some 1, fhi := some 2, hostq := [.writeWord 2 1] }, _, rfl, (by intro r h; cases h),
    rfl, rfl, rfl, rfl, rfl, rfl, rfl, rfl⟩

theorem witness_CommandChangesOnlyItsOutputs : ∃ t, exec .parAdd (onBits hiBits) = .next t := ⟨_, rfl⟩

/-- One command for every row of R251 with an error, the code in STATUS. -/
theorem witness_ErrorTable :
    (byo .bits2b (onBits [true])).map (fun r => statusErr r.1) = some 6 ∧
    (bo .hamDec (onBits (be 0b10110 5))).map (fun r => statusErr r.1) = some 4 ∧
    (bo .nrzDem { setQ with si := rats [1] }).map (fun r => statusErr r.1) = some 5 ∧
    (byo .rx State.reset).map (fun r => statusErr r.1) = some 1 ∧
    (byo .rx (onLine 0 (be 1 8))).map (fun r => statusErr r.1) = some 2 ∧
    (byo .rx (onLine 2 (be 0x021000 24))).map (fun r => statusErr r.1) = some 3 ∧
    (byo .rx (onLine 0x20 (be 0x028010 24))).map (fun r => statusErr r.1) = some 4 ∧
    (byo .rx { onLine 0 [] with sps := some 2, si := rats [1] }).map (fun r => statusErr r.1) = some 5 := by
  decide +kernel

/-- The four aborting codes: 1 and 2 and 5 and 6. -/
theorem witness_AbortingErrorsDeliverNothing :
    (∃ t, exec .split { State.reset with maxpl := 0 } = .next t ∧ statusErr t.status = 1) ∧
    (∃ t, exec .dfrCnt (onBits (be 1 8)) = .next t ∧ statusErr t.status = 2) ∧
    (∃ t, exec .nrzDem { setQ with si := rats [1] } = .next t ∧ statusErr t.status = 5) ∧
    (∃ t, exec .bits2b (onBits [true]) = .next t ∧ statusErr t.status = 6) :=
  ⟨⟨_, rfl, rfl⟩, ⟨_, rfl, rfl⟩, ⟨_, rfl, rfl⟩, ⟨_, rfl, rfl⟩⟩

/-- Two states that differ in STATUS and BO only. -/
theorem witness_OutputsAreNeverRead :
    ∃ s u s' u' : State, sameRegisters s u ∧ sameInputs s u ∧ u.qamMap = s.qamMap ∧ u.draws = s.draws ∧
      u.bo ≠ s.bo ∧ exec .parAdd s = .next s' ∧ exec .parAdd u = .next u' :=
  ⟨onBits hiBits, { onBits hiBits with bo := [[]], status := 1 }, _, _,
    ⟨rfl, rfl, rfl, rfl, rfl, rfl, rfl, rfl, rfl, rfl, rfl, rfl, rfl⟩, ⟨rfl, rfl, rfl, rfl⟩, rfl, rfl,
    (by intro h; cases h), rfl, rfl⟩

theorem witness_BytesAndBits :
    (onBits []).bi.length % 8 = 0 ∧ (onBits (zeros 8)).bi.length % 8 = 0 ∧ (onBits (zeros 7)).bi.length % 8 ≠ 0 ∧
    0 < (zeros 8).length / 8 := by decide

theorem witness_BitCodecRoundTrip : hiBits.length % 8 = 0 := by decide

theorem witness_ParityAddAndCheck :
    (onBits []).bi = [] ∧ (onBits [true]).bi = [] ++ [true] ∧ (onBits [true, false]).bi = [true] ++ [false] ∧
    [true] ≠ [] := ⟨rfl, rfl, rfl, by decide⟩

theorem witness_ParityProperties :
    0 < (addParity []).length ∧ [true].length = ([] : BitSeq).length + 1 ∧ 1 < (addParity [true]).length := by decide

theorem witness_CrcCheckAndRoundTrip :
    (onBits (zeros 31)).bi.length < 32 ∧ (onBits (zeros 32)).bi = [] ++ zeros 32 ∧ (zeros 32).length = 32 ∧
    (onBits (addCrc32 hiBits)).bi = addCrc32 hiBits := ⟨by decide, rfl, by decide, rfl⟩

theorem witness_HammingGeometry : 0 < hn 1 ∧ 2 < hn 1 := by decide +kernel

theorem witness_HammingEncodes : 0 < rOf (hn [true].length) := by decide +kernel

/-- Syndrome 0, a syndrome equal to the length, one above it. -/
theorem witness_HammingDecodes :
    syndrome [] (rOf 0) = 0 ∧ (0 < syndrome [true] (rOf 1) ∧ syndrome [true] (rOf 1) ≤ 1) ∧
    2 < syndrome [true, true] (rOf 2) := by decide +kernel

/-- The first and the last position of a codeword. -/
theorem witness_HammingCorrectsOneError :
    2 < (hammingEncode [true]).length ∧ 1 ≤ 1 ∧ 3 ≤ (hammingEncode [true]).length ∧ 1 ≠ 3 := by decide +kernel

theorem witness_SplitCuts :
    ({ State.reset with maxpl := 1 } : State).maxpl ≠ 0#32 ∧ ({ State.reset with maxpl := 0 } : State).maxpl = 0#32 ∧
    1 ≤ 1 ∧ 0 < (splitBits [true] 1).length := by decide +kernel

theorem witness_CountedFraming :
    (onBits (zeros 2040)).bi.length ≤ 2040 ∧ 2040 < (onBits (zeros 2041)).bi.length ∧
    State.reset.maxpl ≠ 0#32 ∧ min State.reset.maxpl.toNat 0 ≤ 2040 ∧
    min (2040#32 : Word).toNat (zeros 2041).length ≤ 2040 ∧ 2040 < min (2041#32 : Word).toNat (zeros 2041).length := by
  decide +kernel

/-- An empty chunk, a whole-byte chunk, 7 bits after them; and a stream that is no such thing: one frame cut short. -/
theorem witness_DeframeByCountExactly :
    (∃ (chs : List BitSeq) (rest : BitSeq), (∀ c ∈ chs, c.length % 8 = 0 ∧ c.length ≤ 2040) ∧ rest.length < 8 ∧
      be 0x0001AA 24 ++ zeros 7 = (chs.map fun c => be (c.length / 8) 8 ++ c).flatten ++ rest) ∧
    ¬ ∃ (chs : List BitSeq) (rest : BitSeq), (∀ c ∈ chs, c.length % 8 = 0 ∧ c.length ≤ 2040) ∧ rest.length < 8 ∧
      be 1 8 = (chs.map fun c => be (c.length / 8) 8 ++ c).flatten ++ rest := by
  refine ⟨⟨[[], be 0xAA 8], zeros 7, by decide, by decide, by decide⟩, ?_⟩
  rintro ⟨chs, rest, hc, hr, h⟩
  cases chs with
  | nil => simp at h; subst h; revert hr; decide
  | cons c cs =>
    have hl := congrArg List.length h
    have h0 : (be 1 8).length = 8 := rfl
    have h8 : (be (c.length / 8) 8).length = 8 := rfl
    simp only [List.map_cons, List.flatten_cons, List.length_append, h0, h8] at hl
    have hc0 : c = [] := List.length_eq_zero_iff.mp (by omega)
    subst hc0
    have h2 := congrArg (List.take 8) h
    simp only [List.map_cons, List.flatten_cons, List.append_assoc] at h2
    revert h2
    rw [show List.take 8 (be 1 8) = be 1 8 from rfl, List.take_append_of_le_length (by decide)]
    decide

theorem witness_CountedRoundTrip :
    (∀ c ∈ [[], hiBits, zeros 2040], c.length % 8 = 0 ∧ c.length ≤ 2040) ∧ (zeros 7).length < 8 ∧
    allSome ([[true]].map wrapCount) = some [be 1 8 ++ [true]] ∧ ∃ c ∈ [[true]], c.length % 8 ≠ 0 := by decide +kernel

theorem witness_StuffedFraming :
    State.reset.delim.extractLsb' 0 8 = 0x7E#8 ∧ State.reset.esc.extractLsb' 0 8 = 0x23#8 ∧ (0x7E#8 : Byte) ≠ 0x23#8 ∧
    State.reset.maxpl ≠ 0#32 ∧ (zeros 7).length < 8 ∧
    ({ State.reset with esc := 0x17E } : State).delim.extractLsb' 0 8 =
      ({ State.reset with esc := 0x17E } : State).esc.extractLsb' 0 8 := by decide

/-- An empty and a whole-byte frame with 7 bits after them; the same with an open frame; equal delimiter and escape. -/
theorem witness_DeframeByStuffing :
    State.reset.delim.extractLsb' 0 8 = 0x7E#8 ∧ State.reset.esc.extractLsb' 0 8 = 0x23#8 ∧ (0x7E#8 : Byte) ≠ 0x23#8 ∧
    (∀ c ∈ [[], hiBits], c.length % 8 = 0) ∧ hiBits ≠ [] ∧ (zeros 7).length < 8 ∧
    be 0x7E7E7E48697E 48 ++ zeros 7 = ([[], hiBits].map fun c => wrapStuffed c 0x7E 0x23).flatten ++ zeros 7 ∧
    be 0x7E7E7E4869 40 ++ zeros 7 = ([[]].map fun c => wrapStuffed c 0x7E 0x23).flatten ++ be (0x7E#8 : Byte).toNat 8
      ++ stuffBits hiBits 0x7E 0x23 ++ zeros 7 ∧
    ({ State.reset with esc := 0x17E } : State).delim.extractLsb' 0 8 =
      ({ State.reset with esc := 0x17E } : State).esc.extractLsb' 0 8 := by decide +kernel

/-- As segments: the streams of V4.33 (a shared delimiter) and V4.31, an escape before an ordinary byte, and the streams
of V4.36 (no closing delimiter), V4.37 (payload first) and V4.38 (the escape last); the empty stream. -/
theorem witness_DeframeByStuffing_segments :
    (∀ g ∈ [[(false, 0x48)], [(false, 0x69)], [(false, 0x41), (true, 0x7E), (true, 0x23), (false, 0x42)],
      [(false, 0x48), (true, 0x7E)], [(true, 0x41)], []], segmentOk 0x7E 0x23 g) ∧
    be 0x7E487E697E 40 = bitsOf (tokenStream 0x7E 0x23 [] [[(false, 0x48)], [(false, 0x69)], []] false) ++ [] ∧
    be 0x7E41237E2323427E 64 = bitsOf (tokenStream 0x7E 0x23 []
      [[(false, 0x41), (true, 0x7E), (true, 0x23), (false, 0x42)], []] false) ++ [] ∧
    be 0x7E23417E 32 = bitsOf (tokenStream 0x7E 0x23 [] [[(true, 0x41)], []] false) ++ [] ∧
    be 0x7E48237E 32 = bitsOf (tokenStream 0x7E 0x23 [] [[(false, 0x48), (true, 0x7E)]] false) ++ [] ∧
    be 0x487E697E 32 = bitsOf (tokenStream 0x7E 0x23 [(false, 0x48)] [[(false, 0x69)], []] false) ++ [] ∧
    be 0x7E4823 24 = bitsOf (tokenStream 0x7E 0x23 [] [[(false, 0x48)]] true) ++ [] ∧
    ([] : BitSeq) = bitsOf (tokenStream 0x7E 0x23 [] [] false) ++ [] := by
  refine ⟨?_, by decide +kernel⟩
  unfold segmentOk; decide +kernel

theorem witness_StuffedRoundTrip :
    (0#8 : Byte) ≠ 0xFF#8 ∧ (∀ c ∈ [hiBits], c ≠ [] ∧ c.length % 8 = 0) ∧ (zeros 7).length < 8 ∧
    [true].length % 8 ≠ 0 := by decide

/-- S at its least value for each modulator. -/
theorem witness_LineModulators :
    ∃ s : State, s.sps = some 2#32 ∧ 1 ≤ (1#32 : Word).toNat ∧ 2 ≤ (2#32 : Word).toNat ∧ s.amp = some 1 ∧ (0 : ℚ) < 1 ∧
      s.fs = some 4 ∧ (0 : ℚ) < 4 := ⟨{ setQ with sps := some 2 }, rfl, by decide, by decide, rfl, by norm_num, rfl, by norm_num⟩

theorem witness_LineDemodulators :
    ∃ s : State, s.sps = some 2#32 ∧ 2 ≤ (2#32 : Word).toNat ∧ 0 ≤ s.thr ∧ s.si.length % (2#32 : Word).toNat = 0 ∧
      0 < s.si.length / (2#32 : Word).toNat :=
  ⟨{ setQ with sps := some 2, si := rats [1, -1] }, rfl, by decide, by simp [setQ, State.reset], by decide, by decide⟩

theorem witness_LineRoundTrip :
    ∃ s t u : State, s.sps = some 2#32 ∧ s.amp = some 1 ∧ (0 : ℚ) < 1 ∧ positiveOk s.fs ∧ exec .amiMod s = .next t ∧
      u.sps = some 2#32 ∧ u.si = t.so ∧ 0 ≤ u.thr ∧ u.thr < 1 :=
  ⟨{ setQ with sps := some 2, bi := hiBits }, _, { setQ with sps := some 2, si := amiMod 2 1 hiBits }, rfl, rfl,
    by norm_num, ⟨4, rfl, by norm_num⟩, rfl, rfl, by decide +kernel, by simp [setQ, State.reset],
    by simp [setQ, State.reset]⟩

/-- Every modulator's and demodulator's checks pass in one state and fail after reset. -/
theorem witness_SignalChecksAndTruncation :
    (∃ s : State, (∀ i ∈ modCommands ++ demCommands, signalRegsOk i s) ∧ s.sps = some 2#32 ∧ s.si = [] ∧
      s.si.length % (2#32 : Word).toNat = 0) ∧
    (rats [1]).length % (2#32 : Word).toNat ≠ 0 ∧
    (∀ i ∈ modCommands ++ demCommands, ¬ signalRegsOk i State.reset) := by
  refine ⟨⟨{ setQ with sps := some 2, flo := some 1, fhi := some 2 }, ?_, rfl, rfl, by decide⟩, by decide, ?_⟩
  · simp [modCommands, demCommands, signalRegsOk, spsOk, positiveOk, setQ, State.reset]
  · simp [modCommands, demCommands, signalRegsOk, spsOk, positiveOk, State.reset]

theorem witness_CarrierModulators :
    ∃ s : State, s.sps = some 4#32 ∧ 1 ≤ (4#32 : Word).toNat ∧ s.amp = some 1 ∧ (0 : ℚ) < 1 ∧ s.fs = some 4 ∧
      (0 : ℚ) < 4 ∧ s.fc = some 1 ∧ s.flo = some 1 ∧ s.fhi = some 2 ∧ 0 < s.bi.length ∧
      0 < (s.bi.length + 2) / 3 ∧
      4 = 4 * bitVal (s.bi.getD 0 false) + 2 * bitVal (s.bi.getD 1 false) + bitVal (s.bi.getD 2 false) ∧
      qamMapLegal qamMapDefault = true :=
  ⟨{ setQ with flo := some 1, fhi := some 2, bi := [true] }, rfl, by decide, rfl, by norm_num, rfl, by norm_num, rfl,
    rfl, rfl, by decide, by decide, by decide, by decide⟩

theorem witness_AskDemodulates :
    ∃ s : State, s.sps = some 1#32 ∧ 1 ≤ (1#32 : Word).toNat ∧ 0 ≤ s.thr ∧ s.si.length % (1#32 : Word).toNat = 0 ∧
      0 < s.si.length / (1#32 : Word).toNat :=
  ⟨{ setQ with sps := some 1, si := rats [1] }, rfl, by decide, by simp [setQ, State.reset], by decide, by decide⟩

theorem witness_FskDemodulates :
    ∃ s : State, s.sps = some 1#32 ∧ 1 ≤ (1#32 : Word).toNat ∧ s.fs = some 8 ∧ (0 : ℚ) < 8 ∧ s.flo = some 1 ∧
      s.fhi = some 2 ∧ s.si.length % (1#32 : Word).toNat = 0 ∧ 0 < s.si.length / (1#32 : Word).toNat :=
  ⟨{ setF with sps := some 1, si := rats [1] }, rfl, by decide, rfl, by norm_num, rfl, rfl, by decide, by decide⟩

theorem witness_QamDemodulates :
    ∃ s : State, s.sps = some 1#32 ∧ 1 ≤ (1#32 : Word).toNat ∧ s.amp = some 1 ∧ (0 : ℚ) < 1 ∧ s.fs = some 4 ∧
      (0 : ℚ) < 4 ∧ s.fc = some 1 ∧ s.si.length % (1#32 : Word).toNat = 0 ∧ 0 < s.si.length / (1#32 : Word).toNat :=
  ⟨{ setQ with sps := some 1, si := rats [1] }, rfl, by decide, rfl, by norm_num, rfl, by norm_num, rfl, by decide,
    by decide⟩

/-- One cycle in a window of four samples, the edge being two. -/
theorem witness_AskRoundTrip :
    ∃ s t u : State, s.sps = some 4#32 ∧ s.amp = some 1 ∧ (0 : ℚ) < 1 ∧ s.fs = some 4 ∧ (0 : ℚ) < 4 ∧ s.fc = some 1 ∧
      wholeCycles (4#32 : Word).toNat 1 4 1 ∧ exec .askMod s = .next t ∧ u.sps = some 4#32 ∧ u.si = t.so ∧
      0 ≤ u.thr ∧ u.thr < 1 * 1 / 2 :=
  ⟨{ setQ with bi := [true] }, _, { setQ with si := askMod ⟨4, 1, 4, 1⟩ [true] }, rfl, rfl, by norm_num, rfl,
    by norm_num, rfl, ⟨by norm_num, by decide, by decide⟩, rfl, rfl, by decide +kernel, by simp [setQ, State.reset],
    by norm_num [setQ, State.reset]⟩

/-- One and two cycles in a window of five samples, the least S there is. -/
theorem witness_FskRoundTrip :
    ∃ s t u : State, s.sps = some 5#32 ∧ s.amp = some 1 ∧ (0 : ℚ) < 1 ∧ s.fs = some 5 ∧ (0 : ℚ) < 5 ∧ s.flo = some 1 ∧
      s.fhi = some 2 ∧ wholeCycles (5#32 : Word).toNat 1 5 1 ∧ wholeCycles (5#32 : Word).toNat 2 5 2 ∧ 1 ≠ 2 ∧
      exec .fskMod s = .next t ∧ u.sps = some 5#32 ∧ u.fs = some 5 ∧ u.flo = some 1 ∧ u.fhi = some 2 ∧ u.si = t.so :=
  ⟨{ setF with sps := some 5, fs := some 5, bi := [true] }, _,
    { setF with sps := some 5, fs := some 5, si := fskMod ⟨5, 1, 5, 1, 2⟩ [true] }, rfl, rfl, by norm_num, rfl,
    by norm_num, rfl, rfl, ⟨by norm_num, by decide, by decide⟩, ⟨by norm_num, by decide, by decide⟩, by decide, rfl,
    rfl, rfl, rfl, rfl, by decide +kernel⟩

/-- One cycle in a window of three samples, the least S there is. -/
theorem witness_QamRoundTrip :
    ∃ s t u : State, s.sps = some 3#32 ∧ s.amp = some 1 ∧ (0 : ℚ) < 1 ∧ s.fs = some 3 ∧ (0 : ℚ) < 3 ∧ s.fc = some 1 ∧
      wholeCycles (3#32 : Word).toNat 1 3 1 ∧ qamMapLegal s.qamMap = true ∧ exec .qamMod s = .next t ∧
      u.sps = some 3#32 ∧ u.amp = some 1 ∧ u.fs = some 3 ∧ u.fc = some 1 ∧ u.qamMap = s.qamMap ∧ u.si = t.so :=
  ⟨{ setQ with sps := some 3, fs := some 3, bi := [true] }, _,
    { setQ with sps := some 3, fs := some 3, si := qamMod qamMapDefault ⟨3, 1, 3, 1⟩ [true] }, rfl, rfl,
    by norm_num, rfl, by norm_num, rfl, ⟨by norm_num, by decide, by decide⟩, by decide, rfl, rfl, rfl, rfl, rfl, rfl,
    by decide +kernel⟩

/-- The last bit, the place after it, no position. -/
theorem witness_InjectOneBit :
    ({ onBits hiBits with injpos := some 15 } : State).injpos = some 15#32 ∧
    hiBits = hiBits.take 15 ++ true :: [] ∧ (hiBits.take 15).length = (15#32 : Word).toNat ∧
    hiBits.length ≤ (16#32 : Word).toNat ∧ State.reset.injpos = none := by decide

theorem witness_InjectBoundedBits :
    ({ onBits hiBits with injmax := some 0 } : State).injmax = some 0#32 ∧ State.reset.injmax = none ∧
    popcount [true] ≤ 1 ∧ popcount [] ≤ 0 := by decide

/-- P3's CFG is legal, and so are the all-zero one and the one with every field at its greatest legal code. -/
theorem witness_CfgFieldsAndLegality :
    (readCfg 0x825).isSome ∧ (readCfg 0).isSome ∧ (readCfg 0x16AD).isSome ∧ (readCfg 0x18).isSome = false := by
  decide

theorem witness_LengthsAndInference :
    0 % 8 = 0 ∧ 16 % 8 = 0 ∧ dlen ⟨.count, [.crc32], true, .nrz, .ask, .line, .off⟩ 16 56 = some 16 ∧
    dlen ⟨.count, [.crc32], true, .nrz, .ask, .line, .off⟩ 16 48 = some 8 := by decide +kernel

/-- The five detection lists; Hamming on and off; the last position of a codeword. -/
theorem witness_UnprotectInvertsProtect :
    (∀ det ∈ [[], [.parity], [.crc32], [.parity, .crc32], [.crc32, .parity]],
      ∃ w c, readCfg w = some c ∧ c.det = det ∧ c.ham = true) ∧
    (∃ w c, readCfg w = some c ∧ c.ham = false) ∧
    53 < plen ⟨.count, [.crc32], true, .nrz, .ask, .line, .off⟩ hiBits.length := by
  refine ⟨?_, ⟨0, _, rfl, rfl⟩, by decide +kernel⟩
  simp only [List.forall_mem_cons]
  exact ⟨⟨0x20, _, rfl, rfl, rfl⟩, ⟨0x22, _, rfl, rfl, rfl⟩, ⟨0x24, _, rfl, rfl, rfl⟩, ⟨0x32, _, rfl, rfl, rfl⟩,
    ⟨0x2C, _, rfl, rfl, rfl⟩, by simp⟩

/-- The message "Hi" with CRC-32, Hamming, counted frames, NRZ and ASK, and the given injection. -/
def txS (i : Injection) (k : Nat) : State :=
  { setQ with cfg := 0x24#32 + BitVec.ofNat 32 (2048 * injectionCode i), byi := hi, injpos := some (BitVec.ofNat 32 k) }

/-- Its configuration. -/
def txC (i : Injection) : CfgFields := ⟨.count, [.crc32], true, .nrz, .ask, .line, i⟩

theorem txS_cfg (i : Injection) :
    readCfg (0x24#32 + BitVec.ofNat 32 (2048 * injectionCode i)) = some (txC i) := by cases i <;> decide

theorem txS_ready (i : Injection) (k : Nat) : txReady (txC i) (txS i k) := by
  refine ⟨⟨txS_cfg i, ?_, ?_, by intro h; cases h⟩, ⟨4, rfl, by simp [txC]⟩, ⟨1, rfl, by norm_num⟩,
    ⟨4, rfl, by norm_num⟩, rfl, fun _ => ?_, fun _ => rfl, fun _ => rfl⟩
  · show 0 < (16#32 : Word).toNat; decide
  · show (16#32 : Word).toNat % 8 = 0; decide
  · show alen (txC i) (16#32 : Word).toNat ≤ 2040; cases i <;> decide +kernel

/-- TX answers a next state. -/
theorem tx_next (s : State) : ∃ t, exec .tx s = .next t := by
  show ∃ t, execTx s = .next t
  unfold execTx; split <;> exact ⟨_, rfl⟩

/-- Each injection; the last bit of F (bit 63) and the place after it. -/
theorem witness_TxTransmits :
    txReady (txC .off) (txS .off 0) ∧ txReady (txC .one) (txS .one 63) ∧ txReady (txC .rnd) (txS .rnd 0) ∧
    (txS .one 63).injpos = some 63#32 ∧ (txS .rnd 0).injmax = some 1#32 ∧ (txS .off 0).sps = some 4#32 ∧
    (txS .off 0).amp = some 1 ∧ (txS .off 0).fs = some 4 ∧
    (63#32 : Word).toNat < (frameStream (txC .one) (txS .one 63)).length ∧
    (frameStream (txC .one) (txS .one 64)).length ≤ (64#32 : Word).toNat :=
  ⟨txS_ready _ _, txS_ready _ _, txS_ready _ _, rfl, rfl, rfl, rfl, rfl, by decide +kernel, by decide +kernel⟩

theorem witness_PipelineChecks :
    (¬ ∃ c, txReady c State.reset) ∧ ¬ ∃ c, rxReady c { State.reset with cfg := 0x18 } := by
  refine ⟨?_, ?_⟩
  · rintro ⟨c, -, ⟨S, h, -⟩, -⟩; cases h
  · rintro ⟨c, ⟨h, -⟩, -⟩; revert h; rw [show readCfg 0x18 = none from rfl]; intro h; cases h

/-- RX's checks pass for a legal CFG on a signal of one sample a bit. -/
theorem onLine_ready (cfg : Word) (c : CfgFields) (b : BitSeq) (h : readCfg cfg = some c) (hr : c.rxsrc = .line)
    (hl : c.line = .nrz) : rxReady c (onLine cfg b) ∧ (onLine cfg b).sps = some 1#32 ∧
      (rxSignal c (onLine cfg b)).length % (1#32 : Word).toNat = 0 := by
  refine ⟨⟨⟨h, ?_, ?_, fun _ => ?_⟩, ?_⟩, rfl, Nat.mod_one _⟩
  · show 0 < (16#32 : Word).toNat; decide
  · show (16#32 : Word).toNat % 8 = 0; decide
  · show State.reset.delim.extractLsb' 0 8 ≠ State.reset.esc.extractLsb' 0 8; decide
  · show signalRegsOk (rxDemCommand c) _
    simp only [rxDemCommand, hr, hl]; exact ⟨1, rfl, by decide⟩

/-- Both framings: a stream the deframer refuses (a count without its byte; V4.37); a chunk of a length that no d has
(V7.29); V7.5's stream, with its one chunk; the empty signal; and one sample where a window has two. -/
theorem witness_RxReceives :
    (rxReady ⟨.count, [], false, .nrz, .ask, .line, .off⟩ (onLine 0 (be 1 8)) ∧
      rxChunks ⟨.count, [], false, .nrz, .ask, .line, .off⟩ (onLine 0 (be 1 8))
        (rxBits ⟨.count, [], false, .nrz, .ask, .line, .off⟩ (onLine 0 (be 1 8)) 1) = none) ∧
    (rxReady ⟨.stuff, [], false, .nrz, .ask, .line, .off⟩ (onLine 1 (be 0x487E697E 32)) ∧
      rxChunks ⟨.stuff, [], false, .nrz, .ask, .line, .off⟩ (onLine 1 (be 0x487E697E 32))
        (rxBits ⟨.stuff, [], false, .nrz, .ask, .line, .off⟩ (onLine 1 (be 0x487E697E 32)) 1) = none) ∧
    (rxReady ⟨.count, [.crc32], false, .nrz, .ask, .line, .off⟩ (onLine 4 (be 0x024869 24)) ∧
      rxChunks ⟨.count, [.crc32], false, .nrz, .ask, .line, .off⟩ (onLine 4 (be 0x024869 24))
        (rxBits ⟨.count, [.crc32], false, .nrz, .ask, .line, .off⟩ (onLine 4 (be 0x024869 24)) 1) = some [hiBits] ∧
      ∃ q ∈ [hiBits], ∀ d, ¬ chunkLength ⟨.count, [.crc32], false, .nrz, .ask, .line, .off⟩ 16 q.length d) ∧
    (rxReady (txC .off) (onLine 0x24 (be 0x0719874A685C3838 64)) ∧
      rxChunks (txC .off) (onLine 0x24 (be 0x0719874A685C3838 64))
        (rxBits (txC .off) (onLine 0x24 (be 0x0719874A685C3838 64)) 1) = some [be 0x19874A685C3838 56] ∧
      List.Forall₂ (fun q u => ∃ d, chunkLength (txC .off) 16 q.length d ∧ u = unprotect (txC .off) q d)
        [be 0x19874A685C3838 56] [⟨hiBits, [true], false, false⟩]) ∧
    rxChunks (txC .off) (onLine 0x24 []) (rxBits (txC .off) (onLine 0x24 []) 1) = some [] ∧
    (∃ (c : CfgFields) (s : State), rxReady c s ∧ s.sps = some 2#32 ∧
      (rxSignal c s).length % (2#32 : Word).toNat ≠ 0) := by
  refine ⟨⟨(onLine_ready _ _ _ rfl rfl rfl).1, by decide +kernel⟩, ⟨(onLine_ready _ _ _ rfl rfl rfl).1, by decide +kernel⟩,
    ⟨(onLine_ready _ _ _ rfl rfl rfl).1, by decide +kernel, hiBits, by simp, ?_⟩,
    ⟨(onLine_ready _ _ _ (by decide) rfl rfl).1, by decide +kernel, ?_⟩, by decide +kernel,
    txC .off, { onLine 0x24 [] with sps := some 2, si := rats [1] }, ⟨⟨rfl, by decide, by decide, ?_⟩, ?_⟩, rfl,
    by decide⟩
  · rintro d ⟨h8, h16, h, ha⟩
    have : d = 8 ∨ d = 16 := by omega
    rcases this with rfl | rfl <;> revert ha <;> decide +kernel
  · exact .cons ⟨16, ⟨by decide, by decide, by decide, by decide +kernel⟩, by decide +kernel⟩ .nil
  · intro h; cases h
  · exact ⟨2, rfl, by decide⟩

theorem witness_RxReadsOnlyItsSource :
    (∃ c t, readCfg (onLine 0 []).cfg = some c ∧ c.rxsrc = .line ∧ exec .rx (onLine 0 []) = .next t) ∧
    (∃ c t, readCfg (onLine 0x400 []).cfg = some c ∧ c.rxsrc = .carrier ∧ exec .rx (onLine 0x400 []) = .next t) :=
  ⟨⟨_, _, rfl, rfl, rfl⟩, ⟨_, _, rfl, rfl, rfl⟩⟩

/-- With injection of the last bit of F on the transmit side and none on the receive side. -/
theorem witness_PipelineRoundTripLine :
    ∃ (c : CfgFields) (s t u : State), txReady c s ∧ s.amp = some 1 ∧
      (c.inj = .one → ∀ k, s.injpos = some k → k.toNat < (frameStream c s).length) ∧ exec .tx s = .next t ∧
      readCfg u.cfg = some { c with inj := .off, rxsrc := .line } ∧ sameParameters s u ∧
      (c.line = .ami → 0 ≤ u.thr ∧ u.thr < 1) ∧ u.si = t.sd ∧ s.byi ≠ [] := by
  obtain ⟨t, ht⟩ := tx_next (txS .one 63)
  refine ⟨txC .one, txS .one 63, t, { setQ with cfg := 0x24, si := t.sd }, txS_ready _ _, rfl, ?_, ht,
    (show readCfg 0x24 = _ by decide), ⟨rfl, rfl, rfl, rfl, rfl, rfl, rfl, rfl, rfl, rfl⟩, ?_, rfl, by decide⟩
  · intro _ k h
    have : k = 63#32 := by simpa [txS] using h.symm
    subst this; decide +kernel
  · intro h; cases h

/-- The same on the carrier, one cycle in a window. -/
theorem witness_PipelineRoundTripCarrier :
    ∃ (c : CfgFields) (s t u : State), txReady c s ∧ s.sps = some 4#32 ∧ s.amp = some 1 ∧ s.fs = some 4 ∧
      c.inj = .off ∧ exec .tx s = .next t ∧
      readCfg u.cfg = some { c with inj := .off, rxsrc := .carrier } ∧ sameParameters s u ∧
      carrierInvertible c.carr u (4#32 : Word).toNat 1 4 ∧ u.si2 = t.sc := by
  obtain ⟨t, ht⟩ := tx_next (txS .off 0)
  refine ⟨txC .off, txS .off 0, t, { setQ with cfg := 0x424, si2 := t.sc }, txS_ready _ _, rfl, rfl, rfl, rfl, ht,
    (show readCfg 0x424 = _ by decide), ⟨rfl, rfl, rfl, rfl, rfl, rfl, rfl, rfl, rfl, rfl⟩, ⟨le_refl _, ?_, 1, ?_, by decide, by decide⟩, rfl⟩
  · show (0 : ℚ) < _; norm_num
  · show (1 : ℚ) * ((4 : Nat) : ℚ) / 4 = ((1 : Nat) : ℚ); norm_num

theorem witness_StepKeepsLegal : ∃ s t : State, s.Legal ∧ step s = .next t ∧ s.hostq ≠ [] :=
  ⟨State.reset.withFetchWord 32 0x59, _, by decide, rfl, by decide⟩

end Sys2Proof.Tests
end

