-- ==== Sys2Proof/Proofs/State.lean ====
section
/-! The statements of family 10 (spec/10_state.md): the STATUS word, the register port, CFG, and what every command and
every step keeps. The two inversion lemmas `exec_ends` (what a command can do) and `step_cases` (what a step can do)
carry the invariants; no invariant opens `exec` or `act` again. -/

namespace Sys2Proof.Machine

/-! ## The STATUS word (R35) -/

theorem errCode_le (e : Err) : errCode e ≤ 6 := by cases e <;> decide

theorem statusWord_toNat (e : Err) (f : Flags) :
    (statusWord e f).toNat = errCode e + f.chk.toNat * 16 + f.detfail.toNat * 32 + f.corrected.toNat * 64 +
      f.corrfail.toNat * 128 + 256 := by
  have he := errCode_le e
  have h4 := Bool.toNat_le f.chk
  have h5 := Bool.toNat_le f.detfail
  have h6 := Bool.toNat_le f.corrected
  have h7 := Bool.toNat_le f.corrfail
  rw [statusWord, BitVec.toNat_ofNat]
  omega

/-- A bit of a word, read off its number. -/
theorem getLsbD_eq_of_toNat {n k : Nat} {w : BitVec n} {b : Bool} (h : w.toNat / 2 ^ k % 2 = b.toNat) :
    w.getLsbD k = b := by
  rw [BitVec.getLsbD, Nat.testBit_eq_decide_div_mod_eq, h]
  cases b <;> rfl

/-- Settles O10: the number of the word is a sum of its fields at their weights, and each field is read off it. -/
theorem statusWordFields : Obligations.StatusWordFields := by
  intro e f
  have hw := statusWord_toNat e f
  have he := errCode_le e
  have h4 := Bool.toNat_le f.chk
  have h5 := Bool.toNat_le f.detfail
  have h6 := Bool.toNat_le f.corrected
  have h7 := Bool.toNat_le f.corrfail
  refine ⟨BitVec.eq_of_toNat_eq ?_, getLsbD_eq_of_toNat ?_, getLsbD_eq_of_toNat ?_, getLsbD_eq_of_toNat ?_,
    getLsbD_eq_of_toNat ?_, getLsbD_eq_of_toNat ?_, BitVec.eq_of_toNat_eq ?_⟩
  · rw [BitVec.extractLsb'_toNat, BitVec.toNat_ofNat, Nat.shiftRight_zero]; omega
  · omega
  · omega
  · omega
  · omega
  · rw [Bool.toNat_true]; omega
  · rw [BitVec.extractLsb'_toNat, BitVec.toNat_ofNat, Nat.shiftRight_eq_div_pow]; omega

@[simp] theorem statusErr_statusWord (e : Err) (f : Flags) : statusErr (statusWord e f) = errCode e := by
  have he := errCode_le e
  obtain ⟨h, -⟩ := statusWordFields e f
  rw [statusErr, h, BitVec.toNat_ofNat]
  omega

@[simp] theorem statusChk_statusWord (e : Err) (f : Flags) : statusChk (statusWord e f) = f.chk := by
  obtain ⟨-, h, -⟩ := statusWordFields e f
  exact h

@[simp] theorem statusDetfail_statusWord (e : Err) (f : Flags) : statusDetfail (statusWord e f) = f.detfail := by
  obtain ⟨-, -, h, -⟩ := statusWordFields e f
  exact h

@[simp] theorem statusCorrected_statusWord (e : Err) (f : Flags) :
    statusCorrected (statusWord e f) = f.corrected := by
  obtain ⟨-, -, -, h, -⟩ := statusWordFields e f
  exact h

@[simp] theorem statusCorrfail_statusWord (e : Err) (f : Flags) :
    statusCorrfail (statusWord e f) = f.corrfail := by
  obtain ⟨-, -, -, -, h, -⟩ := statusWordFields e f
  exact h

@[simp] theorem statusDone_statusWord (e : Err) (f : Flags) : statusDone (statusWord e f) = true := by
  obtain ⟨-, -, -, -, -, h, -⟩ := statusWordFields e f
  exact h

@[simp] theorem statusReserved_statusWord (e : Err) (f : Flags) : (statusWord e f).extractLsb' 9 23 = 0#23 := by
  obtain ⟨-, -, -, -, -, -, h⟩ := statusWordFields e f
  exact h

/-! ### Legal STATUS words (R36, R231, R240, R246) -/

/-- Which flags go with which error code: `statusLegal` said of the parts of a STATUS word. -/
def flagsFit (e : Err) (f : Flags) : Prop :=
  (f.chk && f.detfail) = false ∧
  match e with
  | .ok => f.detfail = false ∧ f.corrfail = false
  | .detection => f.detfail = true ∧ f.corrfail = false
  | .correction => f.corrfail = true
  | .config | .framing | .truncation | .alignment => f = noFlags

theorem statusLegal_statusWord {e : Err} {f : Flags} (h : flagsFit e f) : statusLegal (statusWord e f) := by
  obtain ⟨hc, he⟩ := h
  have hle := errCode_le e
  simp only [statusLegal, statusReserved_statusWord, statusDone_statusWord, statusErr_statusWord,
    statusChk_statusWord, statusDetfail_statusWord, statusCorrected_statusWord, statusCorrfail_statusWord]
  cases e with
  | ok => simp_all [errCode]
  | detection => simp_all [errCode]
  | correction => simp_all [errCode]
  | config | framing | truncation | alignment => subst he; simp [errCode, noFlags]

/-- The errors that abort a command and write its outputs empty (R246). -/
def aborting (e : Err) : Prop := e = .config ∨ e = .framing ∨ e = .truncation ∨ e = .alignment

theorem flagsFit_of_aborting {e : Err} (h : aborting e) : flagsFit e noFlags := by
  rcases h with rfl | rfl | rfl | rfl <;> exact ⟨rfl, rfl⟩

theorem flagsFit_ok : flagsFit .ok noFlags := ⟨rfl, rfl, rfl⟩

/-- A detection check passes with CHK or is a DetectionError with DETFAIL (R102, R107). -/
theorem flagsFit_check (passed : Bool) : flagsFit (if passed then .ok else .detection) (checkFlags passed) := by
  cases passed
  · exact ⟨rfl, rfl, rfl⟩
  · exact ⟨rfl, rfl, rfl⟩

/-- A Hamming decode is OK or a CorrectionFailure with CORRFAIL (R115). -/
theorem flagsFit_decode (corrected failed : Bool) :
    flagsFit (if failed then .correction else .ok) (decodeFlags corrected failed) := by
  cases failed
  · exact ⟨rfl, rfl, rfl⟩
  · exact ⟨rfl, rfl⟩

/-- RX's CHK wants every check to pass, its DETFAIL one that fails (R231). -/
theorem rxFlags_chk_detfail (us : List Unprotected) : ((rxFlags us).chk && (rxFlags us).detfail) = false := by
  simp only [rxFlags, Bool.and_eq_false_iff, List.all_eq_false, List.any_eq_false]
  by_cases h : ∃ b ∈ allChecks us, ¬ id b = true
  · exact .inl (.inr h)
  · push Not at h
    exact .inr fun b hb => by simpa using h b hb

/-- RX's error code goes with its flags (R231, R250). -/
theorem flagsFit_rxErr {f : Flags} (h : (f.chk && f.detfail) = false) : flagsFit (rxErr f) f := by
  refine ⟨h, ?_⟩
  unfold rxErr
  cases hc : f.corrfail with
  | true => rfl
  | false =>
    cases hd : f.detfail with
    | true => exact ⟨rfl, rfl⟩
    | false => exact ⟨rfl, rfl⟩

/-! ## How a command ends

Every command ends in one way: it writes the output buffers it owns, STATUS in full, and nothing else. `Ending` is what
it writes, `State.endWith` the writing, and `exec_ends` ties both to `exec`. -/

/-- The values written to the output buffers that a command owns. -/
inductive Outputs : Owned → Type where
  | nothing : Outputs .nothing
  | bo (l : List BitSeq) : Outputs .bo
  | byo (ys : List Byte) : Outputs .byo
  | signal (x : List Sample) (t : List ℚ) : Outputs .signal
  | tx (l : List BitSeq) (sd : List Sample) (td : List ℚ) (sc : List Sample) (tc : List ℚ) (sde : List Sample)
      (tde : List ℚ) (sce : List Sample) (tce : List ℚ) : Outputs .tx
  | rx (ys : List Byte) (l : List BitSeq) : Outputs .rx

/-- All owned buffers empty, as an aborting error leaves them (R246). -/
def Outputs.empty : (o : Owned) → Outputs o
  | .nothing => .nothing
  | .bo => .bo []
  | .byo => .byo []
  | .signal => .signal [] []
  | .tx => .tx [] [] [] [] [] [] [] [] []
  | .rx => .rx [] []

/-- Every signal written has a time axis of its own length (R58). -/
def Outputs.axesFit {o : Owned} : Outputs o → Prop
  | .nothing | .bo _ | .byo _ | .rx _ _ => True
  | .signal x t => t.length = x.length
  | .tx _ sd td sc tc sde tde sce tce =>
    td.length = sd.length ∧ tc.length = sc.length ∧ tde.length = sde.length ∧ tce.length = sce.length

/-- The owned buffers written. -/
def State.write {o : Owned} (out : Outputs o) (s : State) : State :=
  match out with
  | .nothing => s
  | .bo l => s.putBo l
  | .byo ys => s.putByo ys
  | .signal x t => s.putSo x t
  | .tx l sd td sc tc sde tde sce tce => ((s.putBo l).putTxSignals sd td sc tc).putTxErrorSignals sde tde sce tce
  | .rx ys l => (s.putByo ys).putBo l

/-- What a command leaves: error code, flags, owned outputs, and how many masks the injector drew. -/
structure Ending (o : Owned) where
  err : Err
  flags : Flags
  out : Outputs o
  draws : Nat

/-- The end by an aborting error (R246). -/
def Ending.raised (o : Owned) (e : Err) : Ending o := ⟨e, noFlags, .empty o, 0⟩

/-- The end of a command that answers packets or an aborting error. -/
def Ending.ofPackets (r : Except Err (List BitSeq)) : Ending .bo :=
  match r with
  | .ok l => ⟨.ok, noFlags, .bo l, 0⟩
  | .error e => .raised .bo e

/-- The end of a command that answers a signal with its time axis or an aborting error. -/
def Ending.ofSignal (r : Except Err (List Sample × List ℚ)) : Ending .signal :=
  match r with
  | .ok (x, t) => ⟨.ok, noFlags, .signal x t, 0⟩
  | .error e => .raised .signal e

/-- The end of a detection check (R102, R107). -/
def Ending.ofCheck (payload : BitSeq) (passed : Bool) : Ending .bo :=
  ⟨if passed then .ok else .detection, checkFlags passed, .bo [payload], 0⟩

/-- An end that the spec allows: the flags go with the code, the time axes with the signals. -/
def Ending.Legal {o : Owned} (r : Ending o) : Prop := flagsFit r.err r.flags ∧ r.out.axesFit

/-- A command ends. -/
def State.endWith {o : Owned} (r : Ending o) (s : State) : State :=
  { s.write r.out with status := statusWord r.err r.flags, draws := s.draws + r.draws }

/-! ### The model's ways to end a command are endings -/

theorem raise_eq_endWith (o : Owned) (e : Err) (s : State) : s.raise o e = s.endWith (.raised o e) := by
  cases o <;> rfl

theorem finishBo_eq_endWith (r : Except Err (List BitSeq)) (s : State) :
    s.finishBo r = s.endWith (.ofPackets r) := by
  cases r <;> rfl

theorem finishSignal_eq_endWith (r : Except Err (List Sample × List ℚ)) (s : State) :
    s.finishSignal r = s.endWith (.ofSignal r) := by
  cases r <;> rfl

theorem finishCheck_eq_endWith (p : BitSeq) (passed : Bool) (s : State) :
    s.finishCheck p passed = s.endWith (.ofCheck p passed) := rfl

theorem countDraw_endWith {o : Owned} (r : Ending o) (s : State) :
    (s.endWith r).countDraw = s.endWith { r with draws := r.draws + 1 } := rfl

/-! ### What an ending changes and what it leaves -/

section Frame
variable {o : Owned} (r : Ending o) (s : State)

@[simp] theorem State.endWith_status : (s.endWith r).status = statusWord r.err r.flags := rfl

@[simp] theorem State.endWith_draws : (s.endWith r).draws = s.draws + r.draws := rfl

@[simp] theorem State.write_draws (out : Outputs o) : (s.write out).draws = s.draws := by cases out <;> rfl

/-- Registers, inputs, the host's side and QAM_MAP are no outputs. -/
theorem write_frame (out : Outputs o) :
    sameRegisters s (s.write out) ∧ sameInputs s (s.write out) ∧ sameHost s (s.write out) ∧
      (s.write out).qamMap = s.qamMap := by
  cases out <;> simp [State.write, sameRegisters, sameInputs, sameHost]

theorem sameRegisters_endWith : sameRegisters s (s.endWith r) := by
  obtain ⟨h, -⟩ := write_frame s r.out
  exact h

theorem sameInputs_endWith : sameInputs s (s.endWith r) := by
  obtain ⟨-, h, -⟩ := write_frame s r.out
  exact h

theorem sameHost_endWith : sameHost s (s.endWith r) := by
  obtain ⟨-, -, h, -⟩ := write_frame s r.out
  exact h

@[simp] theorem State.endWith_qamMap : (s.endWith r).qamMap = s.qamMap := by
  obtain ⟨-, -, -, h⟩ := write_frame s r.out
  exact h

theorem sameOutputsBut_endWith : sameOutputsBut o s (s.endWith r) := by
  obtain ⟨e, f, out, n⟩ := r
  cases out <;> simp [State.endWith, State.write, sameOutputsBut, sameModOutputs, sameTxOutputs]

/-- The owned outputs depend on the ending alone. -/
theorem sameOwned_endWith (u : State) : sameOwned o (s.endWith r) (u.endWith r) := by
  obtain ⟨e, f, out, n⟩ := r
  cases out <;> simp [State.endWith, State.write, sameOwned, sameModOutputs, sameTxOutputs]

variable {s}

theorem axesLegal_write {out : Outputs o} (hs : axesLegal s) (hout : out.axesFit) : axesLegal (s.write out) := by
  obtain ⟨hso, htx⟩ := hs
  cases out with
  | nothing | bo | byo | rx => simpa [axesLegal, State.write] using ⟨hso, htx⟩
  | signal => simpa [axesLegal, State.write] using ⟨hout, htx⟩
  | tx => simpa [axesLegal, State.write] using ⟨hso, hout⟩

/-- An ending that the spec allows keeps the invariant. -/
theorem State.Legal.endWith {r : Ending o} (hr : r.Legal) (hs : s.Legal) : (s.endWith r).Legal := by
  obtain ⟨hflags, haxes⟩ := hr
  obtain ⟨-, hs, hmap⟩ := hs
  exact ⟨statusLegal_statusWord hflags, axesLegal_write hs haxes,
    (congrArg qamMapLegal (State.endWith_qamMap r s)).trans hmap⟩

end Frame

theorem Ending.raised_legal {o : Owned} {e : Err} (h : aborting e) : (Ending.raised o e).Legal := by
  refine ⟨flagsFit_of_aborting h, ?_⟩
  cases o <;> simp [Ending.raised, Outputs.empty, Outputs.axesFit]

/-! ### Results that fail with an aborting error only -/

/-- Every error of a result is an aborting one. -/
def abortsOnly {α : Type} (r : Except Err α) : Prop := ∀ e, r = .error e → aborting e

@[simp] theorem abortsOnly_ok {α : Type} (x : α) : abortsOnly (.ok x) := fun _ h => nomatch h

@[simp] theorem abortsOnly_orConfig {α : Type} (r : Option α) : abortsOnly (orConfig r) :=
  fun _ h => .inl (orConfig_eq_error.1 h).2

@[simp] theorem abortsOnly_orFraming {α : Type} (r : Option α) : abortsOnly (orFraming r) :=
  fun _ h => .inr (.inl (orFraming_eq_error.1 h).2)

theorem abortsOnly_andThen {α β : Type} {r : Except Err α} {f : α → Except Err β} (hr : abortsOnly r)
    (hf : ∀ x, abortsOnly (f x)) : abortsOnly (andThen r f) := by
  intro e h
  rcases andThen_eq_error.1 h with h | ⟨x, -, h⟩
  · exact hr e h
  · exact hf x e h

theorem abortsOnly_demodulate (m : Option Demodulator) (x : List Sample) : abortsOnly (demodulate m x) := by
  refine abortsOnly_andThen (abortsOnly_orConfig m) fun m => ?_
  split
  · exact abortsOnly_ok _
  · rintro e ⟨⟩
    exact .inr (.inr (.inl rfl))

theorem abortsOnly_demodulatePacket (m : Option Demodulator) (x : List Sample) :
    abortsOnly (demodulatePacket m x) :=
  abortsOnly_andThen (abortsOnly_demodulate m x) fun _ => abortsOnly_ok _

theorem Ending.ofPackets_legal {r : Except Err (List BitSeq)} (h : abortsOnly r) : (Ending.ofPackets r).Legal := by
  cases r with
  | ok l => exact ⟨flagsFit_ok, trivial⟩
  | error e => exact raised_legal (h e rfl)

@[simp] theorem timeAxis_length (fs : ℚ) (n : Nat) : (timeAxis fs n).length = n := by simp [timeAxis]

theorem Ending.ofSignal_modulate_legal (m : Option Modulator) (b : BitSeq) :
    (Ending.ofSignal (modulate m b)).Legal := by
  cases m with
  | none => exact raised_legal (.inl rfl)
  | some m => exact ⟨flagsFit_ok, timeAxis_length _ _⟩

theorem Ending.ofCheck_legal (p : BitSeq) (passed : Bool) : (Ending.ofCheck p passed).Legal :=
  ⟨flagsFit_check passed, trivial⟩

/-! ## What a command reads -/

/-- The state with everything that no command reads blanked out: STATUS, the output buffers, the host's side. -/
def State.sources (s : State) : State :=
  { s with
    status := 0, byo := [], bo := [], so := [], tO := [], sd := [], td := [], sc := [], tc := [], sde := [], tde := []
    sce := [], tce := [], hostq := [], rdata := none, epoch := 0 }

theorem sources_eq {s u : State} (hregs : sameRegisters s u) (hins : sameInputs s u) (hmap : u.qamMap = s.qamMap)
    (hdraws : u.draws = s.draws) : u.sources = s.sources := by
  simp_all [State.sources, sameRegisters, sameInputs]

/-- On every state with the sources of `s`, `f` makes one and the same legal ending, with at most `n` draws. -/
def EndsFrom (f : State → Host.Outcome State Fault Refusal) (o : Owned) (n : Nat) (s : State) : Prop :=
  ∃ r : Ending o, r.Legal ∧ r.draws ≤ n ∧ ∀ u : State, u.sources = s.sources → f u = .next (u.endWith r)

/-- A meaning whose ending is a function of the sources makes one ending from them. -/
theorem endsFrom_of_sources {f : State → Host.Outcome State Fault Refusal} {o : Owned} {n : Nat} {s : State}
    (E : State → Ending o) (hf : ∀ u, f u = .next (u.endWith (E u.sources))) (hlegal : (E s.sources).Legal)
    (hdraws : (E s.sources).draws ≤ n) : EndsFrom f o n s :=
  ⟨E s.sources, hlegal, hdraws, fun u hu => by rw [hf, hu]⟩

theorem endsFrom_finishBo {s : State} (g : State → Except Err (List BitSeq)) (hg : ∀ u, g u = g u.sources)
    (habort : ∀ u, abortsOnly (g u)) : EndsFrom (fun u => .next (u.finishBo (g u))) .bo 0 s :=
  endsFrom_of_sources (fun u => .ofPackets (g u)) (fun u => by rw [finishBo_eq_endWith, hg u])
    (Ending.ofPackets_legal (habort _)) (by cases g s.sources <;> exact Nat.zero_le _)

theorem endsFrom_finishSignal {s : State} (m : State → Option Modulator) (hm : ∀ u, m u = m u.sources) :
    EndsFrom (fun u => .next (u.finishSignal (modulate (m u) u.bi))) .signal 0 s :=
  endsFrom_of_sources (fun u => .ofSignal (modulate (m u) u.bi))
    (fun u => by rw [finishSignal_eq_endWith, hm u]; rfl)
    (Ending.ofSignal_modulate_legal _ _) (by cases m s.sources <;> exact Nat.zero_le _)

theorem endsFrom_demodulate {s : State} (m : State → Option Demodulator) (hm : ∀ u, m u = m u.sources) :
    EndsFrom (fun u => .next (u.finishBo (demodulatePacket (m u) u.si))) .bo 0 s :=
  endsFrom_finishBo (fun u => demodulatePacket (m u) u.si) (fun u => by rw [hm u]; rfl)
    fun _ => abortsOnly_demodulatePacket _ _

theorem endsFrom_bits2b (s : State) : EndsFrom execBits2b .byo 0 s := by
  refine endsFrom_of_sources (fun u => if u.bi.length % 8 = 0 then ⟨.ok, noFlags, .byo (bytesOf u.bi), 0⟩
    else .raised .byo .alignment) (fun u => ?_) ?_ ?_
  · rw [execBits2b, raise_eq_endWith, apply_ite (State.endWith · u)]; rfl
  · split
    · exact ⟨flagsFit_ok, trivial⟩
    · exact Ending.raised_legal (.inr (.inr (.inr rfl)))
  · split <;> exact Nat.zero_le _

/-- PAR.CHK and CRC.CHK: an input too short for the trailer fails, another is cut and checked (R102, R107). -/
theorem endsFrom_check (short : BitSeq → Prop) [DecidablePred short] (payload : BitSeq → BitSeq)
    (check : BitSeq → Bool) (s : State) :
    EndsFrom (fun u => .next (if short u.bi then u.finishCheck [] false
      else u.finishCheck (payload u.bi) (check u.bi))) .bo 0 s := by
  refine endsFrom_of_sources (fun u => if short u.bi then .ofCheck [] false
    else .ofCheck (payload u.bi) (check u.bi)) (fun u => ?_) ?_ ?_
  · rw [finishCheck_eq_endWith, finishCheck_eq_endWith, apply_ite (State.endWith · u)]; rfl
  · split <;> exact Ending.ofCheck_legal _ _
  · split <;> exact Nat.zero_le _

/-- The ending of HAM.DEC (R115). -/
def hamDecEnding (d : Decoded) : Ending .bo :=
  ⟨if d.failed then .correction else .ok, decodeFlags d.corrected d.failed, .bo [d.data], 0⟩

theorem endsFrom_hamDec (s : State) : EndsFrom execHamDec .bo 0 s :=
  endsFrom_of_sources (fun u => hamDecEnding (hammingDecode u.bi)) (fun _ => rfl)
    ⟨flagsFit_decode _ _, trivial⟩ le_rfl

/-- The ending of INJ.RND: the masked bits and one draw, or the error of an unset INJMAX (R212). -/
def injRndEnding (u : State) : Ending .bo :=
  match u.injmax with
  | some k => ⟨.ok, noFlags, .bo [xorBits u.bi (drawMask u.draws k.toNat u.bi.length)], 1⟩
  | none => .raised .bo .config

theorem endsFrom_injRnd (s : State) : EndsFrom execInjRnd .bo 1 s := by
  refine endsFrom_of_sources injRndEnding (fun u => ?_) ?_ ?_
  · have hu : injRndEnding u.sources = injRndEnding u := rfl
    rw [hu, execInjRnd, injRndEnding]
    cases u.injmax with
    | some k => dsimp only; rw [finishBo_eq_endWith, countDraw_endWith]; rfl
    | none => exact congrArg _ (raise_eq_endWith .bo .config u)
  · rw [injRndEnding]
    split
    · exact ⟨flagsFit_ok, trivial⟩
    · exact Ending.raised_legal (.inl rfl)
  · rw [injRndEnding]
    split
    · exact Nat.le_refl 1
    · exact Nat.zero_le _

/-- What TX writes (R224). -/
def txOutputs (p : TxPlan) (F : BitSeq) (fe : Option BitSeq) : Outputs .tx :=
  match fe with
  | none => .tx [F] (p.line.signal F) (timeAxis p.line.fs (p.line.signal F).length)
      (p.carr.signal F) (timeAxis p.carr.fs (p.carr.signal F).length) [] [] [] []
  | some Fe => .tx [F, Fe] (p.line.signal F) (timeAxis p.line.fs (p.line.signal F).length)
      (p.carr.signal F) (timeAxis p.carr.fs (p.carr.signal F).length)
      (p.line.signal Fe) (timeAxis p.line.fs (p.line.signal Fe).length)
      (p.carr.signal Fe) (timeAxis p.carr.fs (p.carr.signal Fe).length)

theorem txOutputs_axesFit (p : TxPlan) (F : BitSeq) (fe : Option BitSeq) : (txOutputs p F fe).axesFit := by
  cases fe <;> simp [txOutputs, Outputs.axesFit]

/-- How many masks TX draws (R224). -/
def txDraws (i : Injection) : Nat := if i = .rnd then 1 else 0

/-- The ending of TX. -/
def txEnding (r : Except Err (TxPlan × BitSeq × Option BitSeq)) : Ending .tx :=
  match r with
  | .ok (p, F, fe) => ⟨.ok, noFlags, txOutputs p F fe, txDraws p.cfg.inj⟩
  | .error e => .raised .tx e

theorem putTx_eq_write (p : TxPlan) (F : BitSeq) (fe : Option BitSeq) (s : State) :
    s.putTx p F fe = s.write (txOutputs p F fe) := by
  cases fe <;> rfl

theorem countTxDraw_eq (i : Injection) (s : State) : s.countTxDraw i = { s with draws := s.draws + txDraws i } := by
  cases i <;> rfl

theorem putTx_eq_endWith (p : TxPlan) (F : BitSeq) (fe : Option BitSeq) (s : State) :
    ((s.putTx p F fe).countTxDraw p.cfg.inj).complete .ok noFlags = s.endWith (txEnding (.ok (p, F, fe))) := by
  rw [putTx_eq_write, countTxDraw_eq, State.write_draws]
  rfl

theorem abortsOnly_txRun (s : State) : abortsOnly (txRun s) :=
  abortsOnly_andThen (abortsOnly_orConfig _) fun _ =>
    abortsOnly_andThen (abortsOnly_orFraming _) fun _ =>
      abortsOnly_andThen (abortsOnly_orConfig _) fun _ => abortsOnly_ok _

theorem endsFrom_tx (s : State) : EndsFrom execTx .tx 1 s := by
  refine endsFrom_of_sources (fun u => txEnding (txRun u)) (fun u => ?_) ?_ ?_
  · have hu : txRun u.sources = txRun u := rfl
    rw [hu, execTx]
    cases txRun u with
    | ok r => exact congrArg _ (putTx_eq_endWith r.1 r.2.1 r.2.2 u)
    | error e => exact congrArg _ (raise_eq_endWith .tx e u)
  · cases h : txRun s.sources with
    | ok r => exact ⟨flagsFit_ok, txOutputs_axesFit _ _ _⟩
    | error e => exact Ending.raised_legal (abortsOnly_txRun _ e h)
  · cases txRun s.sources with
    | ok r => show txDraws _ ≤ 1; unfold txDraws; split <;> decide
    | error e => exact Nat.zero_le _

/-- The ending of RX (R230, R231). -/
def rxEnding (r : Except Err (List Unprotected)) : Ending .rx :=
  match r with
  | .ok us => ⟨rxErr (rxFlags us), rxFlags us,
      .rx (bytesOf (us.flatMap Unprotected.payload)) (us.map Unprotected.payload), 0⟩
  | .error e => .raised .rx e

theorem abortsOnly_rxRun (s : State) : abortsOnly (rxRun s) :=
  abortsOnly_andThen (abortsOnly_orConfig _) fun _ =>
    abortsOnly_andThen (abortsOnly_demodulate _ _) fun _ =>
      abortsOnly_andThen (abortsOnly_orFraming _) fun _ => abortsOnly_orFraming _

theorem endsFrom_rx (s : State) : EndsFrom execRx .rx 0 s := by
  refine endsFrom_of_sources (fun u => rxEnding (rxRun u)) (fun u => ?_) ?_ ?_
  · have hu : rxRun u.sources = rxRun u := rfl
    rw [hu, execRx]
    cases rxRun u <;> rfl
  · cases h : rxRun s.sources with
    | ok us => exact ⟨flagsFit_rxErr (rxFlags_chk_detfail us), trivial⟩
    | error e => exact Ending.raised_legal (abortsOnly_rxRun _ e h)
  · cases rxRun s.sources <;> exact Nat.zero_le _

/-- How many masks a command can draw: INJ.RND and TX use the injector (R212, R224). -/
def drawsAtMost (i : Instr) : Nat := if i = .injRnd ∨ i = .tx then 1 else 0

/-- What a command can do: it makes one legal ending, which its sources determine. -/
theorem exec_ends (i : Instr) (s : State) : EndsFrom (exec i) (ownedBy i) (drawsAtMost i) s := by
  cases i with
  | b2bits | parAdd | crcAdd | hamEnc =>
    exact endsFrom_finishBo (fun u => .ok _) (fun _ => rfl) fun _ => abortsOnly_ok _
  | bits2b => exact endsFrom_bits2b s
  | parChk => exact endsFrom_check (·.length = 0) (fun b => b.take (b.length - 1)) checkParity s
  | crcChk => exact endsFrom_check (·.length < 32) (fun b => b.take (b.length - 32)) checkCrc32 s
  | hamDec => exact endsFrom_hamDec s
  | split | wrapStf =>
    exact endsFrom_finishBo (fun u => andThen (orConfig _) _) (fun _ => rfl) fun _ =>
      abortsOnly_andThen (abortsOnly_orConfig _) fun _ => abortsOnly_ok _
  | wrapCnt =>
    exact endsFrom_finishBo (fun u => andThen (orFraming _) _) (fun _ => rfl) fun _ =>
      abortsOnly_andThen (abortsOnly_orFraming _) fun _ => abortsOnly_ok _
  | frmCnt | dfrStf =>
    exact endsFrom_finishBo (fun u => andThen (orConfig _) _) (fun _ => rfl) fun _ =>
      abortsOnly_andThen (abortsOnly_orConfig _) fun _ => abortsOnly_orFraming _
  | dfrCnt => exact endsFrom_finishBo (fun u => orFraming _) (fun _ => rfl) fun _ => abortsOnly_orFraming _
  | frmStf | injOne =>
    exact endsFrom_finishBo (fun u => andThen (orConfig _) _) (fun _ => rfl) fun _ =>
      abortsOnly_andThen (abortsOnly_orConfig _) fun _ =>
        abortsOnly_andThen (abortsOnly_orConfig _) fun _ => abortsOnly_ok _
  | nrzMod | manMod | amiMod | askMod | fskMod | qamMod => exact endsFrom_finishSignal _ (fun _ => rfl)
  | nrzDem | manDem | amiDem | askDem | fskDem | qamDem => exact endsFrom_demodulate _ (fun _ => rfl)
  | injRnd => exact endsFrom_injRnd s
  | tx => exact endsFrom_tx s
  | rx => exact endsFrom_rx s

/-- The ending of a command on a state, and what bounds its draws. -/
theorem exec_eq_endWith (i : Instr) (s : State) :
    ∃ r : Ending (ownedBy i), r.Legal ∧ r.draws ≤ drawsAtMost i ∧ exec i s = .next (s.endWith r) := by
  obtain ⟨r, hlegal, hdraws, hexec⟩ := exec_ends i s
  exact ⟨r, hlegal, hdraws, hexec s rfl⟩

/-! ## What every command keeps -/

theorem draws_of_le_drawsAtMost {i : Instr} {n : Nat} (h : n ≤ drawsAtMost i) :
    n = 0 ∨ (i = .injRnd ∨ i = .tx) ∧ n = 1 := by
  unfold drawsAtMost at h
  split at h <;> rename_i hi
  · rcases Nat.le_one_iff_eq_zero_or_eq_one.1 h with h | h
    · exact .inl h
    · exact .inr ⟨hi, h⟩
  · exact .inl (Nat.le_zero.1 h)

/-- Settles O11: the frame of an ending is the frame of every command. -/
theorem commandChangesOnlyItsOutputs : Obligations.CommandChangesOnlyItsOutputs := by
  intro i s t h
  obtain ⟨r, -, hdraws, hexec⟩ := exec_eq_endWith i s
  obtain rfl : s.endWith r = t := by simpa [hexec] using h
  refine ⟨sameRegisters_endWith r s, sameInputs_endWith r s, sameHost_endWith r s, State.endWith_qamMap r s,
    sameOutputsBut_endWith r s, ?_⟩
  rcases draws_of_le_drawsAtMost hdraws with h | ⟨hi, h⟩
  · exact .inl (by simp [h])
  · exact .inr ⟨hi, by simp [h]⟩

/-- Settles O12: every command ends, and an ending writes STATUS as a word of fields. -/
theorem everyCommandCompletes : Obligations.EveryCommandCompletes := by
  intro i s
  obtain ⟨r, -, -, hexec⟩ := exec_eq_endWith i s
  exact ⟨s.endWith r, hexec, by simp, by simp [errCode_le], by simp⟩

/-- Settles O15: two states of equal sources run into the same ending. -/
theorem outputsAreNeverRead : Obligations.OutputsAreNeverRead := by
  intro i s u s' u' hregs hins hmap hdraws hs hu
  obtain ⟨r, -, -, hexec⟩ := exec_ends i s
  obtain rfl : s.endWith r = s' := by simpa [hexec s rfl] using hs
  obtain rfl : u.endWith r = u' := by simpa [hexec u (sources_eq hregs hins hmap hdraws)] using hu
  exact ⟨rfl, sameOwned_endWith r s u⟩

/-! ## The register port (R21) -/

theorem regKind_absent {n : Nat} (h : (0x09 ≤ n ∧ n ≤ 0x0F) ∨ 0x16 ≤ n) : regKind n = .absent := by
  unfold regKind
  rw [if_neg (by omega), if_neg (by omega)]

theorem act_writeWord_wordReg {n : Nat} (hn : n ≠ 0) (h : regKind n = .wordReg) (w : Word) (s : State) :
    act (.writeWord n w) s = .next (s.tick.writeWordReg n w) := by
  simp [act, portWriteWord, hn, h]

theorem act_writeWord_absent {n : Nat} (h : regKind n = .absent) (w : Word) (s : State) :
    act (.writeWord n w) s = .next s.tick := by
  have hn : n ≠ 0 := by rintro rfl; exact absurd h (by decide)
  simp [act, portWriteWord, hn, h]

theorem act_writeWord_realReg {n : Nat} (h : regKind n = .realReg) (w : Word) (s : State) :
    act (.writeWord n w) s = .refused (.wrongRegisterType n) := by
  have hn : n ≠ 0 := by rintro rfl; exact absurd h (by decide)
  simp [act, portWriteWord, hn, h]

theorem act_writeReal_status (q : ℚ) (s : State) : act (.writeReal 1 q) s = .next s.tick := rfl

theorem act_writeReal_realReg {n : Nat} (h : regKind n = .realReg) (q : ℚ) (s : State) :
    act (.writeReal n q) s = .next (s.tick.writeRealReg n q) := by
  have hn : n ≠ 1 := by rintro rfl; exact absurd h (by decide)
  simp [act, portWriteReal, hn, h]

theorem act_writeReal_absent {n : Nat} (h : regKind n = .absent) (q : ℚ) (s : State) :
    act (.writeReal n q) s = .next s.tick := by
  have hn : n ≠ 1 := by rintro rfl; exact absurd h (by decide)
  simp [act, portWriteReal, hn, h]

theorem act_writeReal_wordReg {n : Nat} (hn : n ≠ 1) (h : regKind n = .wordReg) (q : ℚ) (s : State) :
    act (.writeReal n q) s = .refused (.wrongRegisterType n) := by
  simp [act, portWriteReal, hn, h]

/-- A number that is not implemented reads as 0 (R21). -/
theorem readReg_absent {n : Nat} (h : (0x09 ≤ n ∧ n ≤ 0x0F) ∨ 0x16 ≤ n) (s : State) : s.readReg n = .word 0 := by
  unfold State.readReg
  split
  case h_15 => rfl
  all_goals omega

/-- A set register reads as its own value. -/
theorem getD_of_eq_some {α : Type} (r : Option α) (d : α) : ∀ v, r = some v → r.getD d = v := by
  rintro v rfl
  rfl

/-- Settles O6: writes and reads of each register number, and of the numbers that are not implemented. -/
theorem registerPort : Obligations.RegisterPort := by
  refine ⟨⟨fun s w => ?_, fun s q => ?_, fun s n w q h => ?_⟩, fun s => ?_⟩
  · exact ⟨act_writeWord_wordReg (by decide) rfl w s, act_writeWord_wordReg (by decide) rfl w s,
      act_writeWord_wordReg (by decide) rfl w s, act_writeWord_wordReg (by decide) rfl w s,
      act_writeWord_wordReg (by decide) rfl w s, act_writeWord_wordReg (by decide) rfl w s,
      act_writeWord_wordReg (by decide) rfl w s, act_writeWord_wordReg (by decide) rfl w s⟩
  · exact ⟨act_writeReal_realReg rfl q s, act_writeReal_realReg rfl q s, act_writeReal_realReg rfl q s,
      act_writeReal_realReg rfl q s, act_writeReal_realReg rfl q s, act_writeReal_realReg rfl q s,
      act_writeReal_status q s⟩
  · exact ⟨act_writeWord_absent (regKind_absent h) w s, act_writeReal_absent (regKind_absent h) q s⟩
  · refine ⟨rfl, rfl, rfl, rfl, ⟨_, rfl, getD_of_eq_some _ _⟩, rfl, rfl, ⟨_, rfl, getD_of_eq_some _ _⟩,
      ⟨_, rfl, getD_of_eq_some _ _⟩, ⟨_, rfl, getD_of_eq_some _ _⟩, ⟨_, rfl, getD_of_eq_some _ _⟩,
      ⟨_, rfl, getD_of_eq_some _ _⟩, ⟨_, rfl, getD_of_eq_some _ _⟩, ⟨_, rfl, getD_of_eq_some _ _⟩, rfl, ?_⟩
    intro n h
    rw [act, readReg_absent h]

/-! ## The buffers (R37, R39) -/

theorem act_biFromPacket_some {s : State} {k : Nat} {b : BitSeq} (h : s.bo[k]? = some b) :
    act (.biFromPacket k) s = .next { s.tick with bi := b } := by
  rw [act, h]

theorem act_biFromPacket_none {s : State} {k : Nat} (h : s.bo[k]? = none) :
    act (.biFromPacket k) s = .fault (.noSuchPacket k) := by
  rw [act, h]

/-- Settles O7: all the buffer actions but the copy of one packet are plain updates. -/
theorem bufferActions : Obligations.BufferActions := by
  intro s
  refine ⟨fun _ => rfl, fun _ => rfl, fun _ => rfl, fun _ => rfl, rfl, fun k b h => act_biFromPacket_some h, ?_⟩
  and_intros <;> rfl

/-! ## Reset (R44, R270) -/

theorem statusLegal_zero : statusLegal 0#32 := by decide

/-- Settles O8: the table of R44, row by row. -/
theorem resetValues : Obligations.ResetValues := by
  unfold Obligations.ResetValues
  and_intros <;> rfl

/-- Settles O56: the reset STATUS is the word 0, every signal is empty, and the default table is one-to-one. -/
theorem resetIsLegal : Obligations.ResetIsLegal :=
  ⟨statusLegal_zero, ⟨rfl, rfl, rfl, rfl, rfl⟩, by decide⟩

theorem State.Legal.applyReset {s : State} (h : s.Legal) : s.applyReset.Legal := by
  obtain ⟨-, -, hmap⟩ := h
  exact ⟨statusLegal_zero, ⟨rfl, rfl, rfl, rfl, rfl⟩, hmap⟩

/-! ## Writes of CMD (R34, R71) -/

theorem opcodeOf_of_instrOfOpcode {n : Nat} {i : Instr} (h : instrOfOpcode n = some i) : opcodeOf i = n := by
  unfold instrOfOpcode at h
  split at h <;> cases h <;> rfl

/-- Only the command word of a command decodes to it. -/
theorem eq_encode_of_decode {w : Word} {i : Instr} (h : decode w = .ok i) : w = encode i := by
  unfold decode at h
  split at h
  case isFalse => cases h
  case isTrue hzero =>
    cases hop : instrOfOpcode (w.extractLsb' 0 8).toNat with
    | none => rw [hop] at h; cases h
    | some j =>
      obtain rfl : j = i := by rw [hop] at h; cases h; rfl
      have hhigh : (w.extractLsb' 8 24).toNat = 0 := by rw [hzero]; rfl
      have hw := w.isLt
      apply BitVec.eq_of_toNat_eq
      rw [encode, opcodeOf_of_instrOfOpcode hop, BitVec.toNat_ofNat]
      rw [BitVec.extractLsb'_toNat, Nat.shiftRight_eq_div_pow] at hhigh
      rw [BitVec.extractLsb'_toNat, Nat.shiftRight_zero]
      omega

/-- A write of CMD always ends: in the command's ending, or in the ConfigurationError of an illegal word. -/
theorem issue_cases (w : Word) (s : State) :
    (∃ i, decode w = .ok i ∧ issue w s = exec i s) ∨ issue w s = .next (s.endWith (.raised .nothing .config)) := by
  cases h : decode w with
  | ok i => exact .inl ⟨i, rfl, issue_ok h s⟩
  | error e => exact .inr (issue_error h s)

/-- The state in which a command runs: its host action taken from the queue and counted (log 1, log 4). -/
def State.takeWrite (s : State) (rest : List HostAction) : State := { s with hostq := rest, epoch := s.epoch + 1 }

theorem step_writeCmd {s : State} {w : Word} {rest : List HostAction} (h : s.hostq = .writeWord 0 w :: rest) :
    step s = issue w (s.takeWrite rest) := by
  rw [step, takeAction_cons h]
  rfl

/-- Settles O4: taking the write of CMD from the queue leaves the decoded command. -/
theorem stepRunsTheDecodedCommand : Obligations.StepRunsTheDecodedCommand := by
  refine ⟨fun s w i rest hq hw => ?_, fun s nbits w i hw => ?_⟩
  · rw [step_writeCmd hq, issue_ok hw]; rfl
  · have hd : decode (tableWord nbits w) = .ok i := by
      unfold decodeTableWord at hw
      cases h : decode (tableWord nbits w) <;> simp_all
    rw [step_writeCmd (s := s.withFetchWord nbits w) rfl, issue_ok hd]; rfl

/-! ## What a step can do -/

/-- The registers that can be unset stay set where they are set (R43). -/
def staySet (s t : State) : Prop :=
  (s.sps.isSome → t.sps.isSome) ∧ (s.injpos.isSome → t.injpos.isSome) ∧ (s.injmax.isSome → t.injmax.isSome) ∧
  (s.amp.isSome → t.amp.isSome) ∧ (s.fs.isSome → t.fs.isSome) ∧ (s.fc.isSome → t.fc.isSome) ∧
  (s.flo.isSome → t.flo.isSome) ∧ (s.fhi.isSome → t.fhi.isSome)

theorem staySet_of_sameRegisters {s t : State} (h : sameRegisters s t) : staySet s t := by
  simp_all [sameRegisters, staySet]

/-- What every host action but a command and a reset keeps: STATUS, QAM_MAP, every output buffer, and that a register is
set. -/
structure PortKeeps (s t : State) : Prop where
  status : t.status = s.status
  qamMap : t.qamMap = s.qamMap
  outputs : sameOutputsBut .nothing s t
  regs : staySet s t

/-- New inputs and a new host's side keep everything of that kind. -/
theorem portKeeps_inputs (s : State) (ys : List Byte) (b : BitSeq) (x y : List Sample) (q : List HostAction)
    (d : Option HostData) (n : Nat) :
    PortKeeps s { s with byi := ys, bi := b, si := x, si2 := y, hostq := q, rdata := d, epoch := n } :=
  ⟨rfl, rfl, ⟨rfl, rfl, ⟨rfl, rfl⟩, ⟨rfl, rfl, rfl, rfl, rfl, rfl, rfl, rfl⟩⟩, ⟨id, id, id, id, id, id, id, id⟩⟩

theorem portKeeps_writeWordReg (n : Nat) (w : Word) (s : State) : PortKeeps s (s.tick.writeWordReg n w) := by
  unfold State.writeWordReg
  split <;> constructor <;> simp [sameOutputsBut, sameModOutputs, sameTxOutputs, staySet]

theorem portKeeps_writeRealReg (n : Nat) (q : ℚ) (s : State) : PortKeeps s (s.tick.writeRealReg n q) := by
  unfold State.writeRealReg
  split <;> constructor <;> simp [sameOutputsBut, sameModOutputs, sameTxOutputs, staySet]

/-- What a host action can do: run a command, reset, or keep all that the port keeps. -/
theorem act_cases {a : HostAction} {s t : State} (h : act a s = .next t) :
    (∃ w, a = .writeWord 0 w ∧ issue w s.tick = .next t) ∨ (a = .reset ∧ t = s.tick.applyReset) ∨ PortKeeps s t := by
  cases a with
  | writeWord n w =>
    by_cases hn : n = 0
    · subst hn
      exact .inl ⟨w, rfl, h⟩
    · refine .inr (.inr ?_)
      cases hk : regKind n with
      | wordReg => rw [act_writeWord_wordReg hn hk] at h; cases h; exact portKeeps_writeWordReg n w s
      | realReg => rw [act_writeWord_realReg hk] at h; cases h
      | absent => rw [act_writeWord_absent hk] at h; cases h; exact portKeeps_inputs s _ _ _ _ _ _ _
  | writeReal n q =>
    refine .inr (.inr ?_)
    by_cases hn : n = 1
    · subst hn
      cases h; exact portKeeps_inputs s _ _ _ _ _ _ _
    · cases hk : regKind n with
      | wordReg => rw [act_writeReal_wordReg hn hk] at h; cases h
      | realReg => rw [act_writeReal_realReg hk] at h; cases h; exact portKeeps_writeRealReg n q s
      | absent => rw [act_writeReal_absent hk] at h; cases h; exact portKeeps_inputs s _ _ _ _ _ _ _
  | biFromPacket k =>
    cases hk : s.bo[k]? with
    | some b => rw [act_biFromPacket_some hk] at h; cases h; exact .inr (.inr (portKeeps_inputs s _ _ _ _ _ _ _))
    | none => rw [act_biFromPacket_none hk] at h; cases h
  | reset => cases h; exact .inr (.inl ⟨rfl, rfl⟩)
  | readReg | putByi | putBi | putSi | putSi2 | byiFromByo | biFromAll | siFrom | si2From | readBuf =>
    cases h; exact .inr (.inr (portKeeps_inputs s _ _ _ _ _ _ _))

/-- What a step can do: nothing but what the port keeps, a reset, or the ending of the command word written to CMD,
where a word that owns something is the word of a command. -/
theorem step_cases {s t : State} (h : step s = .next t) :
    PortKeeps s t ∨ (∃ rest, s.hostq = .reset :: rest ∧ t = (s.takeWrite rest).applyReset) ∨
    ∃ (o : Owned) (r : Ending o) (rest : List HostAction), r.Legal ∧ t = (s.takeWrite rest).endWith r ∧
      (o = .nothing ∨ ∃ i, s.hostq = .writeWord 0 (encode i) :: rest ∧ o = ownedBy i) := by
  cases hq : s.hostq with
  | nil =>
    rw [step, takeAction_idle hq] at h
    cases h
    exact .inl (portKeeps_inputs s _ _ _ _ _ _ _)
  | cons a rest =>
    rw [step, takeAction_cons hq] at h
    rcases act_cases h with ⟨w, rfl, h⟩ | ⟨rfl, rfl⟩ | hkeep
    · refine .inr (.inr ?_)
      rcases issue_cases w (s.takeWrite rest) with ⟨i, hw, hi⟩ | hi
      · obtain ⟨r, hlegal, -, hexec⟩ := exec_eq_endWith i (s.takeWrite rest)
        obtain rfl := eq_encode_of_decode hw
        obtain rfl := Host.Outcome.next.inj ((hi.trans hexec).symm.trans h)
        exact ⟨_, r, rest, hlegal, rfl, .inr ⟨i, rfl, rfl⟩⟩
      · obtain rfl := Host.Outcome.next.inj (hi.symm.trans h)
        exact ⟨_, .raised .nothing .config, rest, Ending.raised_legal (.inl rfl), rfl, .inl rfl⟩
    · exact .inr (.inl ⟨rest, rfl, rfl⟩)
    · exact .inl ⟨hkeep.status, hkeep.qamMap, hkeep.outputs, hkeep.regs⟩

theorem State.Legal.portKeeps {s t : State} (h : PortKeeps s t) (hs : s.Legal) : t.Legal := by
  obtain ⟨hstatus, hmap, ⟨-, -, ⟨hso, hto⟩, ⟨hsd, htd, hsc, htc, hsde, htde, hsce, htce⟩⟩, -⟩ := h
  simpa only [State.Legal, axesLegal, hstatus, hmap, hso, hto, hsd, htd, hsc, htc, hsde, htde, hsce, htce] using hs

/-- Settles O55: each of the three things a step can do keeps the invariant. -/
theorem stepKeepsLegal : Obligations.StepKeepsLegal := by
  intro s t hs h
  rcases step_cases h with hkeep | ⟨rest, -, rfl⟩ | ⟨o, r, rest, hlegal, rfl, -⟩
  · exact State.Legal.portKeeps hkeep hs
  · exact State.Legal.applyReset (s := s.takeWrite rest) hs
  · exact State.Legal.endWith (s := s.takeWrite rest) hlegal hs

theorem sameOutputsBut_takeWrite {o : Owned} {s t : State} {rest : List HostAction}
    (h : sameOutputsBut o (s.takeWrite rest) t) : sameOutputsBut o s t := by
  cases o <;> exact h

/-- Settles O9: the port keeps outputs and set registers, and a command its frame. -/
theorem onlyResetUnsets : Obligations.OnlyResetUnsets := by
  intro s t h hreset
  suffices hkeep : staySet s t ∧
      ((∃ i rest, s.hostq = .writeWord 0 (encode i) :: rest ∧ sameOutputsBut (ownedBy i) s t) ∨
        sameOutputsBut .nothing s t) by
    obtain ⟨⟨hsps, hpos, hmax, hamp, hfs, hfc, hflo, hfhi⟩, hout⟩ := hkeep
    exact ⟨hsps, hpos, hmax, hamp, hfs, hfc, hflo, hfhi, hout⟩
  rcases step_cases h with hkeep | ⟨rest, hq, -⟩ | ⟨o, r, rest, -, rfl, ho⟩
  · exact ⟨hkeep.regs, .inr hkeep.outputs⟩
  · exact absurd hq (hreset rest)
  · have hout := sameOutputsBut_takeWrite (sameOutputsBut_endWith r (s.takeWrite rest))
    refine ⟨staySet_of_sameRegisters (s := s) (sameRegisters_endWith r (s.takeWrite rest)), ?_⟩
    rcases ho with rfl | ⟨i, hq, rfl⟩
    · exact .inr hout
    · exact .inl ⟨i, rest, hq, hout⟩

/-! ## When a step stops (log 9) -/

theorem issue_isNext (w : Word) (s : State) : ∃ t, issue w s = .next t := by
  rcases issue_cases w s with ⟨i, -, h⟩ | h
  · obtain ⟨r, -, -, hexec⟩ := exec_eq_endWith i s
    exact ⟨_, h.trans hexec⟩
  · exact ⟨_, h⟩

/-- A host action has a next state exactly where it is safe. -/
theorem actionSafe_iff_act_isNext (a : HostAction) (s : State) : actionSafe a s ↔ ∃ t, act a s = .next t := by
  cases a with
  | writeWord n w =>
    show regKind n ≠ .realReg ↔ _
    cases hk : regKind n with
    | wordReg =>
      by_cases hn : n = 0
      · subst hn
        exact iff_of_true (by decide) (issue_isNext w s.tick)
      · simp [act_writeWord_wordReg hn hk]
    | realReg => simp [act_writeWord_realReg hk]
    | absent => simp [act_writeWord_absent hk]
  | writeReal n q =>
    show n = 1 ∨ regKind n ≠ .wordReg ↔ _
    by_cases hn : n = 1
    · subst hn
      simp [act_writeReal_status]
    · cases hk : regKind n with
      | wordReg => simp [act_writeReal_wordReg hn hk, hn]
      | realReg => simp [act_writeReal_realReg hk]
      | absent => simp [act_writeReal_absent hk]
  | biFromPacket k =>
    show k < s.bo.length ↔ _
    cases hk : s.bo[k]? with
    | some b => simpa [act_biFromPacket_some hk] using (List.getElem?_eq_some_iff.1 hk).1
    | none => simpa [act_biFromPacket_none hk] using List.getElem?_eq_none_iff.1 hk
  | readReg | putByi | putBi | putSi | putSi2 | byiFromByo | biFromAll | siFrom | si2From | readBuf | reset =>
    exact ⟨fun _ => ⟨_, rfl⟩, fun _ => trivial⟩

/-- Settles O57: an idle step is no stop, and any other is the pending action's. -/
theorem stepStopsOnlyOnUnsafeActions : Obligations.StepStopsOnlyOnUnsafeActions := by
  intro s
  unfold stepSafe
  cases hq : s.hostq with
  | nil => simp [step, takeAction_idle hq]
  | cons a rest =>
    rw [step, takeAction_cons hq, ← actionSafe_iff_act_isNext]

/-! ## CFG (R22, R23) -/

theorem field_lt (w : Word) (hi lo : Nat) : field w hi lo < 2 ^ (hi - lo + 1) := BitVec.isLt _

/-- A field of one bit is that bit. -/
theorem field_bit (w : Word) (k : Nat) : field w k k = (w.getLsbD k).toNat := by
  rw [field, Nat.sub_self, BitVec.extractLsb'_toNat, BitVec.getLsbD, Nat.testBit, Nat.one_and_eq_mod_two]
  rcases Nat.mod_two_eq_zero_or_one (w.toNat >>> k) with h | h <;> simp [h]

theorem framingCode_cfgFraming (w : Word) : framingCode (cfgFraming w) = field w 0 0 := by
  rw [field_bit, cfgFraming]
  cases w.getLsbD 0 <;> rfl

theorem rxSourceCode_cfgRxsrc (w : Word) : rxSourceCode (cfgRxsrc w) = field w 10 10 := by
  rw [field_bit, cfgRxsrc]
  cases w.getLsbD 10 <;> rfl

/-- The three values in use of a field of two bits; the code 3 is reserved (R22). -/
def ofCode {α : Type} (a b c : α) (n : Nat) : Option α :=
  match n with
  | 0 => some a
  | 1 => some b
  | 2 => some c
  | _ => none

theorem exists_ofCode_iff {α : Type} (a b c : α) {n : Nat} (h : n < 4) :
    (∃ x, ofCode a b c n = some x) ↔ n ≠ 3 := by
  interval_cases n <;> simp [ofCode]

/-- A numbering that gives the three values the codes 0, 1, 2 gives back the code read. -/
theorem code_of_ofCode {α : Type} {a b c x : α} {n : Nat} (code : α → Nat) (ha : code a = 0) (hb : code b = 1)
    (hc : code c = 2) (h : ofCode a b c n = some x) : code x = n := by
  unfold ofCode at h
  split at h <;> cases h <;> assumption

theorem cfgLine_eq_ofCode (w : Word) : cfgLine w = ofCode .nrz .man .ami (field w 7 6) := rfl

theorem cfgCarr_eq_ofCode (w : Word) : cfgCarr w = ofCode .ask .fsk .qam8 (field w 9 8) := rfl

theorem cfgInj_eq_ofCode (w : Word) : cfgInj w = ofCode .off .one .rnd (field w 12 11) := rfl

/-- The legal codes of DET0 and DET1 (R22, R23). -/
def detCodesLegal (m n : Nat) : Prop := m ≠ 3 ∧ n ≠ 3 ∧ (m = 0 → n = 0) ∧ (m ≠ 0 → n ≠ m)

theorem cfgDet_eq_some {w : Word} {d : List Det} :
    cfgDet w = some d ↔
      detCodesLegal (field w 2 1) (field w 4 3) ∧ d = [field w 2 1, field w 4 3].filterMap detOfCode := by
  have hm := field_lt w 2 1
  have hn := field_lt w 4 3
  unfold cfgDet
  generalize field w 2 1 = m at hm ⊢
  generalize field w 4 3 = n at hn ⊢
  interval_cases m <;> interval_cases n <;> simp [detCodesLegal, detOfCode, eq_comm]

/-- CFG is read where its reserved bits are 0 and each coded field answers. -/
theorem readCfg_eq_some {w : Word} {c : CfgFields} :
    readCfg w = some c ↔ field w 31 13 = 0 ∧ cfgDet w = some c.det ∧ cfgLine w = some c.line ∧
      cfgCarr w = some c.carr ∧ cfgInj w = some c.inj ∧ c.framing = cfgFraming w ∧ c.ham = w.getLsbD 5 ∧
      c.rxsrc = cfgRxsrc w := by
  unfold readCfg
  split
  case isFalse h => simp [h]
  case isTrue h =>
    split
    next hd hl hc hi => rw [hd, hl, hc, hi]; cases c; simp [h, eq_comm]; tauto
    next hnone =>
      simp only [reduceCtorEq, false_iff]
      rintro ⟨-, hd, hl, hc, hi, -⟩
      exact hnone _ _ _ _ hd hl hc hi

/-- CFG can be read exactly where each of its parts can. -/
theorem exists_readCfg_iff (w : Word) :
    (∃ c, readCfg w = some c) ↔ field w 31 13 = 0 ∧ (∃ d, cfgDet w = some d) ∧ (∃ l, cfgLine w = some l) ∧
      (∃ k, cfgCarr w = some k) ∧ (∃ i, cfgInj w = some i) := by
  constructor
  · rintro ⟨c, h⟩
    obtain ⟨hres, hd, hl, hc, hi, -⟩ := readCfg_eq_some.1 h
    exact ⟨hres, ⟨_, hd⟩, ⟨_, hl⟩, ⟨_, hc⟩, ⟨_, hi⟩⟩
  · rintro ⟨hres, ⟨d, hd⟩, ⟨l, hl⟩, ⟨k, hc⟩, ⟨i, hi⟩⟩
    exact ⟨⟨cfgFraming w, d, w.getLsbD 5, l, k, cfgRxsrc w, i⟩,
      readCfg_eq_some.2 ⟨hres, hd, hl, hc, hi, rfl, rfl, rfl⟩⟩

/-- Settles O46: legality and the fields part by part, each from its own reader. -/
theorem cfgFieldsAndLegality : Obligations.CfgFieldsAndLegality := by
  refine ⟨fun w => ?_, fun w c h => ?_⟩
  · have hdet : (∃ d, cfgDet w = some d) ↔ detCodesLegal (field w 2 1) (field w 4 3) := by simp [cfgDet_eq_some]
    rw [exists_readCfg_iff, hdet, cfgLine_eq_ofCode, cfgCarr_eq_ofCode, cfgInj_eq_ofCode,
      exists_ofCode_iff _ _ _ (field_lt w 7 6), exists_ofCode_iff _ _ _ (field_lt w 9 8),
      exists_ofCode_iff _ _ _ (field_lt w 12 11), detCodesLegal, cfgLegal]
    tauto
  · obtain ⟨-, hd, hl, hc, hi, hframing, hham, hrxsrc⟩ := readCfg_eq_some.1 h
    obtain ⟨-, hdet⟩ := cfgDet_eq_some.1 hd
    rw [hframing, hrxsrc, framingCode_cfgFraming, rxSourceCode_cfgRxsrc]
    exact ⟨rfl, hdet, hham, code_of_ofCode lineCodeNumber rfl rfl rfl hl,
      code_of_ofCode carrierCodeNumber rfl rfl rfl hc, rfl, code_of_ofCode injectionCode rfl rfl rfl hi⟩

end Sys2Proof.Machine
end

