-- ==== Sys2Proof/Proofs/Memory.lean ====
section
/-! The statement of family 20: a step takes the oldest host action, and a host reset restores the table of R44. -/

namespace Sys2Proof.Machine

/-! ## Taking a host action (R60, R270) -/

theorem step_of_idle {s : State} (h : s.hostq = []) : step s = .next s := takeAction_idle h

theorem step_of_cons {s : State} {a : HostAction} {rest : List HostAction} (h : s.hostq = a :: rest) :
    step s = act a { s with hostq := rest } := takeAction_cons h

/-! ## A reset applied by the host (R44, R270) -/

/-- The reset action is counted (log 4) and then applied. -/
theorem act_reset (s : State) : act .reset s = .next s.tick.applyReset := rfl

/-- Settles O5: the queue decides between staying and the oldest action; a host reset is the counted `applyReset`,
whose fields are those of the reset state but for the model's own (log 10). -/
theorem stepTakesTheOldestAction : Obligations.StepTakesTheOldestAction :=
  ⟨⟨fun _ => step_of_idle, fun _ _ _ => step_of_cons⟩, act_reset⟩

end Sys2Proof.Machine
end

