-- ==== Sys2Proof/Proofs/Encoding.lean ====
section
/-! The statements of family 30 (spec/30_encoding.md): `decode` and `encode` agree on every word, so the opcode map is
the graph of `encode`, and a word that encodes no command is illegal. -/

namespace Sys2Proof.Machine

/-! ## Decode after encode (R70, R72) -/

theorem decode_encode (i : Instr) : decode (encode i) = .ok i := by
  cases i <;> rfl

/-- The round trip of R72: the words that decode to a command are its one word. -/
theorem decode_eq_ok_iff {w : Word} {i : Instr} : decode w = .ok i ↔ w = encode i := by
  constructor
  · exact eq_encode_of_decode
  · rintro rfl
    exact decode_encode i

/-! ## Illegal words (R71, R74) -/

/-- The first check of R71. -/
theorem decode_of_nonzeroHighBits {w : Word} (h : w.extractLsb' 8 24 ≠ 0#24) :
    decode w = .error (.nonzeroHighBits w) := by
  rw [decode, if_neg h]

/-- The second check of R71. -/
theorem decode_of_unknownOpcode {w : Word} (hzero : w.extractLsb' 8 24 = 0#24)
    (hop : instrOfOpcode (w.extractLsb' 0 8).toNat = none) :
    decode w = .error (.unknownOpcode (w.extractLsb' 0 8).toNat) := by
  rw [decode, if_pos hzero, hop]

/-- The illegal words are those that encode no command. -/
theorem exists_decode_eq_error_iff {w : Word} : (∃ e, decode w = .error e) ↔ ∀ i, w ≠ encode i := by
  constructor
  · rintro ⟨e, he⟩ i hi
    rw [decode_eq_ok_iff.2 hi] at he
    cases he
  · intro h
    cases hw : decode w with
    | ok i => exact absurd (decode_eq_ok_iff.1 hw) (h i)
    | error e => exact ⟨e, rfl⟩

theorem decode_zero : decode 0#32 = .error (.unknownOpcode 0) :=
  decode_of_unknownOpcode (by decide) rfl

theorem decode_allOnes : decode (BitVec.allOnes 32) = .error (.nonzeroHighBits (BitVec.allOnes 32)) :=
  decode_of_nonzeroHighBits (by decide)

theorem encode_ne_of_decode_error {w : Word} {e : DecodeError} (h : decode w = .error e) (i : Instr) :
    encode i ≠ w :=
  (exists_decode_eq_error_iff.1 ⟨e, h⟩ i).symm

/-! ## The opcode map (R72) -/

/-- The commands in the order of the opcode map. -/
def tableOrder : List Instr :=
  [.b2bits, .bits2b,
   .parAdd, .parChk, .crcAdd, .crcChk, .hamEnc, .hamDec,
   .split, .wrapCnt, .frmCnt, .dfrCnt, .wrapStf, .frmStf, .dfrStf,
   .nrzMod, .nrzDem, .manMod, .manDem, .amiMod, .amiDem,
   .askMod, .askDem, .fskMod, .fskDem, .qamMod, .qamDem,
   .injOne, .injRnd, .tx, .rx]

theorem mem_tableOrder (i : Instr) : i ∈ tableOrder := by
  cases i <;> decide

/-- The rows of the opcode map: each command beside its word. -/
theorem mem_opcodeRows_iff {w : Word} {i : Instr} :
    (w, i) ∈ tableOrder.map (fun j => (encode j, j)) ↔ w = encode i := by
  constructor
  · intro h
    obtain ⟨j, -, hj⟩ := List.mem_map.1 h
    cases hj
    rfl
  · rintro rfl
    exact List.mem_map.2 ⟨i, mem_tableOrder i, rfl⟩

/-- Settles O1: the table written out in the statement evaluates to the graph of `encode`, of which `decode` is the
inverse. -/
theorem decodeIsTheOpcodeTable : Obligations.DecodeIsTheOpcodeTable :=
  ⟨fun _ _ => decode_eq_ok_iff.trans mem_opcodeRows_iff.symm, fun _ _ => decode_eq_ok_iff⟩

/-! ## Writes of CMD with an illegal word (R71, R74) -/

/-- The write is counted (log 4) and then issued. -/
theorem act_writeCmd (w : Word) (s : State) : act (.writeWord 0 w) s = issue w s.tick := rfl

/-- Settles O3: a word that encodes no command fails to decode, and issuing it writes STATUS only; 0 has an opcode that
is not in the map, all ones has high bits. -/
theorem illegalWordChangesOnlyStatus : Obligations.IllegalWordChangesOnlyStatus := by
  refine ⟨fun w s h => ?_, fun i => ?_⟩
  · obtain ⟨e, he⟩ := exists_decode_eq_error_iff.2 h
    rw [act_writeCmd, issue_error he]
    rfl
  · exact ⟨encode_ne_of_decode_error decode_zero i, encode_ne_of_decode_error decode_allOnes i⟩

/-- Settles O2: the six written words are the words of their commands; 0x158 fails the first check of R71 and 3 the
second. -/
theorem decodeOfWrittenWords : Obligations.DecodeOfWrittenWords :=
  ⟨decode_encode .b2bits, decode_encode .crcAdd, decode_encode .dfrStf, decode_encode .amiDem, decode_encode .fskMod,
    decode_encode .tx, decode_of_nonzeroHighBits (by decide), decode_of_unknownOpcode (by decide) rfl⟩

end Sys2Proof.Machine
end

