-- ==== Sys2Proof/Proofs/BitCodec.lean ====
section
/-! The statements of family 40 (spec/40_bitcodec.md): bytes to bits and bits to bytes. `bytesOf_append` takes one byte
off a bit sequence, and both round trips follow from it by induction. The bit order of `bytesOf` is that of `bitsOf`,
carried over by `bitsOf_bytesOf`. -/

namespace Sys2Proof.Machine

/-! ## One byte (R51) -/

/-- Position j of `be(v, n)` holds the bit of weight 2^(n-1-j) (R13). -/
theorem be_getElem? (v : Nat) {n j : Nat} (hj : j < n) : (be v n)[j]? = some (v.testBit (n - 1 - j)) := by
  induction n generalizing j with
  | zero => omega
  | succ n ih =>
    cases j with
    | zero => simp [be]
    | succ j =>
      have hweight : n + 1 - 1 - (j + 1) = n - 1 - j := by omega
      rw [be, List.getElem?_cons_succ, ih (by omega), hweight]

@[simp] theorem byteBits_length (y : Byte) : (byteBits y).length = 8 := be_length _ _

theorem byteBits_getElem? (y : Byte) {j : Nat} (hj : j < 8) : (byteBits y)[j]? = some (y.getLsbD (7 - j)) :=
  be_getElem? _ hj

@[simp] theorem byteOf_byteBits (y : Byte) : byteOf (byteBits y) = y := by
  rw [byteOf, byteBits, val_be, Nat.mod_eq_of_lt y.isLt, BitVec.ofNat_toNat, BitVec.setWidth_eq]

theorem byteBits_byteOf {b : BitSeq} (h : b.length = 8) : byteBits (byteOf b) = b := by
  rw [byteBits, byteOf, BitVec.toNat_ofNat, be_mod, ← h, be_val]

/-! ## Bytes to bits (R54, R91) -/

@[simp] theorem bitsOf_nil : bitsOf [] = [] := rfl

@[simp] theorem bitsOf_cons (y : Byte) (ys : List Byte) : bitsOf (y :: ys) = byteBits y ++ bitsOf ys := rfl

@[simp] theorem bitsOf_length (ys : List Byte) : (bitsOf ys).length = 8 * ys.length := by
  induction ys with
  | nil => rfl
  | cons y ys ih => rw [bitsOf_cons, List.length_append, byteBits_length, ih, List.length_cons, Nat.mul_succ,
      Nat.add_comm]

/-- Bit j of byte k stands at index 8k + j, most significant first. -/
theorem bitsOf_getElem? (ys : List Byte) (k : Nat) {j : Nat} (hj : j < 8) :
    (bitsOf ys)[8 * k + j]? = ys[k]?.map fun y => y.getLsbD (7 - j) := by
  induction ys generalizing k with
  | nil => rfl
  | cons y ys ih =>
    cases k with
    | zero =>
      rw [bitsOf_cons, List.getElem?_append_left (by simpa using hj), Nat.mul_zero, Nat.zero_add, byteBits_getElem? y hj]
      rfl
    | succ k =>
      have hindex : 8 * (k + 1) + j - (byteBits y).length = 8 * k + j := by rw [byteBits_length]; omega
      rw [bitsOf_cons, List.getElem?_append_right (by rw [byteBits_length]; omega), hindex, ih, List.getElem?_cons_succ]

/-! ## Bits to bytes (R54, R92) -/

@[simp] theorem bytesOf_length (b : BitSeq) : (bytesOf b).length = b.length / 8 := by simp [bytesOf]

theorem bytesOf_of_length_lt {b : BitSeq} (h : b.length < 8) : bytesOf b = [] := by
  rw [← List.length_eq_zero_iff, bytesOf_length, Nat.div_eq_of_lt h]

/-- The first 8 bits are the first byte. -/
theorem bytesOf_append {x : BitSeq} (hx : x.length = 8) (rest : BitSeq) :
    bytesOf (x ++ rest) = byteOf x :: bytesOf rest := by
  have hcount : (x ++ rest).length / 8 = rest.length / 8 + 1 := by rw [List.length_append, hx]; omega
  have hfirst : sub (x ++ rest) (8 * 0) 8 = x := by simp [sub, ← hx]
  have hnext (i : Nat) : sub (x ++ rest) (8 * (i + 1)) 8 = sub rest (8 * i) 8 := by
    have hindex : 8 * (i + 1) = x.length + 8 * i := by omega
    rw [sub, hindex, List.drop_length_add_append, sub]
  simp only [bytesOf, hcount, List.range_succ_eq_map, List.map_cons, List.map_map, hfirst]
  simp only [Function.comp_def, hnext]

/-! ## The round trip (R93) -/

theorem bytesOf_bitsOf (ys : List Byte) : bytesOf (bitsOf ys) = ys := by
  induction ys with
  | nil => rfl
  | cons y ys ih => rw [bitsOf_cons, bytesOf_append (byteBits_length y), byteOf_byteBits, ih]

/-- The bits of the whole bytes of any sequence are the sequence without its last, incomplete byte. -/
theorem bitsOf_bytesOf (b : BitSeq) : bitsOf (bytesOf b) = b.take (8 * (b.length / 8)) := by
  induction hn : b.length / 8 generalizing b with
  | zero => rw [bytesOf_of_length_lt (by omega)]; rfl
  | succ n ih =>
    have hfirst : (b.take 8).length = 8 := by rw [List.length_take]; omega
    have hrest : (b.drop 8).length / 8 = n := by rw [List.length_drop]; omega
    calc bitsOf (bytesOf b)
        = bitsOf (bytesOf (b.take 8 ++ b.drop 8)) := by rw [List.take_append_drop]
      _ = b.take 8 ++ (b.drop 8).take (8 * n) := by
        rw [bytesOf_append hfirst, bitsOf_cons, byteBits_byteOf hfirst, ih _ hrest]
      _ = b.take (8 * (n + 1)) := by rw [← List.take_add, Nat.mul_succ, Nat.add_comm]

theorem bitsOf_bytesOf_of_aligned {b : BitSeq} (h : b.length % 8 = 0) : bitsOf (bytesOf b) = b := by
  rw [bitsOf_bytesOf, Nat.mul_div_cancel' (Nat.dvd_of_mod_eq_zero h), List.take_length]

/-- Settles O17: the two inverse laws, each by induction over the bytes. -/
theorem bitCodecRoundTrip : Obligations.BitCodecRoundTrip :=
  ⟨bytesOf_bitsOf, fun _ => bitsOf_bytesOf_of_aligned⟩

/-- Bit j of byte k is read from index 8k + j, most significant first. -/
theorem bytesOf_getElem?_bit (b : BitSeq) {k j : Nat} (hk : k < b.length / 8) (hj : j < 8) :
    (bytesOf b)[k]?.map (fun y => y.getLsbD (7 - j)) = b[8 * k + j]? := by
  rw [← bitsOf_getElem? _ k hj, bitsOf_bytesOf, List.getElem?_take_of_lt (by omega)]

/-! ## The two commands (R91, R92) -/

theorem exec_b2bits (s : State) : exec .b2bits s = .next { s with bo := [bitsOf s.byi], status := 0x100#32 } :=
  congrArg Host.Outcome.next (State.finishBo_ok _ s)

theorem exec_bits2b_of_aligned {s : State} (h : s.bi.length % 8 = 0) :
    exec .bits2b s = .next { s with byo := bytesOf s.bi, status := 0x100#32 } :=
  congrArg Host.Outcome.next (if_pos h)

theorem exec_bits2b_of_unaligned {s : State} (h : s.bi.length % 8 ≠ 0) :
    exec .bits2b s = .next { s with byo := [], status := 0x106#32 } :=
  congrArg Host.Outcome.next (if_neg h)

/-- Settles O16: each command's word and effect, and the bit order of its conversion. -/
theorem bytesAndBits : Obligations.BytesAndBits :=
  ⟨⟨decode_encode .b2bits, exec_b2bits, fun ys => ⟨bitsOf_length ys, fun k _ => bitsOf_getElem? ys k⟩⟩,
    decode_encode .bits2b, fun _ => exec_bits2b_of_aligned, fun _ => exec_bits2b_of_unaligned,
    fun b => ⟨bytesOf_length b, fun _ _ => bytesOf_getElem?_bit b⟩⟩

end Sys2Proof.Machine
end

/-! The statements of family 41 (spec/41_errorcontrol.md) and the inversion of `protect` (spec/45_pipeline.md R229):
parity, CRC-32, Hamming. The parity bit and the parity groups are XORs, so a flip acts on them by one more XOR; from
this come the parity statements and the syndrome of a word with flipped bits. -/

namespace Sys2Proof.Machine

/-! ## Flipping one bit (R211) -/

@[simp] theorem flipBit_length (b : BitSeq) (i : Nat) : (flipBit b i).length = b.length := List.length_modify ..

@[simp] theorem flipBit_cons_zero (x : Bool) (b : BitSeq) : flipBit (x :: b) 0 = (!x) :: b := rfl

@[simp] theorem flipBit_cons_succ (x : Bool) (b : BitSeq) (i : Nat) :
    flipBit (x :: b) (i + 1) = x :: flipBit b i := rfl

@[simp] theorem flipBit_flipBit (b : BitSeq) (i : Nat) : flipBit (flipBit b i) i = b := by
  have hinvolutive : not ∘ not = id := Bool.involutive_not.comp_self
  rw [flipBit, flipBit, List.modify_modify_eq, hinvolutive, List.modify_id]

/-- A flip within the first part of a sequence leaves the rest. -/
theorem flipBit_append {b : BitSeq} {i : Nat} (h : i < b.length) (c : BitSeq) :
    flipBit (b ++ c) i = flipBit b i ++ c := by
  induction b generalizing i with
  | nil => exact absurd h (Nat.not_lt_zero i)
  | cons x b ih =>
    cases i with
    | zero => rfl
    | succ i => simp [ih (Nat.lt_of_succ_lt_succ h)]

/-! ## Parity (R101 to R103) -/

theorem popcount_cons (x : Bool) (b : BitSeq) : popcount (x :: b) = bitVal x + popcount b := by
  cases x <;> simp [popcount, bitVal, Nat.add_comm]

theorem parityBit_eq_false_iff {b : BitSeq} : parityBit b = false ↔ popcount b % 2 = 0 := by
  rw [parityBit, decide_eq_false_iff_not, Nat.mod_two_not_eq_one]

@[simp] theorem parityBit_nil : parityBit [] = false := rfl

/-- The parity bit is the XOR of all bits (R119). -/
@[simp] theorem parityBit_cons (x : Bool) (b : BitSeq) : parityBit (x :: b) = xor x (parityBit b) := by
  rw [parityBit, parityBit, popcount_cons]
  cases x with
  | false => simp [bitVal]
  | true =>
    have hodd : (1 + popcount b) % 2 = 1 ↔ ¬ popcount b % 2 = 1 := by omega
    simp only [bitVal, if_true, hodd, decide_not, Bool.true_xor]

@[simp] theorem parityBit_append (a b : BitSeq) : parityBit (a ++ b) = xor (parityBit a) (parityBit b) := by
  induction a with
  | nil => simp
  | cons x a ih => simp [ih]

theorem parityBit_flipBit {b : BitSeq} {i : Nat} (h : i < b.length) : parityBit (flipBit b i) = !parityBit b := by
  induction b generalizing i with
  | nil => exact absurd h (Nat.not_lt_zero i)
  | cons x b ih =>
    cases i with
    | zero => simp
    | succ i => simp [ih (Nat.lt_of_succ_lt_succ h)]

theorem parityBit_xorBits {b e : BitSeq} (h : e.length = b.length) :
    parityBit (xorBits b e) = xor (parityBit b) (parityBit e) := by
  induction b generalizing e with
  | nil => rw [List.eq_nil_of_length_eq_zero h]; rfl
  | cons x b ih =>
    cases e with
    | nil => cases h
    | cons y e =>
      have htail : parityBit (xorBits b e) = xor (parityBit b) (parityBit e) := ih (Nat.succ.inj h)
      simp only [xorBits, List.zipWith_cons_cons, parityBit_cons] at htail ⊢
      rw [htail, Bool.xor_assoc, Bool.xor_assoc, Bool.xor_left_comm y]

@[simp] theorem addParity_length (b : BitSeq) : (addParity b).length = b.length + 1 := List.length_append

@[simp] theorem parityBit_addParity (b : BitSeq) : parityBit (addParity b) = false := by simp [addParity]

/-- The last bit is the trailer, the bits before it the payload (R102). -/
theorem checkParity_append_singleton (p : BitSeq) (x : Bool) : checkParity (p ++ [x]) = (parityBit p == x) := by
  simp [checkParity]

/-- The check passes where the whole word has even parity (R102). -/
theorem checkParity_eq_not_parityBit {w : BitSeq} (h : w ≠ []) : checkParity w = !parityBit w := by
  obtain rfl | ⟨p, x, rfl⟩ := List.eq_nil_or_concat' w
  · exact absurd rfl h
  · rw [checkParity_append_singleton, parityBit_append]
    cases parityBit p <;> cases x <;> rfl

theorem checkParity_of_length {w : BitSeq} {n : Nat} (h : w.length = n + 1) : checkParity w = !parityBit w :=
  checkParity_eq_not_parityBit (List.ne_nil_of_length_eq_add_one h)

@[simp] theorem checkParity_addParity (b : BitSeq) : checkParity (addParity b) = true := by
  rw [checkParity_of_length (addParity_length b), parityBit_addParity, Bool.not_false]

/-- The comparison of R102 as one of numbers. -/
theorem parityBit_beq_eq_true_iff {p : BitSeq} {x : Bool} : (parityBit p == x) = true ↔ popcount p % 2 = bitVal x := by
  cases x <;> simp [parityBit, bitVal]

/-! ### The parity commands -/

theorem exec_parAdd (s : State) : exec .parAdd s = .next { s with bo := [addParity s.bi], status := 0x100#32 } :=
  congrArg Host.Outcome.next (State.finishBo_ok _ s)

/-- The end of a check: the payload, and the STATUS of its result (R102, R107). -/
theorem State.finishCheck_eq (p : BitSeq) (passed : Bool) (s : State) :
    s.finishCheck p passed = { s with bo := [p], status := if passed then 0x110#32 else 0x123#32 } := by
  cases passed <;> rfl

theorem exec_parChk_of_nil {s : State} (h : s.bi = []) :
    exec .parChk s = .next { s with bo := [[]], status := 0x123#32 } :=
  congrArg Host.Outcome.next (if_pos (List.length_eq_zero_iff.2 h))

theorem exec_parChk_of_append {s : State} {p : BitSeq} {x : Bool} (h : s.bi = p ++ [x]) :
    exec .parChk s = .next { s with bo := [p], status := if parityBit p == x then 0x110#32 else 0x123#32 } := by
  have hne : s.bi.length ≠ 0 := by simp [h]
  have hpayload : s.bi.take (s.bi.length - 1) = p := by simp [h]
  have hcheck : checkParity s.bi = (parityBit p == x) := by rw [h, checkParity_append_singleton]
  calc exec .parChk s = .next (s.finishCheck (s.bi.take (s.bi.length - 1)) (checkParity s.bi)) :=
        congrArg Host.Outcome.next (if_neg hne)
    _ = _ := by rw [hpayload, hcheck, State.finishCheck_eq]

/-- Settles O18: the appended bit is the parity bit, with which the parity of the whole is even; the check is the
parity of the whole word, by its split into payload and last bit. -/
theorem parityAddAndCheck : Obligations.ParityAddAndCheck := by
  refine ⟨⟨decode_encode .parAdd, exec_parAdd, fun b => ?_⟩, decode_encode .parChk, fun _ => exec_parChk_of_nil,
    fun s p x h => ?_, fun w hw => ?_⟩
  · exact parityBit_eq_false_iff.1 (parityBit_addParity b)
  · simp only [exec_parChk_of_append h, parityBit_beq_eq_true_iff]
  · rw [checkParity_eq_not_parityBit hw, Bool.not_eq_true', parityBit_eq_false_iff]

/-- Settles O19: a flip of one bit inverts the parity of the word, a mask adds its own parity to it, and an encoded
word has parity 0. -/
theorem parityProperties : Obligations.ParityProperties := by
  refine ⟨checkParity_addParity, fun b i hi => ?_, fun b e he => ?_⟩
  · have hlen : (flipBit (addParity b) i).length = b.length + 1 := by simp
    rw [checkParity_of_length hlen, parityBit_flipBit hi, parityBit_addParity]
    rfl
  · have hlen : (xorBits (addParity b) e).length = b.length + 1 := by simp [xorBits, he]
    rw [checkParity_of_length hlen, parityBit_xorBits (he.trans (addParity_length b).symm), parityBit_addParity,
      Bool.false_xor, Bool.not_eq_true', parityBit_eq_false_iff]

/-! ## CRC-32 (R104 to R107)

The inner step is linear over XOR. So the 8 inner steps of a byte split into those on its low 8 bits, which the table
holds, and those on the rest, which are shifts only. -/

theorem crcShift_eq_xor (c : Word) : crcShift c = (c >>> 1) ^^^ (if c.getLsbD 0 then crcPoly else 0#32) := by
  rw [crcShift]
  split
  · rfl
  · rw [BitVec.xor_zero]

theorem crcShift_xor (a b : Word) : crcShift (a ^^^ b) = crcShift a ^^^ crcShift b := by
  have hpoly : (if xor (a.getLsbD 0) (b.getLsbD 0) then crcPoly else 0#32) =
      (if a.getLsbD 0 then crcPoly else 0#32) ^^^ (if b.getLsbD 0 then crcPoly else 0#32) := by
    cases a.getLsbD 0 <;> cases b.getLsbD 0 <;> rfl
  rw [crcShift_eq_xor, crcShift_eq_xor a, crcShift_eq_xor b, BitVec.ushiftRight_xor_distrib, BitVec.getLsbD_xor, hpoly]
  ac_rfl

theorem crcShifts_xor (n : Nat) (a b : Word) : crcShifts n (a ^^^ b) = crcShifts n a ^^^ crcShifts n b := by
  induction n generalizing a b with
  | zero => rfl
  | succ n ih => rw [crcShifts, crcShift_xor, ih, ← crcShifts, ← crcShifts]

/-- Where the low bits are 0, the inner steps never meet a 1 to XOR the polynomial for. -/
theorem crcShifts_of_low_zero {n : Nat} {c : Word} (h : ∀ i < n, c.getLsbD i = false) : crcShifts n c = c >>> n := by
  induction n generalizing c with
  | zero => exact (BitVec.ushiftRight_zero c).symm
  | succ n ih =>
    have hshift : crcShift c = c >>> 1 := by rw [crcShift, h 0 n.succ_pos]; rfl
    have hlow : ∀ i < n, (c >>> 1).getLsbD i = false := fun i hi => by
      rw [BitVec.getLsbD_ushiftRight, h (1 + i) (by omega)]
    rw [crcShifts, hshift, ih hlow, ← BitVec.shiftRight_add, Nat.add_comm]

theorem getLsbD_lowByteMask : ∀ i < 32, (0xFF#32).getLsbD i = decide (i < 8) := by decide

/-- A byte enters the low 8 bits only (R105). -/
theorem xor_byte_split (c : Word) (y : Byte) :
    c ^^^ y.setWidth 32 = ((c ^^^ y.setWidth 32) &&& 0xFF#32) ^^^ ((c >>> 8) <<< 8) := by
  refine BitVec.eq_of_getLsbD_eq fun i hi => ?_
  simp only [BitVec.getLsbD_xor, BitVec.getLsbD_and, getLsbD_lowByteMask i hi, BitVec.getLsbD_shiftLeft,
    BitVec.getLsbD_ushiftRight, BitVec.getLsbD_setWidth]
  by_cases hlow : i < 8
  · simp [hlow]
  · have hindex : 8 + (i - 8) = i := by omega
    simp [hlow, hi, hindex, BitVec.getLsbD_of_ge y i (by omega)]

/-- The table form of R105: the table entry of the low 8 bits, XORed with the rest shifted down. -/
theorem crcByte_eq_table (c : Word) (y : Byte) :
    crcByte c y = crcShifts 8 ((c ^^^ y.setWidth 32) &&& 0xFF#32) ^^^ (c >>> 8) := by
  have hlow : ∀ i < 8, ((c >>> 8) <<< 8).getLsbD i = false := fun i hi => by
    simp [BitVec.getLsbD_shiftLeft, hi]
  have hshift : ((c >>> 8) <<< 8) >>> 8 = c >>> 8 := by
    refine BitVec.eq_of_getLsbD_eq fun i _ => ?_
    simp only [BitVec.getLsbD_ushiftRight, BitVec.getLsbD_shiftLeft]
    by_cases hin : 8 + i < 32
    · simp [hin]
    · simp [hin, BitVec.getLsbD_of_ge c (8 + i) (by omega)]
  calc crcByte c y
      = crcShifts 8 (((c ^^^ y.setWidth 32) &&& 0xFF#32) ^^^ ((c >>> 8) <<< 8)) :=
        congrArg (crcShifts 8) (xor_byte_split c y)
    _ = _ := by rw [crcShifts_xor, crcShifts_of_low_zero hlow, hshift]

theorem crc32_eq_table (ys : List Byte) :
    crc32 ys = ys.foldl (fun c y => crcShifts 8 ((c ^^^ y.setWidth 32) &&& 0xFF#32) ^^^ (c >>> 8)) 0xFFFFFFFF#32
      ^^^ 0xFFFFFFFF#32 := by
  have hbyte : crcByte = fun c y => crcShifts 8 ((c ^^^ y.setWidth 32) &&& 0xFF#32) ^^^ (c >>> 8) :=
    funext fun c => funext fun y => crcByte_eq_table c y
  rw [crc32, hbyte]
  rfl

@[simp] theorem crc32_nil : crc32 [] = 0#32 := rfl

/-! ### Padding and the trailer -/

@[simp] theorem pad8_pad8 (n : Nat) : pad8 (pad8 n) = pad8 n := by
  have hpad := pad8_spec n
  have hpad' := pad8_spec (pad8 n)
  omega

/-- A sequence of whole bytes is not padded. -/
@[simp] theorem padz_padz (b : BitSeq) : padz (padz b) = padz b := by
  rw [padz, padz_length, pad8_pad8, Nat.sub_self, zeros, List.replicate_zero, List.append_nil]

@[simp] theorem addCrc32_length (b : BitSeq) : (addCrc32 b).length = pad8 b.length + 32 := by simp [addCrc32]

theorem val_be_toNat (w : Word) : val (be w.toNat 32) = w.toNat := by rw [val_be, Nat.mod_eq_of_lt w.isLt]

/-- The last 32 bits are the trailer, the bits before them the payload (R107). -/
theorem checkCrc32_append {t : BitSeq} (ht : t.length = 32) (p : BitSeq) :
    checkCrc32 (p ++ t) = ((crc32 (bytesOf (padz p))).toNat == val t) := by
  simp [checkCrc32, ht]

/-- R108, its first clause. -/
@[simp] theorem checkCrc32_addCrc32 (b : BitSeq) : checkCrc32 (addCrc32 b) = true := by
  rw [addCrc32, checkCrc32_append (be_length _ _), padz_padz, val_be_toNat, beq_self_eq_true]

/-! ### The CRC commands -/

theorem exec_crcAdd (s : State) : exec .crcAdd s = .next { s with bo := [addCrc32 s.bi], status := 0x100#32 } :=
  congrArg Host.Outcome.next (State.finishBo_ok _ s)

theorem exec_crcChk_of_short {s : State} (h : s.bi.length < 32) :
    exec .crcChk s = .next { s with bo := [[]], status := 0x123#32 } :=
  congrArg Host.Outcome.next (if_pos h)

theorem exec_crcChk_of_append {s : State} {p t : BitSeq} (h : s.bi = p ++ t) (ht : t.length = 32) :
    exec .crcChk s =
      .next { s with bo := [p], status := if checkCrc32 (p ++ t) then 0x110#32 else 0x123#32 } := by
  have hlong : ¬ s.bi.length < 32 := by simp [h, ht]
  have hpayload : s.bi.take (s.bi.length - 32) = p := by simp [h, ht]
  calc exec .crcChk s = .next (s.finishCheck (s.bi.take (s.bi.length - 32)) (checkCrc32 s.bi)) :=
        congrArg Host.Outcome.next (if_neg hlong)
    _ = _ := by rw [hpayload, State.finishCheck_eq, ← h]

/-- Settles O20: the definitions of the model are the byte-wise ones of R105, and the table form agrees with them by the
linearity of the inner step. -/
theorem crcAppendsChecksum : Obligations.CrcAppendsChecksum :=
  ⟨⟨decode_encode .crcAdd, exec_crcAdd, fun b => ⟨rfl, addCrc32_length b⟩⟩, ⟨crc32_eq_table, crc32_nil⟩,
    fun _ => rfl, fun _ => rfl, fun _ => rfl⟩

/-- Settles O21: the check splits the word into payload and trailer; what CRC.ADD made splits into the padded payload
and its checksum. -/
theorem crcCheckAndRoundTrip : Obligations.CrcCheckAndRoundTrip := by
  refine ⟨⟨decode_encode .crcChk, fun _ => exec_crcChk_of_short, fun s p t h ht => ?_⟩, fun s b h => ?_⟩
  · simp only [exec_crcChk_of_append h ht, checkCrc32_append ht, beq_iff_eq]
  · rw [exec_crcChk_of_append h (be_length _ _), ← addCrc32, checkCrc32_addCrc32]
    rfl

/-! ## The geometry of a codeword (R110)

`dataCount n` counts the positions up to n that are no power of two. It grows by 0 or 1 with each position, and `hn` is
its least inverse: `hn_le_iff` says so, and R110 follows from it. -/

theorem lt_rOf_iff {i n : Nat} : i < rOf n ↔ 2 ^ i ≤ n := by
  rcases n.eq_zero_or_pos with rfl | hn
  · simp [rOf, clog2]
  · rw [rOf, clog2, if_neg (by omega), Nat.add_sub_cancel, Nat.lt_succ_iff, Nat.le_log2 hn.ne']

@[simp] theorem isPow2_two_pow (i : Nat) : isPow2 (2 ^ i) = true := by
  simp [isPow2, Nat.log2_two_pow]

theorem isPow2_iff {p : Nat} : isPow2 p = true ↔ ∃ i, p = 2 ^ i := by
  constructor
  · intro h
    rw [isPow2, Bool.and_eq_true, beq_iff_eq] at h
    obtain ⟨-, hlog⟩ := h
    exact ⟨p.log2, hlog.symm⟩
  · rintro ⟨i, rfl⟩
    exact isPow2_two_pow i

/-- A codeword gets one more parity bit exactly at a power of two. -/
theorem rOf_succ (n : Nat) : rOf (n + 1) = rOf n + if isPow2 (n + 1) then 1 else 0 := by
  split
  · next h =>
    obtain ⟨j, hj⟩ := isPow2_iff.1 h
    have hn : rOf n = j := eq_of_forall_lt_iff fun i => by
      rw [lt_rOf_iff, ← Nat.lt_succ_iff, ← Nat.add_one, hj, Nat.pow_lt_pow_iff_right Nat.one_lt_two]
    have hsucc : rOf (n + 1) = j + 1 := eq_of_forall_lt_iff fun i => by
      rw [lt_rOf_iff, hj, Nat.pow_le_pow_iff_right Nat.one_lt_two, Nat.lt_succ_iff]
    rw [hsucc, hn]
  · next h =>
    refine eq_of_forall_lt_iff fun i => ?_
    have hne : 2 ^ i ≠ n + 1 := fun h' => h (isPow2_iff.2 ⟨i, h'.symm⟩)
    rw [lt_rOf_iff, Nat.add_zero (rOf n), lt_rOf_iff]
    omega

theorem rOf_le (n : Nat) : rOf n ≤ n :=
  le_of_forall_lt fun i hi => i.lt_two_pow_self.trans_le (lt_rOf_iff.1 hi)

/-- The number of data positions of an n-bit codeword (R110). -/
def dataCount (n : Nat) : Nat := n - rOf n

theorem dataCount_succ (n : Nat) : dataCount (n + 1) = dataCount n + if isPow2 (n + 1) then 0 else 1 := by
  have hle := rOf_le n
  have hsucc := rOf_succ n
  rw [dataCount, dataCount, hsucc]
  split <;> omega

theorem dataCount_mono : Monotone dataCount :=
  monotone_nat_of_le_succ fun n => (dataCount_succ n).symm ▸ Nat.le_add_right _ _

/-- Up to 2k + 1 there is room for k data bits. -/
theorem le_dataCount (k : Nat) : k ≤ dataCount (2 * k + 1) := by
  have hpow : 2 * k + 1 < 2 ^ (k + 1) := by
    have hk := k.lt_two_pow_self
    rw [Nat.pow_succ]
    omega
  have hr : rOf (2 * k + 1) ≤ k + 1 := Nat.le_of_not_lt fun h => by rw [lt_rOf_iff] at h; omega
  rw [dataCount]
  omega

/-- The search finds the first candidate with room for k data bits, if there is one within its bound. -/
theorem hnFrom_le_iff {fuel m k n : Nat} (hfirst : ∀ j < m, dataCount j < k) (hroom : k ≤ dataCount (m + fuel)) :
    hnFrom fuel m k ≤ n ↔ k ≤ dataCount n := by
  induction fuel generalizing m with
  | zero =>
    constructor
    · exact fun h => hroom.trans (dataCount_mono h)
    · exact fun h => Nat.le_of_not_lt fun hlt => (hfirst n hlt).not_ge h
  | succ fuel ih =>
    rw [hnFrom]
    split
    · next hm =>
      constructor
      · exact fun h => le_trans hm (dataCount_mono h)
      · exact fun h => Nat.le_of_not_lt fun hlt => (hfirst n hlt).not_ge h
    · next hm =>
      refine ih (fun j hj => ?_) (by rwa [Nat.add_right_comm])
      rcases Nat.lt_succ_iff_lt_or_eq.1 hj with hj | rfl
      · exact hfirst j hj
      · exact Nat.lt_of_not_le hm

/-- R110: `hn` and `dataCount` are a Galois connection. -/
theorem hn_le_iff {k n : Nat} : hn k ≤ n ↔ k ≤ dataCount n := by
  refine hnFrom_le_iff (fun j hj => (Nat.sub_le ..).trans_lt hj) ((le_dataCount k).trans (dataCount_mono ?_))
  omega

@[simp] theorem dataCount_zero : dataCount 0 = 0 := rfl

/-- A codeword is filled exactly, and its last position is no power of two. -/
theorem dataCount_hn_and_isPow2_hn (k : Nat) : dataCount (hn k) = k ∧ isPow2 (hn k) = false := by
  have hroom : k ≤ dataCount (hn k) := hn_le_iff.1 le_rfl
  cases h : hn k with
  | zero =>
    have hk : k ≤ dataCount 0 := hn_le_iff.1 h.le
    rw [dataCount_zero] at hk ⊢
    exact ⟨by omega, rfl⟩
  | succ m =>
    have hless : ¬ k ≤ dataCount m := fun hk => by
      have hle : hn k ≤ m := hn_le_iff.2 hk
      omega
    rw [h, dataCount_succ] at hroom
    rw [dataCount_succ]
    cases hp : isPow2 (m + 1) with
    | true => simp only [hp, if_true] at hroom; omega
    | false => simp only [hp, Bool.false_eq_true, if_false] at hroom ⊢; exact ⟨by omega, trivial⟩

@[simp] theorem dataCount_hn (k : Nat) : dataCount (hn k) = k := (dataCount_hn_and_isPow2_hn k).1

theorem hn_strictMono : StrictMono hn :=
  strictMono_nat_of_lt_succ fun k => Nat.lt_of_not_le fun h => by
    rw [hn_le_iff, dataCount_hn] at h
    omega

/-- Settles O22: all but the shape of the last position is the Galois connection. -/
theorem hammingGeometry : Obligations.HammingGeometry := by
  intro k
  refine ⟨dataCount_hn k, fun n h => ?_, (dataCount_hn_and_isPow2_hn k).2, hn_strictMono k.lt_succ_self, ?_⟩
  · exact Nat.lt_of_not_le fun hk => (hn_le_iff.2 hk).not_gt h
  · rw [Nat.add_comm, Nat.add_comm k]
    exact hn_strictMono.add_le_nat 8 k

/-! ## Data positions (R110, R112, R114) -/

@[simp] theorem placeData_length (m p : Nat) (b : BitSeq) : (placeData m p b).length = m := by
  induction m generalizing p b with
  | zero => rfl
  | succ m ih =>
    rw [placeData]
    split <;> simp [ih]

@[simp] theorem fillParity_length (c0 : BitSeq) (p : Nat) (w : BitSeq) : (fillParity c0 p w).length = w.length := by
  induction w generalizing p with
  | nil => rfl
  | cons x w ih => simp [fillParity, ih]

/-- The data bits read back from their positions: as many as there are positions after the first n. -/
theorem dataBits_placeData {m n : Nat} {b : BitSeq} (h : dataCount n + b.length = dataCount (n + m)) :
    dataBits (n + 1) (placeData m (n + 1) b) = b := by
  induction m generalizing n b with
  | zero => exact (List.eq_nil_of_length_eq_zero (by simpa using h)).symm
  | succ m ih =>
    have hnext : dataCount (n + (m + 1)) = dataCount (n + 1 + m) := by rw [Nat.add_right_comm, Nat.add_assoc]
    have hroom : dataCount (n + 1) ≤ dataCount (n + 1 + m) := dataCount_mono (Nat.le_add_right _ _)
    have hstep := dataCount_succ n
    rw [placeData]
    split
    · next hp =>
      rw [if_pos hp] at hstep
      rw [dataBits, if_pos hp, ih (by omega)]
    · next hp =>
      rw [if_neg hp] at hstep
      cases b with
      | nil => rw [List.length_nil] at h; omega
      | cons x b =>
        rw [List.length_cons] at h
        rw [dataBits, if_neg hp, List.headD_cons, List.tail_cons, ih (by omega)]

/-- Parity bits are no data bits. -/
theorem dataBits_fillParity (c0 : BitSeq) (p : Nat) (w : BitSeq) : dataBits p (fillParity c0 p w) = dataBits p w := by
  induction w generalizing p with
  | nil => rfl
  | cons x w ih =>
    rw [fillParity, dataBits, dataBits, ih]
    split <;> rfl

@[simp] theorem hammingEncode_length (b : BitSeq) : (hammingEncode b).length = hn b.length := by
  rw [hammingEncode, fillParity_length, placeData_length]

@[simp] theorem dataBits_hammingEncode (b : BitSeq) : dataBits 1 (hammingEncode b) = b := by
  rw [hammingEncode, dataBits_fillParity]
  exact dataBits_placeData (n := 0) (by rw [dataCount_zero, Nat.zero_add, Nat.zero_add, dataCount_hn])

/-! ## Parity groups (R111, R112) -/

/-- The group of 2^i holds one parity position, 2^i itself (R111): filling in the parity bits adds to its XOR the bit
put there, if 2^i is among the positions. -/
theorem groupXor_fillParity (c0 : BitSeq) (i m p : Nat) (b : BitSeq) :
    groupXor i p (fillParity c0 p (placeData m p b)) =
      xor (decide (p ≤ 2 ^ i ∧ 2 ^ i < p + m) && groupXor i 1 c0) (groupXor i p (placeData m p b)) := by
  induction m generalizing p b with
  | zero =>
    have hout : ¬ (p ≤ 2 ^ i ∧ 2 ^ i < p + 0) := by omega
    rw [placeData, fillParity, groupXor, decide_eq_false hout, Bool.false_and, Bool.xor_false]
  | succ m ih =>
    rw [placeData]
    split
    · next hp =>
      obtain ⟨j, rfl⟩ := isPow2_iff.1 hp
      rw [fillParity, if_pos hp, groupXor, groupXor, ih, Nat.log2_two_pow, Nat.testBit_two_pow]
      by_cases hij : i = j
      · subst hij
        simp
      · have hne : 2 ^ j ≠ 2 ^ i := fun h => hij (Nat.pow_right_injective le_rfl h).symm
        have hrange : (2 ^ j + 1 ≤ 2 ^ i ∧ 2 ^ i < 2 ^ j + 1 + m) ↔ (2 ^ j ≤ 2 ^ i ∧ 2 ^ i < 2 ^ j + (m + 1)) := by
          omega
        simp only [Ne.symm hij, decide_false, Bool.false_and, Bool.false_xor, hrange]
    · next hp =>
      have hne : 2 ^ i ≠ p := fun h => hp (isPow2_iff.2 ⟨i, h.symm⟩)
      have hrange : (p + 1 ≤ 2 ^ i ∧ 2 ^ i < p + 1 + m) ↔ (p ≤ 2 ^ i ∧ 2 ^ i < p + (m + 1)) := by omega
      rw [fillParity, if_neg hp, groupXor, groupXor, ih, Bool.xor_left_comm]
      simp only [hrange]

/-- After encoding every parity group is even (R112). -/
theorem groupXor_hammingEncode {b : BitSeq} {i : Nat} (hi : i < rOf (hn b.length)) :
    groupXor i 1 (hammingEncode b) = false := by
  have hin : 1 ≤ 2 ^ i ∧ 2 ^ i < 1 + hn b.length := by
    have hpos := Nat.two_pow_pos i
    have hle := lt_rOf_iff.1 hi
    omega
  rw [hammingEncode, groupXor_fillParity, decide_eq_true hin, Bool.true_and, Bool.xor_self]

/-- A flip at index k, which is position p + k, inverts the groups of that position. -/
theorem groupXor_flipBit {w : BitSeq} {k : Nat} (hk : k < w.length) (i p : Nat) :
    groupXor i p (flipBit w k) = xor (groupXor i p w) ((p + k).testBit i) := by
  induction w generalizing k p with
  | nil => exact absurd hk (Nat.not_lt_zero k)
  | cons x w ih =>
    cases k with
    | zero => cases hbit : p.testBit i <;> simp [groupXor, hbit]
    | succ k =>
      have hpos : p + 1 + k = p + (k + 1) := by omega
      rw [flipBit_cons_succ, groupXor, groupXor, ih (Nat.lt_of_succ_lt_succ hk), hpos, Bool.xor_assoc]

/-! ## The syndrome (R114) -/

theorem syndrome_lt (w : BitSeq) (r : Nat) : syndrome w r < 2 ^ r := by
  induction r with
  | zero => exact Nat.one_pos
  | succ r ih =>
    rw [syndrome, Nat.pow_succ]
    split <;> omega

/-- Bit i of the syndrome is the XOR of group i. -/
theorem testBit_syndrome (w : BitSeq) (r i : Nat) :
    (syndrome w r).testBit i = (decide (i < r) && groupXor i 1 w) := by
  induction r with
  | zero => simp [syndrome]
  | succ r ih =>
    have hlt := syndrome_lt w r
    rcases Nat.lt_trichotomy i r with hi | rfl | hi
    · have hi' : i < r + 1 := by omega
      rw [syndrome]
      split
      · rw [Nat.add_comm, Nat.testBit_two_pow_add_gt hi, ih]
        simp [hi, hi']
      · simp [ih, hi, hi']
    · rw [syndrome]
      split
      · next hg => rw [Nat.add_comm, Nat.testBit_two_pow_add_eq, Nat.testBit_lt_two_pow hlt]; simp [hg]
      · next hg => simpa [hg] using Nat.testBit_lt_two_pow hlt
    · have hout : ¬ i < r + 1 := by omega
      have hle : 2 ^ (r + 1) ≤ 2 ^ i := Nat.pow_le_pow_right Nat.two_pos (by omega)
      simpa [hout] using Nat.testBit_lt_two_pow ((syndrome_lt w (r + 1)).trans_le hle)

@[simp] theorem syndrome_hammingEncode (b : BitSeq) : syndrome (hammingEncode b) (rOf (hn b.length)) = 0 := by
  refine Nat.eq_of_testBit_eq fun i => ?_
  rw [testBit_syndrome, Nat.zero_testBit]
  by_cases hi : i < rOf (hn b.length)
  · simp [groupXor_hammingEncode hi]
  · simp [hi]

/-- A flip at position k + 1 adds that position to the syndrome. -/
theorem syndrome_flipBit {w : BitSeq} {k : Nat} (hk : k < w.length) :
    syndrome (flipBit w k) (rOf w.length) = syndrome w (rOf w.length) ^^^ (k + 1) := by
  refine Nat.eq_of_testBit_eq fun i => ?_
  rw [Nat.testBit_xor, testBit_syndrome, testBit_syndrome, groupXor_flipBit hk, Nat.add_comm 1 k]
  by_cases hi : i < rOf w.length
  · simp [hi]
  · have hpos : k + 1 < 2 ^ i := by
      rw [lt_rOf_iff] at hi
      omega
    simp [hi, Nat.testBit_lt_two_pow hpos]

/-! ## Decoding (R114, R115) -/

theorem hammingDecode_of_clean {w : BitSeq} (h : syndrome w (rOf w.length) = 0) :
    hammingDecode w = ⟨dataBits 1 w, false, false, 0⟩ := by
  simp [hammingDecode, h]

theorem hammingDecode_of_inRange {w : BitSeq} {syn : Nat} (h : syndrome w (rOf w.length) = syn) (hpos : 0 < syn)
    (hle : syn ≤ w.length) : hammingDecode w = ⟨dataBits 1 (flipBit w (syn - 1)), true, false, syn⟩ := by
  simp [hammingDecode, h, hpos, hle]

theorem hammingDecode_of_outOfRange {w : BitSeq} {syn : Nat} (h : syndrome w (rOf w.length) = syn)
    (hlt : w.length < syn) : hammingDecode w = ⟨dataBits 1 w, false, true, syn⟩ := by
  simp [hammingDecode, h, hlt]

theorem hammingDecode_syn (w : BitSeq) : (hammingDecode w).syn = syndrome w (rOf w.length) := by
  rw [hammingDecode]
  split <;> rfl

/-- No error (R116). -/
@[simp] theorem hammingDecode_hammingEncode (b : BitSeq) : hammingDecode (hammingEncode b) = ⟨b, false, false, 0⟩ := by
  rw [hammingDecode_of_clean (by simp), dataBits_hammingEncode]

/-- The syndrome of one flipped bit is its position. -/
theorem syndrome_flipBit_hammingEncode {b : BitSeq} {i : Nat} (hi : i < (hammingEncode b).length) :
    syndrome (flipBit (hammingEncode b) i) (rOf (hammingEncode b).length) = i + 1 := by
  rw [syndrome_flipBit hi, hammingEncode_length, syndrome_hammingEncode, Nat.zero_xor]

/-- One error (R116): the decoder flips the bit back. -/
theorem hammingDecode_flipBit_hammingEncode {b : BitSeq} {i : Nat} (hi : i < (hammingEncode b).length) :
    hammingDecode (flipBit (hammingEncode b) i) = ⟨b, true, false, i + 1⟩ := by
  have hsyn := syndrome_flipBit_hammingEncode hi
  rw [← flipBit_length _ i] at hsyn
  rw [hammingDecode_of_inRange hsyn i.succ_pos (by rwa [flipBit_length]), Nat.add_sub_cancel, flipBit_flipBit,
    dataBits_hammingEncode]

/-- Settles O25: a flip adds its position to the syndrome, which is 0 for a codeword; two different positions never
cancel. -/
theorem hammingCorrectsOneError : Obligations.HammingCorrectsOneError := by
  refine ⟨hammingDecode_hammingEncode, fun _ _ => hammingDecode_flipBit_hammingEncode,
    fun b p q hp hpn hq hqn hpq => ?_⟩
  refine ⟨?_, fun h => hpq (Nat.xor_eq_zero_iff.1 h)⟩
  have hfirst := syndrome_flipBit_hammingEncode (b := b) (i := p - 1) (by omega)
  have hsecond := syndrome_flipBit (w := flipBit (hammingEncode b) (p - 1)) (k := q - 1) (by rw [flipBit_length]; omega)
  rw [hammingDecode_syn, flipBit_length, hsecond, flipBit_length, hfirst, Nat.sub_add_cancel hp, Nat.sub_add_cancel hq]

/-! ### The Hamming commands -/

theorem exec_hamEnc (s : State) : exec .hamEnc s = .next { s with bo := [hammingEncode s.bi], status := 0x100#32 } :=
  congrArg Host.Outcome.next (State.finishBo_ok _ s)

theorem exec_hamDec {s : State} {d : Decoded} (h : hammingDecode s.bi = d) :
    exec .hamDec s = .next { s with bo := [d.data], status := (statusWord (if d.failed then .correction else .ok)
      (decodeFlags d.corrected d.failed)) } := by
  rw [← h]
  rfl

/-- Settles O23: the data bits read back are those placed, and each group's parity bit was set to the XOR of the
rest. -/
theorem hammingEncodes : Obligations.HammingEncodes :=
  ⟨decode_encode .hamEnc, exec_hamEnc, fun b =>
    ⟨hammingEncode_length b, dataBits_hammingEncode b, fun _ => groupXor_hammingEncode⟩⟩

/-- Settles O24: the three cases of the decoder, each with its flags. -/
theorem hammingDecodes : Obligations.HammingDecodes := by
  refine ⟨decode_encode .hamDec, fun s syn hsyn => ⟨fun h => ?_, fun hpos hle => ?_, fun hlt => ?_⟩⟩
  · exact exec_hamDec (hammingDecode_of_clean (hsyn.symm.trans h))
  · exact exec_hamDec (hammingDecode_of_inRange hsyn.symm hpos hle)
  · exact exec_hamDec (hammingDecode_of_outOfRange hsyn.symm hlt)

/-! ## Protection undone (R118, R221 to R223, R229) -/

theorem addTrailer_length (y : BitSeq) (m : Det) : (addTrailer y m).length = lenAfter y.length m := by
  cases m with
  | parity => exact addParity_length y
  | crc32 => exact addCrc32_length y

theorem foldl_addTrailer_length (ms : List Det) (y : BitSeq) :
    (ms.foldl addTrailer y).length = ms.foldl lenAfter y.length := by
  induction ms generalizing y with
  | nil => rfl
  | cons m ms ih => rw [List.foldl_cons, List.foldl_cons, ih, addTrailer_length]

/-- The length of a protected chunk (R221). -/
@[simp] theorem protect_length (c : CfgFields) (ch : BitSeq) : (protect c ch).length = plen c ch.length := by
  rw [protect, plen, xlen]
  split <;> simp [foldl_addTrailer_length]

/-- A trailer and its pad stand after the sequence. -/
theorem take_addTrailer (y : BitSeq) (m : Det) : (addTrailer y m).take y.length = y := by
  cases m <;> simp [addTrailer, addParity, addCrc32, padz]

theorem checkTrailer_addTrailer (y : BitSeq) (m : Det) : checkTrailer m (addTrailer y m) = true := by
  cases m with
  | parity => exact checkParity_addParity y
  | crc32 => exact checkCrc32_addCrc32 y

/-- Checking and stripping undoes appending, for every detection list (R118, R229). -/
theorem stripTrailers_foldl_addTrailer (ms : List Det) (ch : BitSeq) :
    stripTrailers ms ch.length (ms.foldl addTrailer ch) = (ch, List.replicate ms.length true) := by
  induction ms generalizing ch with
  | nil => rfl
  | cons m ms ih =>
    rw [List.foldl_cons, stripTrailers, ← addTrailer_length, ih, take_addTrailer, checkTrailer_addTrailer,
      List.length_cons, List.replicate_succ']

/-- What `unprotect` does with the plen(d) bits: the decoder where Hamming is on, then the checks (R229). -/
theorem unprotect_eq (c : CfgFields) (w : BitSeq) (d : Nat) {q y : BitSeq} (hq : w.take (plen c d) = q)
    (hy : y = if c.ham then (hammingDecode q).data else q) :
    unprotect c w d = ⟨(stripTrailers c.det d y).1, (stripTrailers c.det d y).2,
      c.ham && (hammingDecode q).corrected, c.ham && (hammingDecode q).failed⟩ := by
  subst hq hy
  rw [unprotect]
  cases c.ham <;> rfl

/-- The ALIGN pad stands after the protected chunk (R222). -/
theorem take_padz_protect (c : CfgFields) (ch : BitSeq) :
    (padz (protect c ch)).take (plen c ch.length) = protect c ch :=
  List.take_left' (protect_length c ch)

theorem take_flipBit_padz_protect {c : CfgFields} {ch : BitSeq} {p : Nat} (hp : p < plen c ch.length) :
    (flipBit (padz (protect c ch)) p).take (plen c ch.length) = flipBit (protect c ch) p := by
  rw [padz, flipBit_append (by rwa [protect_length])]
  exact List.take_left' (by rw [flipBit_length, protect_length])

theorem unprotect_padz_protect (c : CfgFields) (ch : BitSeq) :
    unprotect c (padz (protect c ch)) ch.length = ⟨ch, List.replicate c.det.length true, false, false⟩ := by
  have hy : c.det.foldl addTrailer ch = if c.ham then (hammingDecode (protect c ch)).data else protect c ch := by
    rw [protect]
    cases c.ham <;> simp
  rw [unprotect_eq c _ _ (take_padz_protect c ch) hy, stripTrailers_foldl_addTrailer, protect]
  cases c.ham <;> simp

/-- One flipped bit of the codeword is corrected before the checks. -/
theorem unprotect_flipBit_padz_protect {c : CfgFields} {ch : BitSeq} {p : Nat} (hham : c.ham = true)
    (hp : p < plen c ch.length) :
    unprotect c (flipBit (padz (protect c ch)) p) ch.length = ⟨ch, List.replicate c.det.length true, true, false⟩ := by
  have hprotect : protect c ch = hammingEncode (c.det.foldl addTrailer ch) := if_pos hham
  have hdecode : hammingDecode (flipBit (protect c ch) p) = ⟨c.det.foldl addTrailer ch, true, false, p + 1⟩ := by
    rw [← protect_length, hprotect] at hp
    rw [hprotect, hammingDecode_flipBit_hammingEncode hp]
  have hy : c.det.foldl addTrailer ch =
      if c.ham then (hammingDecode (flipBit (protect c ch) p)).data else flipBit (protect c ch) p := by
    rw [if_pos hham, hdecode]
  rw [unprotect_eq c _ _ (take_flipBit_padz_protect hp) hy, stripTrailers_foldl_addTrailer, hdecode, hham]
  rfl

/-! ### The detection lists written out -/

theorem protect_of_det {c : CfgFields} {ms : List Det} (h : c.det = ms) (ch : BitSeq) :
    protect c ch = if c.ham then hammingEncode (ms.foldl addTrailer ch) else ms.foldl addTrailer ch := by
  rw [protect, h]

theorem unprotect_of_det {c : CfgFields} {ms : List Det} {d n : Nat} {w y : BitSeq} (h : c.det = ms)
    (hlen : n = plen c d) (hy : y = if c.ham then (hammingDecode (w.take n)).data else w.take n) :
    n = (if c.ham then hn (ms.foldl lenAfter d) else ms.foldl lenAfter d) ∧
      (unprotect c w d).payload = (stripTrailers ms d y).1 ∧ (unprotect c w d).checks = (stripTrailers ms d y).2 := by
  subst h hlen
  rw [unprotect_eq c w d rfl hy]
  exact ⟨rfl, rfl, rfl⟩

/-- Settles O48: stripping undoes appending by induction over the detection list, decoding undoes encoding, also after
a flip; the five lists are cases of `protect_of_det` and `unprotect_of_det`. -/
theorem unprotectInvertsProtect : Obligations.UnprotectInvertsProtect := by
  refine fun c ch => ⟨unprotect_padz_protect c ch, fun hham p => unprotect_flipBit_padz_protect hham, ?_, ?_⟩
  · rintro _ _ _ _ rfl rfl rfl rfl
    exact ⟨(protect_of_det · ch), (protect_of_det · ch), (protect_of_det · ch), (protect_of_det · ch),
      (protect_of_det · ch)⟩
  · intro d n w y hlen hy
    have hflags := unprotect_eq c w d rfl (hlen ▸ hy)
    refine ⟨(unprotect_of_det · hlen hy), (unprotect_of_det · hlen hy), (unprotect_of_det · hlen hy),
      (unprotect_of_det · hlen hy), (unprotect_of_det · hlen hy), ?_, ?_⟩
    · rw [hflags, hlen]
    · rw [hflags, hlen]

end Sys2Proof.Machine

/-! The statements of family 42 (spec/42_framer.md): splitting, counted frames, stuffed frames. Counted deframing is
inverted once (`deframeByCount_eq_some_iff`), so both statements about it read off one equivalence. Stuffed deframing is
said once of the grammar of R142 (`deframeByStuffing_tokenStream`); every byte stream is of that grammar, and stuffed
frames are of it with one segment per chunk and an empty one after it. -/

namespace Sys2Proof.Machine

/-! ## Reading MAXPL, DELIM and ESC (R24, R32) -/

theorem readMaxpl_of_ne_zero {s : State} (h : s.maxpl ≠ 0#32) : readMaxpl s = some s.maxpl.toNat :=
  if_neg fun h0 => h (BitVec.eq_of_toNat_eq h0)

theorem readMaxpl_of_eq_zero {s : State} (h : s.maxpl = 0#32) : readMaxpl s = none :=
  if_pos (congrArg BitVec.toNat h)

theorem readDelimEsc_of_ne {s : State} {d e : Byte} (hd : d = s.delim.extractLsb' 0 8)
    (he : e = s.esc.extractLsb' 0 8) (hne : d ≠ e) : readDelimEsc s = some (d, e) :=
  readDelimEsc_eq_some.2 ⟨hd.symm, he.symm, hne⟩

theorem readDelimEsc_of_eq {s : State} (h : s.delim.extractLsb' 0 8 = s.esc.extractLsb' 0 8) :
    readDelimEsc s = none :=
  if_pos h

/-! ## Splitting (R131) -/

theorem splitBits_length (b : BitSeq) (M : Nat) : (splitBits b M).length = ceilDiv b.length M := by simp [splitBits]

theorem splitBits_getElem? {b : BitSeq} {M i : Nat} (hi : i < (splitBits b M).length) :
    (splitBits b M)[i]? = some (sub b (i * M) M) := by
  rw [splitBits_length] at hi
  simp [splitBits, hi]

/-- Every chunk starts inside the sequence, so no chunk is empty. -/
theorem mul_lt_of_lt_splitBits_length {b : BitSeq} {M i : Nat} (hM : 1 ≤ M) (hi : i < (splitBits b M).length) :
    i * M < b.length := by
  rw [splitBits_length] at hi
  obtain ⟨-, hceil⟩ := ceilDiv_spec b.length M hM
  have hnext : M * (i + 1) ≤ M * ceilDiv b.length M := Nat.mul_le_mul_left M hi
  rw [Nat.mul_succ, Nat.mul_comm] at hnext
  omega

theorem ceilDiv_eq_succ {n M : Nat} (hn : 0 < n) (hM : 1 ≤ M) : ceilDiv n M = ceilDiv (n - M) M + 1 := by
  have hstep : (n + (M - 1)) / M = (n - 1) / M + 1 := by
    rw [← Nat.add_div_right _ hM]
    congr 1
    omega
  rw [ceilDiv, ceilDiv, hstep]
  rcases Nat.le_total n M with hle | hle
  · rw [Nat.div_eq_of_lt (by omega), Nat.div_eq_of_lt (by omega)]
  · have hnum : n - M + (M - 1) = n - 1 := by omega
    rw [hnum]

theorem splitBits_nil {M : Nat} (hM : 1 ≤ M) : splitBits [] M = [] := by
  have hcount : (splitBits [] M).length = 0 := by
    rw [splitBits_length, ceilDiv, List.length_nil]
    exact Nat.div_eq_of_lt (by omega)
  exact List.length_eq_zero_iff.1 hcount

/-- The first chunk, and the split of what follows it. -/
theorem splitBits_of_ne_nil {b : BitSeq} {M : Nat} (hb : b ≠ []) (hM : 1 ≤ M) :
    splitBits b M = b.take M :: splitBits (b.drop M) M := by
  have hnext (i : Nat) : sub b ((i + 1) * M) M = sub (b.drop M) (i * M) M := by
    rw [sub, sub, List.drop_drop, Nat.succ_mul, Nat.add_comm M]
  rw [splitBits, ceilDiv_eq_succ (List.length_pos_iff.2 hb) hM, List.range_succ_eq_map, List.map_cons, List.map_map,
    splitBits, List.length_drop]
  simp only [Function.comp_def, Nat.succ_eq_add_one, hnext]
  simp [sub]

theorem splitBits_flatten (b : BitSeq) {M : Nat} (hM : 1 ≤ M) : (splitBits b M).flatten = b := by
  induction hn : b.length using Nat.strong_induction_on generalizing b with
  | _ n ih =>
    by_cases hb : b = []
    · rw [hb, splitBits_nil hM, List.flatten_nil]
    · have hpos := List.length_pos_iff.2 hb
      have hshort : (b.drop M).length < n := by rw [List.length_drop]; omega
      rw [splitBits_of_ne_nil hb hM, List.flatten_cons, ih _ hshort _ rfl, List.take_append_drop]

theorem length_le_of_mem_splitBits {b ch : BitSeq} {M : Nat} (h : ch ∈ splitBits b M) :
    ch.length ≤ min M b.length := by
  obtain ⟨i, -, rfl⟩ := List.mem_map.1 h
  rw [sub_length]
  omega

theorem exec_split (s : State) : exec .split s =
    .next (s.finishBo (andThen (orConfig (readMaxpl s)) fun M => .ok (splitBits s.bi M))) := rfl

theorem exec_split_of_ne_zero {s : State} (h : s.maxpl ≠ 0#32) :
    exec .split s = .next { s with bo := splitBits s.bi s.maxpl.toNat, status := 0x100#32 } := by
  rw [exec_split, readMaxpl_of_ne_zero h]
  rfl

theorem exec_split_of_eq_zero {s : State} (h : s.maxpl = 0#32) :
    exec .split s = .next { s with bo := [], status := 0x101#32 } := by
  rw [exec_split, readMaxpl_of_eq_zero h]
  rfl

/-- Settles O26: the chunks are windows of M bits from the multiples of M, all of which lie inside the sequence; their
concatenation by induction, one chunk at a time. -/
theorem splitCuts : Obligations.SplitCuts := by
  refine ⟨decode_encode .split, fun _ => exec_split_of_ne_zero, fun _ => exec_split_of_eq_zero, fun b M hM =>
    ⟨splitBits_flatten b hM, splitBits_length b M, fun i hi => ⟨?_, mul_lt_of_lt_splitBits_length hM hi⟩⟩⟩
  rw [splitBits_getElem? hi, sub, ← List.length_drop, List.take_eq_take_min]

/-! ## Counted frames (R132 to R134) -/

theorem allSome_map_some {α : Type} (l : List α) : allSome (l.map some) = some l := by
  induction l with
  | nil => rfl
  | cons x l ih => rw [List.map_cons, allSome, ih]

theorem allSome_map_of_forall {α β : Type} {f : α → Option β} {g : α → β} {l : List α}
    (h : ∀ x ∈ l, f x = some (g x)) : allSome (l.map f) = some (l.map g) := by
  rw [List.map_congr_left h, ← allSome_map_some, List.map_map]
  rfl

theorem allSome_cons_none {α : Type} (l : List (Option α)) : allSome (none :: l) = none := rfl

theorem wrapCount_of_le {ch : BitSeq} (h : ch.length ≤ 2040) :
    wrapCount ch = some (be ((ch.length + 7) / 8) 8 ++ ch) :=
  if_neg (show ¬ 255 < (ch.length + 7) / 8 by omega)

theorem wrapCount_of_lt {ch : BitSeq} (h : 2040 < ch.length) : wrapCount ch = none :=
  if_pos (show 255 < (ch.length + 7) / 8 by omega)

theorem frameByCount_of_le {b : BitSeq} {M : Nat} (h : min M b.length ≤ 2040) :
    frameByCount b M = some ((splitBits b M).map fun ch => be ((ch.length + 7) / 8) 8 ++ ch) :=
  allSome_map_of_forall fun _ hch => wrapCount_of_le ((length_le_of_mem_splitBits hch).trans h)

/-- Where one chunk is too long, the first is. -/
theorem frameByCount_of_lt {b : BitSeq} {M : Nat} (h : 2040 < min M b.length) : frameByCount b M = none := by
  have hb : b ≠ [] := List.length_pos_iff.1 (by omega)
  have hfirst : 2040 < (b.take M).length := by rwa [List.length_take]
  rw [frameByCount, splitBits_of_ne_nil hb (by omega), List.map_cons, wrapCount_of_lt hfirst, allSome_cons_none]

theorem exec_wrapCnt (s : State) : exec .wrapCnt s =
    .next (s.finishBo (andThen (orFraming (wrapCount s.bi)) fun f => .ok [f])) := rfl

theorem exec_wrapCnt_of_le {s : State} (h : s.bi.length ≤ 2040) :
    exec .wrapCnt s = .next { s with bo := [be ((s.bi.length + 7) / 8) 8 ++ s.bi], status := 0x100#32 } := by
  rw [exec_wrapCnt, wrapCount_of_le h]
  rfl

theorem exec_wrapCnt_of_lt {s : State} (h : 2040 < s.bi.length) :
    exec .wrapCnt s = .next { s with bo := [], status := 0x102#32 } := by
  rw [exec_wrapCnt, wrapCount_of_lt h]
  rfl

theorem exec_frmCnt (s : State) : exec .frmCnt s =
    .next (s.finishBo (andThen (orConfig (readMaxpl s)) fun M => orFraming (frameByCount s.bi M))) := rfl

theorem exec_frmCnt_of_ne_zero {s : State} (h : s.maxpl ≠ 0#32) :
    exec .frmCnt s = .next (s.finishBo (orFraming (frameByCount s.bi s.maxpl.toNat))) := by
  rw [exec_frmCnt, readMaxpl_of_ne_zero h]
  rfl

theorem exec_frmCnt_of_eq_zero {s : State} (h : s.maxpl = 0#32) :
    exec .frmCnt s = .next { s with bo := [], status := 0x101#32 } := by
  rw [exec_frmCnt, readMaxpl_of_eq_zero h]
  rfl

/-- Settles O27: 2040 bits are 255 bytes, and the longest chunk of a split has the lesser of MAXPL and len(BI) bits. -/
theorem countedFraming : Obligations.CountedFraming := by
  refine ⟨⟨decode_encode .wrapCnt, fun _ => exec_wrapCnt_of_le, fun _ => exec_wrapCnt_of_lt⟩,
    decode_encode .frmCnt, fun s hM h => ?_, fun s hM h => ?_, fun _ => exec_frmCnt_of_eq_zero⟩
  · rw [exec_frmCnt_of_ne_zero hM, frameByCount_of_le h]
    rfl
  · rw [exec_frmCnt_of_ne_zero hM, frameByCount_of_lt h]
    rfl

/-! ## Deframing by count (R135 to R137) -/

/-- A bound on the number of frames that the stream cannot reach does not matter. -/
theorem deframeCountFrom_congr {f g : Nat} {s : BitSeq} (hf : s.length / 8 < f) (hg : s.length / 8 < g) :
    deframeCountFrom f s = deframeCountFrom g s := by
  induction f generalizing g s with
  | zero => omega
  | succ f ih =>
    cases g with
    | zero => omega
    | succ g =>
      rw [deframeCountFrom, deframeCountFrom]
      by_cases hshort : s.length < 8
      · rw [if_pos hshort, if_pos hshort]
      · have hrest : ((s.drop 8).drop (8 * val (s.take 8))).length / 8 + 1 ≤ s.length / 8 := by
          simp only [List.length_drop]; omega
        rw [ih (g := g) (by omega) (by omega)]

theorem deframeByCount_of_length_lt {s : BitSeq} (h : s.length < 8) : deframeByCount s = some [] := if_pos h

/-- One frame: the count, as many bytes as it says, and the frames after them. -/
theorem deframeByCount_of_le_length {s : BitSeq} (h : 8 ≤ s.length) :
    deframeByCount s = if (s.drop 8).length < 8 * val (s.take 8) then none else
      (deframeByCount ((s.drop 8).drop (8 * val (s.take 8)))).map ((s.drop 8).take (8 * val (s.take 8)) :: ·) := by
  have hrest : ((s.drop 8).drop (8 * val (s.take 8))).length / 8 < s.length / 8 := by
    simp only [List.length_drop]; omega
  rw [deframeByCount, deframeCountFrom, if_neg (by omega), deframeByCount,
    deframeCountFrom_congr hrest (Nat.lt_succ_self _)]
  congr 1
  cases deframeCountFrom _ _ <;> rfl

theorem deframeByCount_frame {c : BitSeq} (halign : c.length % 8 = 0) (hfits : c.length ≤ 2040) (rest : BitSeq) :
    deframeByCount (be (c.length / 8) 8 ++ c ++ rest) = (deframeByCount rest).map (c :: ·) := by
  have hhead : (be (c.length / 8) 8).length = 8 := be_length _ _
  have htake : (be (c.length / 8) 8 ++ (c ++ rest)).take 8 = be (c.length / 8) 8 := List.take_left' hhead
  have hdrop : (be (c.length / 8) 8 ++ (c ++ rest)).drop 8 = c ++ rest := List.drop_left' hhead
  have hcount : 8 * val (be (c.length / 8) 8) = c.length := by rw [val_be]; omega
  have hlong : ¬ (c ++ rest).length < c.length := by rw [List.length_append]; omega
  rw [List.append_assoc, deframeByCount_of_le_length (by rw [List.length_append, hhead]; omega), htake, hdrop, hcount,
    if_neg hlong, List.take_left, List.drop_left]

/-- The stream of counted frames of whole-byte chunks (R132). -/
def countedStream (chs : List BitSeq) : BitSeq := (chs.map fun c => be (c.length / 8) 8 ++ c).flatten

/-- The chunks are whole bytes, and their counts fit. -/
def countable (chs : List BitSeq) : Prop := ∀ c ∈ chs, c.length % 8 = 0 ∧ c.length ≤ 2040

theorem countedStream_cons (c : BitSeq) (chs : List BitSeq) :
    countedStream (c :: chs) = be (c.length / 8) 8 ++ c ++ countedStream chs := rfl

theorem countable_cons {c : BitSeq} {chs : List BitSeq} :
    countable (c :: chs) ↔ (c.length % 8 = 0 ∧ c.length ≤ 2040) ∧ countable chs := List.forall_mem_cons

theorem deframeByCount_countedStream {chs : List BitSeq} {rest : BitSeq} (hchs : countable chs)
    (hrest : rest.length < 8) : deframeByCount (countedStream chs ++ rest) = some chs := by
  induction chs with
  | nil => exact deframeByCount_of_length_lt hrest
  | cons c chs ih =>
    obtain ⟨⟨halign, hfits⟩, htail⟩ := countable_cons.1 hchs
    rw [countedStream_cons, List.append_assoc, deframeByCount_frame halign hfits, ih htail, Option.map_some]

/-- A frame read off the front of a stream is a counted frame. -/
theorem exists_countedStream_of_deframeByCount {s : BitSeq} {chs : List BitSeq} (h : deframeByCount s = some chs) :
    ∃ rest, countable chs ∧ rest.length < 8 ∧ s = countedStream chs ++ rest := by
  induction hn : s.length using Nat.strong_induction_on generalizing s chs with
  | _ n ih =>
    by_cases hshort : s.length < 8
    · rw [deframeByCount_of_length_lt hshort] at h
      cases h
      exact ⟨s, fun _ hc => absurd hc List.not_mem_nil, hshort, rfl⟩
    · have hhead : (s.take 8).length = 8 := by rw [List.length_take]; omega
      have hval := val_lt (s.take 8)
      rw [hhead] at hval
      rw [deframeByCount_of_le_length (by omega)] at h
      split at h
      · cases h
      · next hroom =>
        obtain ⟨tail, htail, rfl⟩ := Option.map_eq_some_iff.1 h
        have hsmaller : ((s.drop 8).drop (8 * val (s.take 8))).length < n := by simp only [List.length_drop]; omega
        obtain ⟨rest, hok, hrest, heq⟩ := ih _ hsmaller htail rfl
        have hlen : ((s.drop 8).take (8 * val (s.take 8))).length = 8 * val (s.take 8) := by
          rw [List.length_take]; omega
        have hcount : be (8 * val (s.take 8) / 8) 8 = s.take 8 := by
          rw [Nat.mul_div_cancel_left _ (by omega)]
          have hinverse := be_val (s.take 8)
          rwa [hhead] at hinverse
        refine ⟨rest, countable_cons.2 ⟨by rw [hlen]; omega, hok⟩, hrest, ?_⟩
        rw [countedStream_cons, hlen, hcount, List.append_assoc, ← heq, List.append_assoc, List.take_append_drop,
          List.take_append_drop]

/-- Deframing by count, inverted (R135): it delivers the chunks of the counted streams and of no others. -/
theorem deframeByCount_eq_some_iff {s : BitSeq} {chs : List BitSeq} :
    deframeByCount s = some chs ↔ ∃ rest, countable chs ∧ rest.length < 8 ∧ s = countedStream chs ++ rest :=
  ⟨exists_countedStream_of_deframeByCount, fun ⟨_, hchs, hrest, hs⟩ => hs ▸ deframeByCount_countedStream hchs hrest⟩

theorem exec_dfrCnt (s : State) : exec .dfrCnt s = .next (s.finishBo (orFraming (deframeByCount s.bi))) := rfl

/-- Settles O28: the equivalence `deframeByCount_eq_some_iff`, one direction for each outcome. -/
theorem deframeByCountExactly : Obligations.DeframeByCountExactly := by
  refine ⟨decode_encode .dfrCnt, fun s chs rest hchs hrest hs => ?_, fun s hno => ?_⟩
  · rw [exec_dfrCnt, deframeByCount_eq_some_iff.2 ⟨rest, hchs, hrest, hs⟩]
    rfl
  · have hnone : deframeByCount s.bi = none :=
      Option.eq_none_iff_forall_ne_some.2 fun chs h => hno ⟨chs, deframeByCount_eq_some_iff.1 h⟩
    rw [exec_dfrCnt, hnone]
    rfl

theorem allSome_wrapCount_of_countable {chs : List BitSeq} (h : countable chs) :
    allSome (chs.map wrapCount) = some (chs.map fun c => be (c.length / 8) 8 ++ c) :=
  allSome_map_of_forall fun c hc => by
    obtain ⟨halign, hfits⟩ := h c hc
    have hexact : (c.length + 7) / 8 = c.length / 8 := by omega
    rw [wrapCount_of_le hfits, hexact]

/-- Settles O29: the frames of whole-byte chunks are a counted stream, and all that deframing delivers is whole bytes. -/
theorem countedRoundTrip : Obligations.CountedRoundTrip := by
  refine ⟨fun chs rest hchs hrest =>
    ⟨_, allSome_wrapCount_of_countable hchs, deframeByCount_countedStream hchs hrest⟩, fun chs fs _ hpartial h => ?_⟩
  obtain ⟨c, hc, hodd⟩ := hpartial
  obtain ⟨-, hchs, -⟩ := deframeByCount_eq_some_iff.1 h
  obtain ⟨halign, -⟩ := hchs c hc
  exact hodd halign

/-! ## Stuffed frames (R138 to R141) -/

theorem stuffBits_of_length_lt {rest : BitSeq} (h : rest.length < 8) (d e : Byte) : stuffBits rest d e = rest := by
  simp [stuffBits, Nat.div_eq_of_lt h]

/-- The scan is aligned to the first bit: it takes 8 bits at a time. -/
theorem stuffBits_append {x : BitSeq} (hx : x.length = 8) (d e : Byte) (ch : BitSeq) :
    stuffBits (x ++ ch) d e = stuffByte d e x ++ stuffBits ch d e := by
  have hcount : (x ++ ch).length / 8 = ch.length / 8 + 1 := by rw [List.length_append, hx]; omega
  have hfirst : sub (x ++ ch) (8 * 0) 8 = x := by simp [sub, ← hx]
  have hdrop (i : Nat) : (x ++ ch).drop (8 * (i + 1)) = ch.drop (8 * i) := by
    have hindex : 8 * (i + 1) = x.length + 8 * i := by omega
    rw [hindex, List.drop_length_add_append]
  have hnext (i : Nat) : sub (x ++ ch) (8 * (i + 1)) 8 = sub ch (8 * i) 8 := by rw [sub, hdrop, sub]
  simp only [stuffBits, hcount, List.range_succ_eq_map, List.map_cons, List.map_map, hfirst, hdrop]
  simp only [Function.comp_def, Nat.succ_eq_add_one, hnext, List.flatten_cons, List.append_assoc]

theorem stuffByte_byteBits (d e y : Byte) :
    stuffByte d e (byteBits y) = (if y = d ∨ y = e then byteBits e else []) ++ byteBits y := by
  rw [stuffByte, byteOf_byteBits]
  split <;> rfl

theorem stuffBits_byteBits_append (d e y : Byte) (ch : BitSeq) :
    stuffBits (byteBits y ++ ch) d e =
      (if y = d ∨ y = e then byteBits e else []) ++ byteBits y ++ stuffBits ch d e := by
  rw [stuffBits_append (byteBits_length y), stuffByte_byteBits]

theorem exec_wrapStf (s : State) : exec .wrapStf s = .next (s.finishBo (andThen (orConfig (readDelimEsc s)) fun de =>
    .ok [wrapStuffed s.bi de.1 de.2])) := rfl

theorem exec_wrapStf_of_ne {s : State} {d e : Byte} (hd : d = s.delim.extractLsb' 0 8)
    (he : e = s.esc.extractLsb' 0 8) (hne : d ≠ e) :
    exec .wrapStf s = .next { s with bo := [wrapStuffed s.bi d e], status := 0x100#32 } := by
  rw [exec_wrapStf, readDelimEsc_of_ne hd he hne]
  rfl

theorem exec_wrapStf_of_eq {s : State} (h : s.delim.extractLsb' 0 8 = s.esc.extractLsb' 0 8) :
    exec .wrapStf s = .next { s with bo := [], status := 0x101#32 } := by
  rw [exec_wrapStf, readDelimEsc_of_eq h]
  rfl

theorem exec_frmStf (s : State) :
    exec .frmStf s = .next (s.finishBo (andThen (orConfig (readMaxpl s)) fun M =>
      andThen (orConfig (readDelimEsc s)) fun de => .ok (frameByStuffing s.bi M de.1 de.2))) := rfl

theorem exec_frmStf_of_ready {s : State} {d e : Byte} (hM : s.maxpl ≠ 0#32) (hd : d = s.delim.extractLsb' 0 8)
    (he : e = s.esc.extractLsb' 0 8) (hne : d ≠ e) :
    exec .frmStf s = .next { s with bo := frameByStuffing s.bi s.maxpl.toNat d e, status := 0x100#32 } := by
  rw [exec_frmStf, readMaxpl_of_ne_zero hM, readDelimEsc_of_ne hd he hne]
  rfl

theorem exec_frmStf_of_eq_zero {s : State} (h : s.maxpl = 0#32) :
    exec .frmStf s = .next { s with bo := [], status := 0x101#32 } := by
  rw [exec_frmStf, readMaxpl_of_eq_zero h]
  rfl

theorem exec_frmStf_of_eq {s : State} (h : s.delim.extractLsb' 0 8 = s.esc.extractLsb' 0 8) :
    exec .frmStf s = .next { s with bo := [], status := 0x101#32 } := by
  by_cases hM : s.maxpl = 0#32
  · exact exec_frmStf_of_eq_zero hM
  · rw [exec_frmStf, readMaxpl_of_ne_zero hM, readDelimEsc_of_eq h]
    rfl

/-- Settles O30: the commands on legal and illegal registers, and the two recursion equations of `stuffBits`. -/
theorem stuffedFraming : Obligations.StuffedFraming :=
  ⟨⟨decode_encode .wrapStf, fun _ _ _ => exec_wrapStf_of_ne, fun _ => exec_wrapStf_of_eq,
      fun d e _ hrest => stuffBits_of_length_lt hrest d e, stuffBits_byteBits_append⟩,
    decode_encode .frmStf, fun _ _ _ => exec_frmStf_of_ready,
    fun _ h => h.elim exec_frmStf_of_eq_zero exec_frmStf_of_eq⟩

/-! ## Segments (R142) -/

@[simp] theorem segmentBits_cons (it : Bool × Byte) (g : Segment) :
    segmentBits (it :: g) = byteBits it.2 ++ segmentBits g := rfl

@[simp] theorem segmentBits_length (g : Segment) : (segmentBits g).length = 8 * g.length := by simp [segmentBits]

@[simp] theorem segmentBits_eq_nil {g : Segment} : segmentBits g = [] ↔ g = [] := by
  rw [← List.length_eq_zero_iff, segmentBits_length, ← List.length_eq_zero_iff]
  omega

theorem segmentOk_nil (d e : Byte) : segmentOk d e [] := fun _ h => absurd h List.not_mem_nil

theorem segmentOk_cons {d e : Byte} {it : Bool × Byte} {g : Segment} :
    segmentOk d e (it :: g) ↔ (it.1 = false → it.2 ≠ d ∧ it.2 ≠ e) ∧ segmentOk d e g := List.forall_mem_cons

/-- The delimited part of a stream: each segment behind its delimiter. -/
def delimited (d e : Byte) (segs : List Segment) : List Byte := segs.flatMap fun g => d :: segmentBytes e g

theorem delimited_cons (d e : Byte) (g : Segment) (segs : List Segment) :
    delimited d e (g :: segs) = d :: segmentBytes e g ++ delimited d e segs := rfl

/-- The end of a stream: where it is cut, an escape with nothing after it. -/
def cutEnd (e : Byte) (cut : Bool) : List Byte := if cut then [e] else []

theorem tokenStream_eq (d e : Byte) (first : Segment) (segs : List Segment) (cut : Bool) :
    tokenStream d e first segs cut = segmentBytes e first ++ (delimited d e segs ++ cutEnd e cut) :=
  List.append_assoc ..

/-! ### Every byte stream is of the grammar -/

/-- The bytes are a token stream of legal segments. -/
def tokenisable (d e : Byte) (ys : List Byte) : Prop :=
  ∃ first segs cut, segmentOk d e first ∧ (∀ g ∈ segs, segmentOk d e g) ∧ ys = tokenStream d e first segs cut

/-- A byte of payload, with its escape where it has one, may be put before a token stream. -/
theorem tokenisable_segmentBytes_append {d e : Byte} {it : Bool × Byte} {ys : List Byte}
    (hit : it.1 = false → it.2 ≠ d ∧ it.2 ≠ e) (h : tokenisable d e ys) :
    tokenisable d e (segmentBytes e [it] ++ ys) := by
  obtain ⟨first, segs, cut, hfirst, hsegs, rfl⟩ := h
  refine ⟨it :: first, segs, cut, segmentOk_cons.2 ⟨hit, hfirst⟩, hsegs, ?_⟩
  simp [tokenStream_eq, segmentBytes]

theorem tokenisable_delim_cons {d e : Byte} {ys : List Byte} (h : tokenisable d e ys) :
    tokenisable d e (d :: ys) := by
  obtain ⟨first, segs, cut, hfirst, hsegs, rfl⟩ := h
  refine ⟨[], first :: segs, cut, segmentOk_nil d e, List.forall_mem_cons.2 ⟨hfirst, hsegs⟩, ?_⟩
  simp [tokenStream_eq, delimited_cons, segmentBytes]

/-- The empty stream, and the stream of one escape. -/
theorem tokenisable_cutEnd (d e : Byte) (cut : Bool) : tokenisable d e (cutEnd e cut) :=
  ⟨[], [], cut, segmentOk_nil d e, fun _ h => absurd h List.not_mem_nil, rfl⟩

/-- Every byte is a delimiter, an escape, or plain payload; an escape takes the byte after it along. -/
theorem tokenisable_all (d e : Byte) (ys : List Byte) : tokenisable d e ys := by
  have hcons {y : Byte} {ys : List Byte} (hy : y ≠ e) (h : tokenisable d e ys) : tokenisable d e (y :: ys) := by
    by_cases hd : y = d
    · rw [hd]
      exact tokenisable_delim_cons h
    · exact tokenisable_segmentBytes_append (it := (false, y)) (fun _ => ⟨hd, hy⟩) h
  induction ys using List.twoStepInduction with
  | nil => exact tokenisable_cutEnd d e false
  | singleton y =>
    by_cases hy : y = e
    · rw [hy]
      exact tokenisable_cutEnd d e true
    · exact hcons hy (tokenisable_cutEnd d e false)
  | cons_cons y z ys ih ihz =>
    by_cases hy : y = e
    · rw [hy]
      exact tokenisable_segmentBytes_append (it := (true, z)) (fun h => nomatch h) ih
    · exact hcons hy (ihz z)

/-! ### Streams of whole bytes and the bits after them -/

theorem bitsOf_append (ys zs : List Byte) : bitsOf (ys ++ zs) = bitsOf ys ++ bitsOf zs := List.flatMap_append

theorem bytesOf_bitsOf_append (ys : List Byte) {rest : BitSeq} (h : rest.length < 8) :
    bytesOf (bitsOf ys ++ rest) = ys := by
  induction ys with
  | nil => exact bytesOf_of_length_lt h
  | cons y ys ih => rw [bitsOf_cons, List.append_assoc, bytesOf_append (byteBits_length y), byteOf_byteBits, ih]

/-- A bit sequence is its whole bytes and the bits after them. -/
theorem exists_eq_bitsOf_bytesOf_append (b : BitSeq) : ∃ rest, rest.length < 8 ∧ b = bitsOf (bytesOf b) ++ rest :=
  ⟨b.drop (8 * (b.length / 8)), by rw [List.length_drop]; omega, by rw [bitsOf_bytesOf, List.take_append_drop]⟩

theorem exists_tokenStream (d e : Byte) (b : BitSeq) : ∃ (first : Segment) (segs : List Segment) (cut : Bool)
    (rest : BitSeq), segmentOk d e first ∧ (∀ g ∈ segs, segmentOk d e g) ∧ rest.length < 8 ∧
    b = bitsOf (tokenStream d e first segs cut) ++ rest := by
  obtain ⟨rest, hrest, hb⟩ := exists_eq_bitsOf_bytesOf_append b
  obtain ⟨first, segs, cut, hfirst, hsegs, hys⟩ := tokenisable_all d e (bytesOf b)
  exact ⟨first, segs, cut, rest, hfirst, hsegs, hrest, hys ▸ hb⟩

/-! ## Deframing by stuffing (R142, R143) -/

section Tokens
variable {d e : Byte} {cur : BitSeq} {opened : Bool}

theorem unstuffFrom_nil : unstuffFrom d e cur opened [] = if cur = [] then some [] else none := rfl

theorem unstuffFrom_plain {y : Byte} (hd : y ≠ d) (he : y ≠ e) (ys : List Byte) :
    unstuffFrom d e cur opened (y :: ys) = unstuffFrom d e (cur ++ byteBits y) opened ys := by
  rw [unstuffFrom.eq_def]
  simp only [if_neg hd, if_neg he]

theorem unstuffFrom_escaped (hne : d ≠ e) (z : Byte) (zs : List Byte) :
    unstuffFrom d e cur opened (e :: z :: zs) = unstuffFrom d e (cur ++ byteBits z) opened zs :=
  (if_neg hne.symm).trans (if_pos rfl)

theorem unstuffFrom_escape_last (hne : d ≠ e) : unstuffFrom d e cur opened [e] = none :=
  (if_neg hne.symm).trans (if_pos rfl)

theorem unstuffFrom_delim_empty (ys : List Byte) :
    unstuffFrom d e [] opened (d :: ys) = unstuffFrom d e [] true ys := by
  rw [unstuffFrom.eq_def]
  simp only [if_true]

theorem unstuffFrom_delim_closes (hcur : cur ≠ []) (ys : List Byte) :
    unstuffFrom d e cur true (d :: ys) = (unstuffFrom d e [] true ys).map (cur :: ·) := by
  rw [unstuffFrom.eq_def]
  simp only [if_true, if_neg hcur]
  cases unstuffFrom d e [] true ys <;> rfl

/-- Payload before the first delimiter. -/
theorem unstuffFrom_delim_unopened (hcur : cur ≠ []) (ys : List Byte) :
    unstuffFrom d e cur false (d :: ys) = none := by
  rw [unstuffFrom.eq_def]
  simp only [if_true, if_neg hcur, if_neg Bool.false_ne_true]

/-- The payload of a segment is collected. -/
theorem unstuffFrom_segmentBytes_append {g : Segment} (hne : d ≠ e) (hg : segmentOk d e g) (ys : List Byte) :
    unstuffFrom d e cur opened (segmentBytes e g ++ ys) = unstuffFrom d e (cur ++ segmentBits g) opened ys := by
  induction g generalizing cur with
  | nil => rw [show segmentBits [] = [] from rfl, List.append_nil]; rfl
  | cons it g ih =>
    obtain ⟨escaped, y⟩ := it
    obtain ⟨hplain, hg⟩ := segmentOk_cons.1 hg
    rw [segmentBits_cons, ← List.append_assoc, ← ih hg]
    cases escaped with
    | false =>
      obtain ⟨hd, he⟩ := hplain rfl
      exact unstuffFrom_plain hd he _
    | true => exact unstuffFrom_escaped hne y _

/-- The end of a stream delivers nothing; it is legal where no payload and no escape is pending. -/
theorem unstuffFrom_cutEnd (hne : d ≠ e) (cut : Bool) :
    unstuffFrom d e cur opened (cutEnd e cut) = if cur = [] ∧ cut = false then some [] else none := by
  cases cut with
  | false => simp [cutEnd, unstuffFrom_nil]
  | true => simpa [cutEnd] using unstuffFrom_escape_last hne

end Tokens

/-- What a list of segments delivers: the payload of each that is not empty (R142). -/
def payloads (segs : List Segment) : List BitSeq := (segs.filter fun g => g ≠ []).map segmentBits

theorem payloads_cons_nil (segs : List Segment) : payloads ([] :: segs) = payloads segs := rfl

theorem payloads_cons_of_ne_nil {g : Segment} (hg : g ≠ []) (segs : List Segment) :
    payloads (g :: segs) = segmentBits g :: payloads segs := by simp [payloads, hg]

/-- From within segment `g`, which only an opened stream may have payload in: the last segment must be empty and the
stream not cut, and then `g` and the segments after it are delivered. -/
theorem unstuffFrom_delimited {d e : Byte} {opened : Bool} {g : Segment} {segs : List Segment} (hne : d ≠ e)
    (hopen : g = [] ∨ opened = true) (hsegs : ∀ g ∈ segs, segmentOk d e g) (cut : Bool) :
    unstuffFrom d e (segmentBits g) opened (delimited d e segs ++ cutEnd e cut) =
      if segs.getLastD g = [] ∧ cut = false then some (payloads (g :: segs)) else none := by
  induction segs generalizing g opened with
  | nil =>
    show unstuffFrom d e (segmentBits g) opened (cutEnd e cut) = _
    rw [unstuffFrom_cutEnd hne]
    by_cases hg : g = []
    · simp [hg, payloads]
    · simp [hg]
  | cons h segs ih =>
    obtain ⟨hh, hsegs⟩ := List.forall_mem_cons.1 hsegs
    have hrest : unstuffFrom d e [] true (segmentBytes e h ++ (delimited d e segs ++ cutEnd e cut)) =
        if segs.getLastD h = [] ∧ cut = false then some (payloads (h :: segs)) else none := by
      rw [unstuffFrom_segmentBytes_append hne hh, List.nil_append, ih (.inr rfl) hsegs]
    rw [delimited_cons, List.cons_append, List.cons_append, List.append_assoc, List.getLastD_cons]
    by_cases hg : g = []
    · subst hg
      exact (unstuffFrom_delim_empty _).trans hrest
    · obtain rfl := hopen.resolve_left hg
      rw [unstuffFrom_delim_closes (by simpa using hg), hrest, payloads_cons_of_ne_nil hg]
      split <;> rfl

/-- Payload before the first delimiter is an error, whatever follows it. -/
theorem unstuffFrom_delimited_unopened {d e : Byte} {g : Segment} (hne : d ≠ e) (hg : g ≠ []) (segs : List Segment)
    (cut : Bool) : unstuffFrom d e (segmentBits g) false (delimited d e segs ++ cutEnd e cut) = none := by
  have hbits : segmentBits g ≠ [] := by simpa using hg
  cases segs with
  | nil => exact (unstuffFrom_cutEnd hne cut).trans (if_neg fun h => hbits h.1)
  | cons h segs => exact unstuffFrom_delim_unopened hbits _

/-- Deframing by stuffing, said of the grammar of R142. -/
theorem deframeByStuffing_tokenStream {d e : Byte} {first : Segment} {segs : List Segment} {rest : BitSeq}
    (hne : d ≠ e) (hfirst : segmentOk d e first) (hsegs : ∀ g ∈ segs, segmentOk d e g) (cut : Bool)
    (hrest : rest.length < 8) :
    deframeByStuffing (bitsOf (tokenStream d e first segs cut) ++ rest) d e =
      if first = [] ∧ segs.getLastD [] = [] ∧ cut = false then some (payloads segs) else none := by
  rw [deframeByStuffing, bytesOf_bitsOf_append _ hrest, tokenStream_eq, unstuffFrom_segmentBytes_append hne hfirst,
    List.nil_append]
  by_cases hempty : first = []
  · subst hempty
    simpa [payloads_cons_nil] using unstuffFrom_delimited hne (.inl rfl) hsegs cut
  · rw [unstuffFrom_delimited_unopened hne hempty, if_neg fun h => hempty h.1]

/-! ### Stuffed frames as segments -/

/-- The bytes of a chunk as `stuff` writes them: an escape before each delimiter and each escape (R139). -/
def stuffSegment (d e : Byte) (ys : List Byte) : Segment := ys.map fun y => (decide (y = d ∨ y = e), y)

theorem stuffSegment_ok (d e : Byte) (ys : List Byte) : segmentOk d e (stuffSegment d e ys) := by
  intro it hit
  obtain ⟨y, -, rfl⟩ := List.mem_map.1 hit
  simp

theorem segmentBits_stuffSegment (d e : Byte) (ys : List Byte) :
    segmentBits (stuffSegment d e ys) = bitsOf ys := by simp [segmentBits, stuffSegment, Function.comp_def]

theorem stuffBits_bitsOf_append (d e : Byte) (ys : List Byte) {rest : BitSeq} (hrest : rest.length < 8) :
    stuffBits (bitsOf ys ++ rest) d e = bitsOf (segmentBytes e (stuffSegment d e ys)) ++ rest := by
  induction ys with
  | nil => exact stuffBits_of_length_lt hrest d e
  | cons y ys ih =>
    rw [bitsOf_cons, List.append_assoc, stuffBits_byteBits_append, ih]
    by_cases hy : y = d ∨ y = e
    · simp [hy, stuffSegment, segmentBytes]
    · simp [hy, stuffSegment, segmentBytes]

/-- The segment of a chunk of whole bytes. -/
def chunkSegment (d e : Byte) (c : BitSeq) : Segment := stuffSegment d e (bytesOf c)

theorem segmentBits_chunkSegment {d e : Byte} {c : BitSeq} (hc : c.length % 8 = 0) :
    segmentBits (chunkSegment d e c) = c := by
  rw [chunkSegment, segmentBits_stuffSegment, bitsOf_bytesOf_of_aligned hc]

theorem chunkSegment_eq_nil {d e : Byte} {c : BitSeq} (hc : c.length % 8 = 0) : chunkSegment d e c = [] ↔ c = [] := by
  rw [← segmentBits_eq_nil, segmentBits_chunkSegment hc]

theorem stuffBits_of_aligned {d e : Byte} {c : BitSeq} (hc : c.length % 8 = 0) :
    stuffBits c d e = bitsOf (segmentBytes e (chunkSegment d e c)) := by
  have h := stuffBits_bitsOf_append d e (bytesOf c) (rest := []) (by decide)
  rwa [bitsOf_bytesOf_of_aligned hc, List.append_nil, List.append_nil] at h

/-- Between the two delimiters of a frame its chunk, and nothing between one frame and the next. -/
def frameSegments (d e : Byte) (chs : List BitSeq) : List Segment := chs.flatMap fun c => [chunkSegment d e c, []]

theorem frameSegments_cons (d e : Byte) (c : BitSeq) (chs : List BitSeq) :
    frameSegments d e (c :: chs) = chunkSegment d e c :: [] :: frameSegments d e chs := rfl

theorem frameSegments_ok (d e : Byte) (chs : List BitSeq) : ∀ g ∈ frameSegments d e chs, segmentOk d e g := by
  intro g hg
  obtain ⟨c, -, hg⟩ := List.mem_flatMap.1 hg
  rcases List.mem_pair.1 hg with rfl | rfl
  · exact stuffSegment_ok d e _
  · exact segmentOk_nil d e

theorem frameSegments_getLastD (d e : Byte) (chs : List BitSeq) : (frameSegments d e chs).getLastD [] = [] := by
  induction chs with
  | nil => rfl
  | cons c chs ih => rw [frameSegments_cons, List.getLastD_cons, List.getLastD_cons, ih]

theorem flatten_wrapStuffed (d e : Byte) {chs : List BitSeq} (hchs : ∀ c ∈ chs, c.length % 8 = 0) :
    (chs.map fun c => wrapStuffed c d e).flatten = bitsOf (delimited d e (frameSegments d e chs)) := by
  induction chs with
  | nil => rfl
  | cons c chs ih =>
    obtain ⟨hc, hchs⟩ := List.forall_mem_cons.1 hchs
    rw [List.map_cons, List.flatten_cons, ih hchs, wrapStuffed, stuffBits_of_aligned hc, frameSegments_cons]
    simp [delimited_cons, bitsOf_append, segmentBytes]

theorem payloads_frameSegments (d e : Byte) {chs : List BitSeq} (hchs : ∀ c ∈ chs, c.length % 8 = 0) :
    payloads (frameSegments d e chs) = chs.filter fun c => c ≠ [] := by
  induction chs with
  | nil => rfl
  | cons c chs ih =>
    obtain ⟨hc, hchs⟩ := List.forall_mem_cons.1 hchs
    rw [frameSegments_cons]
    by_cases hempty : c = []
    · have hseg : chunkSegment d e c = [] := (chunkSegment_eq_nil hc).2 hempty
      rw [hseg, payloads_cons_nil, payloads_cons_nil, ih hchs, hempty]
      rfl
    · have hseg : chunkSegment d e c ≠ [] := mt (chunkSegment_eq_nil hc).1 hempty
      rw [payloads_cons_of_ne_nil hseg, payloads_cons_nil, ih hchs, segmentBits_chunkSegment hc,
        List.filter_cons_of_pos (by simpa using hempty)]

theorem deframeByStuffing_frames {d e : Byte} {chs : List BitSeq} {rest : BitSeq} (hne : d ≠ e)
    (hchs : ∀ c ∈ chs, c.length % 8 = 0) (hrest : rest.length < 8) :
    deframeByStuffing ((chs.map fun c => wrapStuffed c d e).flatten ++ rest) d e =
      some (chs.filter fun c => c ≠ []) := by
  have hstream : delimited d e (frameSegments d e chs) = tokenStream d e [] (frameSegments d e chs) false := by
    simp [tokenStream_eq, cutEnd, segmentBytes]
  rw [flatten_wrapStuffed d e hchs, hstream,
    deframeByStuffing_tokenStream hne (segmentOk_nil d e) (frameSegments_ok d e chs) false hrest,
    if_pos ⟨rfl, frameSegments_getLastD d e chs, rfl⟩, payloads_frameSegments d e hchs]

/-- A frame whose closing delimiter is missing. -/
theorem deframeByStuffing_unclosed {d e : Byte} {chs : List BitSeq} {ch rest : BitSeq} (hne : d ≠ e)
    (hchs : ∀ c ∈ chs, c.length % 8 = 0) (hch : ch ≠ []) (halign : ch.length % 8 = 0) (hrest : rest.length < 8) :
    deframeByStuffing ((chs.map fun c => wrapStuffed c d e).flatten ++ byteBits d ++ stuffBits ch d e ++ rest) d e =
      none := by
  have hstream : (chs.map fun c => wrapStuffed c d e).flatten ++ byteBits d ++ stuffBits ch d e =
      bitsOf (tokenStream d e [] (frameSegments d e chs ++ [chunkSegment d e ch]) false) := by
    rw [flatten_wrapStuffed d e hchs, stuffBits_of_aligned halign]
    simp [tokenStream_eq, delimited, cutEnd, bitsOf_append, segmentBytes]
  have hsegs : ∀ g ∈ frameSegments d e chs ++ [chunkSegment d e ch], segmentOk d e g :=
    List.forall_mem_append.2 ⟨frameSegments_ok d e chs, List.forall_mem_singleton.2 (stuffSegment_ok d e _)⟩
  have hlast : (frameSegments d e chs ++ [chunkSegment d e ch]).getLastD [] ≠ [] := by
    rw [List.getLastD_concat]
    exact mt (chunkSegment_eq_nil halign).1 hch
  rw [hstream, deframeByStuffing_tokenStream hne (segmentOk_nil d e) hsegs false hrest, if_neg fun h => hlast h.2.1]

/-- What is delivered is whole bytes. -/
theorem length_mod_of_deframeByStuffing {d e : Byte} {b : BitSeq} {chs : List BitSeq} (hne : d ≠ e)
    (h : deframeByStuffing b d e = some chs) : ∀ c ∈ chs, c.length % 8 = 0 := by
  obtain ⟨first, segs, cut, rest, hfirst, hsegs, hrest, rfl⟩ := exists_tokenStream d e b
  rw [deframeByStuffing_tokenStream hne hfirst hsegs cut hrest] at h
  split at h
  · cases h
    intro c hc
    obtain ⟨g, -, rfl⟩ := List.mem_map.1 hc
    rw [segmentBits_length]
    omega
  · cases h

/-! ### The command -/

theorem exec_dfrStf (s : State) : exec .dfrStf s = .next (s.finishBo (andThen (orConfig (readDelimEsc s)) fun de =>
    orFraming (deframeByStuffing s.bi de.1 de.2))) := rfl

theorem exec_dfrStf_of_eq {s : State} (h : s.delim.extractLsb' 0 8 = s.esc.extractLsb' 0 8) :
    exec .dfrStf s = .next { s with bo := [], status := 0x101#32 } := by
  rw [exec_dfrStf, readDelimEsc_of_eq h]
  rfl

section Dfr
variable {s : State} {d e : Byte} (hd : d = s.delim.extractLsb' 0 8) (he : e = s.esc.extractLsb' 0 8) (hne : d ≠ e)
include hd he hne

theorem exec_dfrStf_of_some {chs : List BitSeq} (h : deframeByStuffing s.bi d e = some chs) :
    exec .dfrStf s = .next { s with bo := chs, status := 0x100#32 } := by
  rw [exec_dfrStf, readDelimEsc_of_ne hd he hne, orConfig_some, andThen_ok, h]
  rfl

theorem exec_dfrStf_of_none (h : deframeByStuffing s.bi d e = none) :
    exec .dfrStf s = .next { s with bo := [], status := 0x102#32 } := by
  rw [exec_dfrStf, readDelimEsc_of_ne hd he hne, orConfig_some, andThen_ok, h]
  rfl

end Dfr

/-- Settles O31: frames, closed and unclosed, are token streams, and `deframeByStuffing_tokenStream` says the outcome of
every token stream. The namespace keeps the name apart from the model's own `deframeByStuffing`. -/
theorem Framer.deframeByStuffing : Obligations.DeframeByStuffing := by
  refine ⟨decode_encode .dfrStf, fun s d e chs rest hd he hne hchs hrest hs => ?_,
    fun s d e chs ch rest hd he hne hchs hch halign hrest hs => ?_,
    fun s d e first segs cut rest hd he hne hfirst hsegs hrest hs => ?_,
    fun d e b _ => exists_tokenStream d e b, fun _ => exec_dfrStf_of_eq⟩
  · exact exec_dfrStf_of_some hd he hne (hs ▸ deframeByStuffing_frames hne hchs hrest)
  · exact exec_dfrStf_of_none hd he hne (hs ▸ deframeByStuffing_unclosed hne hchs hch halign hrest)
  · have hresult := deframeByStuffing_tokenStream hne hfirst hsegs cut hrest
    rw [← hs] at hresult
    refine ⟨fun h1 h2 h3 => exec_dfrStf_of_some hd he hne (hresult.trans (if_pos ⟨h1, h2, h3⟩)), fun h =>
      exec_dfrStf_of_none hd he hne (hresult.trans (if_neg fun ⟨h1, h2, h3⟩ => ?_))⟩
    rcases h with h | h | h
    · exact h h1
    · exact h h2
    · exact Bool.false_ne_true (h3.symm.trans h)

/-- Settles O32: no chunk is empty, so the filter of the deframer keeps all; what it delivers is whole bytes. -/
theorem stuffedRoundTrip : Obligations.StuffedRoundTrip := by
  refine ⟨fun d e chs rest hne hchs hrest => ?_, fun d e hne => ?_, fun d e c hne hc h => ?_⟩
  · rw [deframeByStuffing_frames hne (fun c hc => (hchs c hc).2) hrest,
      List.filter_eq_self.2 fun c hc => decide_eq_true (hchs c hc).1]
  · have h := deframeByStuffing_frames (chs := [[]]) (rest := []) hne (by decide) (by decide)
    rwa [List.map_singleton, List.flatten_singleton, List.append_nil] at h
  · exact hc (length_mod_of_deframeByStuffing hne h c List.mem_cons_self)

end Sys2Proof.Machine

/-! The statements of family 43 (spec/43_linecoder.md), and the checks and the truncation that the line coder shares with
the carrier commands. `modulatorOf` and `demodulatorOf` name what each of the twelve commands runs, so that "refused",
"truncated" and "answers" are said once for all of them. A window is a stretch of S samples (`sub`), and so is each part
of it, so every bit is a comparison of the sums of stretches. A modulator concatenates one stretch of S samples per bit,
and `windows_flatMap` cuts the concatenation into those stretches again. -/

namespace Sys2Proof.Machine

/-! ## The register checks (R160, R180, R248)

Each reader answers exactly where the checks of `signalRegsOk` pass. -/

theorem readSps_isSome {least : Nat} {s : State} : (readSps least s).isSome ↔ spsOk least s := by
  simp only [Option.isSome_iff_exists, readSps_eq_some]
  exact ⟨fun ⟨_, w, hw, hn, hle⟩ => ⟨w, hw, hn ▸ hle⟩, fun ⟨w, hw, hle⟩ => ⟨_, w, hw, rfl, hle⟩⟩

theorem readPositive_isSome {r : Option ℚ} : (readPositive r).isSome ↔ positiveOk r := by
  simp only [Option.isSome_iff_exists, readPositive_eq_some, positiveOk]

theorem readThr_isSome {s : State} : (readThr s).isSome ↔ 0 ≤ s.thr := by
  simp only [Option.isSome_iff_exists, readThr_eq_some, exists_eq_left']

theorem readModRegs_isSome {least : Nat} {s : State} :
    (readModRegs least s).isSome ↔ spsOk least s ∧ positiveOk s.amp ∧ positiveOk s.fs := by
  simp only [← readSps_isSome, ← readPositive_isSome, Option.isSome_iff_exists, readModRegs_eq_some]
  exact ⟨fun ⟨_, hS, hA, hF⟩ => ⟨⟨_, hS⟩, ⟨_, hA⟩, ⟨_, hF⟩⟩,
    fun ⟨⟨n, hS⟩, ⟨a, hA⟩, ⟨f, hF⟩⟩ => ⟨⟨n, a, f⟩, hS, hA, hF⟩⟩

theorem readCarrierRegs_isSome {s : State} :
    (readCarrierRegs s).isSome ↔ spsOk 1 s ∧ positiveOk s.amp ∧ positiveOk s.fs ∧ s.fc.isSome := by
  rw [← and_assoc (a := positiveOk s.amp), ← and_assoc, ← readModRegs_isSome]
  simp only [Option.isSome_iff_exists, readCarrierRegs_eq_some]
  exact ⟨fun ⟨_, hm, hc⟩ => ⟨⟨_, hm⟩, ⟨_, hc⟩⟩, fun ⟨⟨m, hm⟩, ⟨c, hc⟩⟩ => ⟨⟨m.sps, m.amp, m.fs, c⟩, hm, hc⟩⟩

theorem readFskModRegs_isSome {s : State} : (readFskModRegs s).isSome ↔
    spsOk 1 s ∧ positiveOk s.amp ∧ positiveOk s.fs ∧ s.flo.isSome ∧ s.fhi.isSome := by
  rw [← and_assoc (a := positiveOk s.amp), ← and_assoc, ← readModRegs_isSome]
  simp only [Option.isSome_iff_exists, readFskModRegs_eq_some]
  exact ⟨fun ⟨_, hm, hl, hh⟩ => ⟨⟨_, hm⟩, ⟨_, hl⟩, ⟨_, hh⟩⟩,
    fun ⟨⟨m, hm⟩, ⟨l, hl⟩, ⟨h, hh⟩⟩ => ⟨⟨m.sps, m.amp, m.fs, l, h⟩, hm, hl, hh⟩⟩

theorem readFskDemRegs_isSome {s : State} :
    (readFskDemRegs s).isSome ↔ spsOk 1 s ∧ positiveOk s.fs ∧ s.flo.isSome ∧ s.fhi.isSome := by
  simp only [← readSps_isSome, ← readPositive_isSome, Option.isSome_iff_exists, readFskDemRegs_eq_some]
  exact ⟨fun ⟨_, hS, hF, hl, hh⟩ => ⟨⟨_, hS⟩, ⟨_, hF⟩, ⟨_, hl⟩, ⟨_, hh⟩⟩,
    fun ⟨⟨n, hS⟩, ⟨f, hF⟩, ⟨l, hl⟩, ⟨h, hh⟩⟩ => ⟨⟨n, f, l, h⟩, hS, hF, hl, hh⟩⟩

theorem readThrRegs_isSome {s : State} : (readThrRegs s).isSome ↔ spsOk 1 s ∧ 0 ≤ s.thr := by
  rw [← readSps_isSome, ← readThr_isSome]
  simp only [Option.isSome_iff_exists, readThrRegs_eq_some]
  exact ⟨fun ⟨_, hS, hT⟩ => ⟨⟨_, hS⟩, ⟨_, hT⟩⟩, fun ⟨⟨n, hS⟩, ⟨t, hT⟩⟩ => ⟨⟨n, t⟩, hS, hT⟩⟩

section Read
variable {s : State} {S : Word} {least : Nat} (hsps : s.sps = some S)
include hsps

theorem readSps_of_le (hS : least ≤ S.toNat) : readSps least s = some S.toNat :=
  readSps_eq_some.2 ⟨S, hsps, rfl, hS⟩

theorem eq_toNat_of_readSps {n : Nat} (h : readSps least s = some n) : n = S.toNat := by
  obtain ⟨w, hw, rfl, -⟩ := readSps_eq_some.1 h
  rw [hsps, Option.some_inj] at hw
  rw [hw]

theorem readThrRegs_of_le (hS : 1 ≤ S.toNat) (hthr : 0 ≤ s.thr) : readThrRegs s = some ⟨S.toNat, s.thr⟩ :=
  readThrRegs_eq_some.2 ⟨readSps_of_le hsps hS, readThr_eq_some.2 ⟨rfl, hthr⟩⟩

theorem readModRegs_of_le {A F : ℚ} (hS : least ≤ S.toNat) (hamp : s.amp = some A) (hA : 0 < A) (hfs : s.fs = some F)
    (hF : 0 < F) : readModRegs least s = some ⟨S.toNat, A, F⟩ :=
  readModRegs_eq_some.2 ⟨readSps_of_le hsps hS, readPositive_eq_some.2 ⟨hamp, hA⟩, readPositive_eq_some.2 ⟨hfs, hF⟩⟩

end Read

/-! ## The MOD commands (R161, R181) -/

theorem nrzModulator_eq (s : State) : nrzModulator s = (readModRegs 1 s).map fun r => ⟨nrzMod r.sps r.amp, r.fs⟩ := by
  unfold nrzModulator; cases readModRegs 1 s <;> rfl

theorem manModulator_eq (s : State) : manModulator s = (readModRegs 2 s).map fun r => ⟨manMod r.sps r.amp, r.fs⟩ := by
  unfold manModulator; cases readModRegs 2 s <;> rfl

theorem amiModulator_eq (s : State) : amiModulator s = (readModRegs 1 s).map fun r => ⟨amiMod r.sps r.amp, r.fs⟩ := by
  unfold amiModulator; cases readModRegs 1 s <;> rfl

theorem askModulator_eq (s : State) : askModulator s = (readCarrierRegs s).map fun r => ⟨askMod r, r.fs⟩ := by
  unfold askModulator; cases readCarrierRegs s <;> rfl

theorem fskModulator_eq (s : State) : fskModulator s = (readFskModRegs s).map fun r => ⟨fskMod r, r.fs⟩ := by
  unfold fskModulator; cases readFskModRegs s <;> rfl

theorem qamModulator_eq (s : State) :
    qamModulator s = (readCarrierRegs s).map fun r => ⟨qamMod s.qamMap r, r.fs⟩ := by
  unfold qamModulator; cases readCarrierRegs s <;> rfl

/-- The modulator that a MOD command reads from the registers; of no other command. -/
def modulatorOf (i : Instr) (s : State) : Option Modulator :=
  match i with
  | .nrzMod => nrzModulator s
  | .manMod => manModulator s
  | .amiMod => amiModulator s
  | .askMod => askModulator s
  | .fskMod => fskModulator s
  | .qamMod => qamModulator s
  | _ => none

theorem mem_modCommands {i : Instr} : i ∈ modCommands ↔
    i = .nrzMod ∨ i = .manMod ∨ i = .amiMod ∨ i = .askMod ∨ i = .fskMod ∨ i = .qamMod := by
  simp [modCommands]

theorem exec_modCommand {i : Instr} (hi : i ∈ modCommands) (s : State) :
    exec i s = .next (s.finishSignal (modulate (modulatorOf i s) s.bi)) := by
  rcases mem_modCommands.1 hi with rfl | rfl | rfl | rfl | rfl | rfl <;> rfl

theorem ownedBy_modCommand {i : Instr} (hi : i ∈ modCommands) : ownedBy i = .signal := by
  rcases mem_modCommands.1 hi with rfl | rfl | rfl | rfl | rfl | rfl <;> rfl

theorem isSome_iff_of_eq_map {α β : Type} {m : Option β} {o : Option α} {f : α → β} {p : Prop} (hm : m = o.map f)
    (h : o.isSome ↔ p) : m.isSome ↔ p := by
  rwa [hm, Option.isSome_map]

theorem modulatorOf_isSome {i : Instr} (hi : i ∈ modCommands) (s : State) :
    (modulatorOf i s).isSome ↔ signalRegsOk i s := by
  rcases mem_modCommands.1 hi with rfl | rfl | rfl | rfl | rfl | rfl
  · exact isSome_iff_of_eq_map (nrzModulator_eq s) readModRegs_isSome
  · exact isSome_iff_of_eq_map (manModulator_eq s) readModRegs_isSome
  · exact isSome_iff_of_eq_map (amiModulator_eq s) readModRegs_isSome
  · exact isSome_iff_of_eq_map (askModulator_eq s) readCarrierRegs_isSome
  · exact isSome_iff_of_eq_map (fskModulator_eq s) readFskModRegs_isSome
  · exact isSome_iff_of_eq_map (qamModulator_eq s) readCarrierRegs_isSome

theorem exec_mod_of_some {i : Instr} (hi : i ∈ modCommands) {s : State} {m : Modulator} (hm : modulatorOf i s = some m) :
    exec i s = .next { s with so := m.signal s.bi, tO := timeAxis m.fs (m.signal s.bi).length, status := 0x100#32 } := by
  rw [exec_modCommand hi, hm, modulate_some, State.finishSignal_ok]

theorem exec_mod_of_none {i : Instr} (hi : i ∈ modCommands) {s : State} (hm : modulatorOf i s = none) :
    exec i s = .next { s.clearOwned (ownedBy i) with status := 0x101#32 } := by
  rw [exec_modCommand hi, hm, ownedBy_modCommand hi]
  rfl

/-! ## The DEM commands (R162, R182) -/

theorem nrzDemodulator_eq (s : State) : nrzDemodulator s = (readSps 1 s).map fun n => ⟨nrzDem n, n⟩ := by
  unfold nrzDemodulator; cases readSps 1 s <;> rfl

theorem manDemodulator_eq (s : State) : manDemodulator s = (readSps 2 s).map fun n => ⟨manDem n, n⟩ := by
  unfold manDemodulator; cases readSps 2 s <;> rfl

theorem amiDemodulator_eq (s : State) :
    amiDemodulator s = (readThrRegs s).map fun r => ⟨amiDem r.sps r.thr, r.sps⟩ := by
  unfold amiDemodulator; cases readThrRegs s <;> rfl

theorem askDemodulator_eq (s : State) : askDemodulator s = (readThrRegs s).map fun r => ⟨askDem r, r.sps⟩ := by
  unfold askDemodulator; cases readThrRegs s <;> rfl

theorem fskDemodulator_eq (s : State) : fskDemodulator s = (readFskDemRegs s).map fun r => ⟨fskDem r, r.sps⟩ := by
  unfold fskDemodulator; cases readFskDemRegs s <;> rfl

theorem qamDemodulator_eq (s : State) :
    qamDemodulator s = (readCarrierRegs s).map fun r => ⟨qamDem s.qamMap r, r.sps⟩ := by
  unfold qamDemodulator; cases readCarrierRegs s <;> rfl

/-- The demodulator that a DEM command reads from the registers; of no other command. -/
def demodulatorOf (i : Instr) (s : State) : Option Demodulator :=
  match i with
  | .nrzDem => nrzDemodulator s
  | .manDem => manDemodulator s
  | .amiDem => amiDemodulator s
  | .askDem => askDemodulator s
  | .fskDem => fskDemodulator s
  | .qamDem => qamDemodulator s
  | _ => none

theorem mem_demCommands {i : Instr} : i ∈ demCommands ↔
    i = .nrzDem ∨ i = .manDem ∨ i = .amiDem ∨ i = .askDem ∨ i = .fskDem ∨ i = .qamDem := by
  simp [demCommands]

theorem exec_demCommand {i : Instr} (hi : i ∈ demCommands) (s : State) :
    exec i s = .next (s.finishBo (demodulatePacket (demodulatorOf i s) s.si)) := by
  rcases mem_demCommands.1 hi with rfl | rfl | rfl | rfl | rfl | rfl <;> rfl

theorem ownedBy_demCommand {i : Instr} (hi : i ∈ demCommands) : ownedBy i = .bo := by
  rcases mem_demCommands.1 hi with rfl | rfl | rfl | rfl | rfl | rfl <;> rfl

theorem demodulatorOf_isSome {i : Instr} (hi : i ∈ demCommands) (s : State) :
    (demodulatorOf i s).isSome ↔ signalRegsOk i s := by
  rcases mem_demCommands.1 hi with rfl | rfl | rfl | rfl | rfl | rfl
  · exact isSome_iff_of_eq_map (nrzDemodulator_eq s) readSps_isSome
  · exact isSome_iff_of_eq_map (manDemodulator_eq s) readSps_isSome
  · exact isSome_iff_of_eq_map (amiDemodulator_eq s) readThrRegs_isSome
  · exact isSome_iff_of_eq_map (askDemodulator_eq s) readThrRegs_isSome
  · exact isSome_iff_of_eq_map (fskDemodulator_eq s) readFskDemRegs_isSome
  · exact isSome_iff_of_eq_map (qamDemodulator_eq s) readCarrierRegs_isSome

@[simp] theorem windows_nil {α : Type} (S : Nat) : windows ([] : List α) S = [] := by simp [windows]

/-- A demodulator has the S of the register, and no window in the empty signal. -/
theorem demodulatorOf_spec {i : Instr} (hi : i ∈ demCommands) {s : State} {d : Demodulator}
    (hd : demodulatorOf i s = some d) : (∃ least, readSps least s = some d.sps) ∧ d.bits [] = [] := by
  rcases mem_demCommands.1 hi with rfl | rfl | rfl | rfl | rfl | rfl
  · obtain ⟨n, hn, rfl⟩ := Option.map_eq_some_iff.1 ((nrzDemodulator_eq s).symm.trans hd)
    exact ⟨⟨1, hn⟩, by simp [nrzDem]⟩
  · obtain ⟨n, hn, rfl⟩ := Option.map_eq_some_iff.1 ((manDemodulator_eq s).symm.trans hd)
    exact ⟨⟨2, hn⟩, by simp [manDem]⟩
  · obtain ⟨r, hr, rfl⟩ := Option.map_eq_some_iff.1 ((amiDemodulator_eq s).symm.trans hd)
    exact ⟨⟨1, (readThrRegs_eq_some.1 hr).1⟩, by simp [amiDem]⟩
  · obtain ⟨r, hr, rfl⟩ := Option.map_eq_some_iff.1 ((askDemodulator_eq s).symm.trans hd)
    exact ⟨⟨1, (readThrRegs_eq_some.1 hr).1⟩, by simp [askDem]⟩
  · obtain ⟨r, hr, rfl⟩ := Option.map_eq_some_iff.1 ((fskDemodulator_eq s).symm.trans hd)
    exact ⟨⟨1, (readFskDemRegs_eq_some.1 hr).1⟩, by simp [fskDem]⟩
  · obtain ⟨r, hr, rfl⟩ := Option.map_eq_some_iff.1 ((qamDemodulator_eq s).symm.trans hd)
    obtain ⟨hm, -⟩ := readCarrierRegs_eq_some.1 hr
    exact ⟨⟨1, (readModRegs_eq_some.1 hm).1⟩, by simp [qamDem]⟩

section Dem
variable {i : Instr} {s : State} {d : Demodulator} (hi : i ∈ demCommands)
include hi

theorem exec_dem_of_none (hd : demodulatorOf i s = none) :
    exec i s = .next { s.clearOwned (ownedBy i) with status := 0x101#32 } := by
  rw [exec_demCommand hi, hd, ownedBy_demCommand hi]
  rfl

theorem exec_dem_of_whole (hd : demodulatorOf i s = some d) (hx : s.si.length % d.sps = 0) :
    exec i s = .next { s with bo := [d.bits s.si], status := 0x100#32 } := by
  rw [exec_demCommand hi, hd, demodulatePacket, demodulate_some, if_pos hx, andThen_ok, State.finishBo_ok]

theorem exec_dem_of_short (hd : demodulatorOf i s = some d) (hx : s.si.length % d.sps ≠ 0) :
    exec i s = .next { s with bo := [], status := 0x105#32 } := by
  rw [exec_demCommand hi, hd, demodulatePacket, demodulate_some, if_neg hx, andThen_error, State.finishBo_error,
    statusWord_truncation]

/-- The demodulator's bits of a signal of one window per bit. -/
theorem exec_dem_of_signal {b : BitSeq} (hd : demodulatorOf i s = some d) (hlen : s.si.length = b.length * d.sps)
    (hbits : d.bits s.si = b) : exec i s = .next { s with bo := [b], status := 0x100#32 } := by
  rw [exec_dem_of_whole hi hd (by rw [hlen, Nat.mul_mod_left]), hbits]

end Dem

/-- Settles O36: the reader of each command answers exactly where its checks pass, and every demodulator has the S of the
register. -/
theorem signalChecksAndTruncation : Obligations.SignalChecksAndTruncation := by
  refine ⟨⟨fun i s hi hbad => ?_, fun i s hi hok => ?_⟩, fun i s S hi hok hsps => ?_⟩
  · rcases List.mem_append.1 hi with hi | hi
    · exact exec_mod_of_none hi (Option.not_isSome_iff_eq_none.1 (mt (modulatorOf_isSome hi s).1 hbad))
    · exact exec_dem_of_none hi (Option.not_isSome_iff_eq_none.1 (mt (demodulatorOf_isSome hi s).1 hbad))
  · obtain ⟨m, hm⟩ := Option.isSome_iff_exists.1 ((modulatorOf_isSome hi s).2 hok)
    exact ⟨_, _, exec_mod_of_some hi hm⟩
  · obtain ⟨d, hd⟩ := Option.isSome_iff_exists.1 ((demodulatorOf_isSome hi s).2 hok)
    obtain ⟨⟨least, hread⟩, hempty⟩ := demodulatorOf_spec hi hd
    rw [← eq_toNat_of_readSps hsps hread]
    refine ⟨exec_dem_of_short hi hd, fun hx => ⟨_, exec_dem_of_whole hi hd hx⟩, fun hx => ?_⟩
    exact exec_dem_of_signal hi hd (by simp [hx]) (by rw [hx, hempty])

/-! ## Stretches of a signal (R59)

`sub x i n` is a stretch of n samples, a window is one, and so are the parts that `take` and `drop` make of it. -/

theorem sub_length_of_le {α : Type} {x : List α} {i n : Nat} (h : i + n ≤ x.length) : (sub x i n).length = n := by
  rw [sub_length]
  omega

theorem take_win {α : Type} (x : List α) {S h : Nat} (hle : h ≤ S) (m : Nat) :
    (win x S m).take h = sub x (m * S) h := by
  rw [win, sub, sub, List.take_take, Nat.min_eq_left hle]

theorem drop_win {α : Type} (x : List α) (S h m : Nat) : (win x S m).drop h = sub x (m * S + h) (S - h) := by
  rw [win, sub, sub, List.drop_take, List.drop_drop]

theorem le_length_of_lt_windows {α : Type} {x : List α} {S m : Nat} (hm : m < x.length / S) :
    m * S + S ≤ x.length := by
  rw [← Nat.succ_mul]
  exact (Nat.mul_le_mul_right S hm).trans (Nat.div_mul_le_self _ _)

/-- The bit of window m, for every demodulator that decides one bit per window. -/
theorem map_windows_getElem?_eq_true {α : Type} {x : List α} {S m : Nat} (hm : m < x.length / S) (f : List α → Bool) :
    ((windows x S).map f)[m]? = some true ↔ f (win x S m) = true := by
  rw [List.getElem?_map, windows_getElem? x S m hm, Option.map_some, Option.some_inj]

theorem sum_map_eq_sum_range (f : Sample → ℝ) (w : List Sample) :
    (w.map f).sum = ∑ j ∈ Finset.range w.length, f (w.getD j Sample.zero) := by
  induction w with
  | nil => rfl
  | cons y w ih => simp [Finset.sum_range_succ', ih, add_comm]

theorem sum_map_sub (f : Sample → ℝ) {x : List Sample} {i n : Nat} (h : i + n ≤ x.length) :
    ((sub x i n).map f).sum = ∑ j ∈ Finset.range n, f (x.getD (i + j) Sample.zero) := by
  rw [sum_map_eq_sum_range, sub_length_of_le h]
  refine Finset.sum_congr rfl fun j hj => ?_
  simp [List.getD_eq_getElem?_getD, sub, Finset.mem_range.1 hj]

/-- The mean over a stretch of a function of its samples. -/
theorem value_mean_map_sub (g : Sample → Sample) {x : List Sample} {i n : Nat} (h : i + n ≤ x.length) :
    (Sample.mean ((sub x i n).map g)).value =
      (∑ j ∈ Finset.range n, (g (x.getD (i + j) Sample.zero)).value) / (n : ℝ) := by
  rw [Sample.value_mean, List.length_map, sub_length_of_le h, List.map_map, sum_map_sub _ h]
  rfl

theorem value_mean_sub {x : List Sample} {i n : Nat} (h : i + n ≤ x.length) :
    (Sample.mean (sub x i n)).value = (∑ j ∈ Finset.range n, (x.getD (i + j) Sample.zero).value) / (n : ℝ) := by
  simpa using value_mean_map_sub id h

/-! ## The bit of a window (R164, R166, R168) -/

section Window
variable {x : List Sample} {S m : Nat} (hm : m < x.length / S)
include hm

theorem nrzBit_win_iff : nrzBit (win x S m) = true ↔
    0 < ∑ i ∈ Finset.range S, (x.getD (m * S + i) Sample.zero).value := by
  rw [nrzBit, Sample.pos_iff, Sample.value_sum, win, sum_map_sub _ (le_length_of_lt_windows hm)]

theorem manBit_win_iff : manBit S (win x S m) = true ↔
    (∑ i ∈ Finset.Ico (S / 2) S, (x.getD (m * S + i) Sample.zero).value) / ((S - S / 2 : Nat) : ℝ) <
      (∑ i ∈ Finset.range (S / 2), (x.getD (m * S + i) Sample.zero).value) / ((S / 2 : Nat) : ℝ) := by
  have hwhole := le_length_of_lt_windows hm
  have hhalf : S / 2 ≤ S := Nat.div_le_self S 2
  rw [manBit, Sample.lt_iff, take_win x hhalf, drop_win, value_mean_sub (by omega), value_mean_sub (by omega),
    Finset.sum_Ico_eq_sum_range]
  simp only [Nat.add_assoc]

theorem amiBit_win_iff (thr : ℚ) : amiBit thr (win x S m) = true ↔
    (thr : ℝ) < (∑ i ∈ Finset.range S, |(x.getD (m * S + i) Sample.zero).value|) / (S : ℝ) := by
  rw [amiBit, Sample.lt_iff, Sample.value_ofRat, win, value_mean_map_sub _ (le_length_of_lt_windows hm)]
  simp only [Sample.value_abs]

end Window

/-! ## The line demodulators' commands -/

section LineDem
variable {s : State} {S : Word} (hsps : s.sps = some S)
include hsps

theorem demodulatorOf_nrzDem (hS : 1 ≤ S.toNat) : demodulatorOf .nrzDem s = some ⟨nrzDem S.toNat, S.toNat⟩ :=
  (nrzDemodulator_eq s).trans (congrArg (Option.map _) (readSps_of_le hsps hS))

theorem demodulatorOf_manDem (hS : 2 ≤ S.toNat) : demodulatorOf .manDem s = some ⟨manDem S.toNat, S.toNat⟩ :=
  (manDemodulator_eq s).trans (congrArg (Option.map _) (readSps_of_le hsps hS))

theorem demodulatorOf_amiDem (hS : 1 ≤ S.toNat) (hthr : 0 ≤ s.thr) :
    demodulatorOf .amiDem s = some ⟨amiDem S.toNat s.thr, S.toNat⟩ :=
  (amiDemodulator_eq s).trans (congrArg (Option.map _) (readThrRegs_of_le hsps hS hthr))

end LineDem

theorem length_map_windows {α : Type} (x : List α) (S : Nat) (f : List α → Bool) :
    ((windows x S).map f).length = x.length / S := by
  rw [List.length_map, windows_length]

/-- Settles O34: window by window, each bit is the comparison of its window's sums. -/
theorem lineDemodulators : Obligations.LineDemodulators := by
  refine ⟨⟨decode_encode .nrzDem, fun s S hsps hS hx => ?_⟩, ⟨decode_encode .manDem, fun s S hsps hS hx => ?_⟩,
    ⟨decode_encode .amiDem, fun s S hsps hS hthr hx => ?_⟩⟩
  · exact ⟨_, exec_dem_of_whole (by decide) (demodulatorOf_nrzDem hsps hS) hx, length_map_windows _ _ _, fun m hm =>
      (map_windows_getElem?_eq_true hm nrzBit).trans (nrzBit_win_iff hm)⟩
  · exact ⟨_, exec_dem_of_whole (by decide) (demodulatorOf_manDem hsps hS) hx, length_map_windows _ _ _, fun m hm =>
      (map_windows_getElem?_eq_true hm (manBit S.toNat)).trans (manBit_win_iff hm)⟩
  · exact ⟨_, exec_dem_of_whole (by decide) (demodulatorOf_amiDem hsps hS hthr) hx, length_map_windows _ _ _, fun m hm =>
      (map_windows_getElem?_eq_true hm (amiBit s.thr)).trans (amiBit_win_iff hm s.thr)⟩

/-! ## The line modulators (R163, R165, R167) -/

@[simp] theorem rep_length (v : Sample) (n : Nat) : (rep v n).length = n := List.length_replicate

@[simp] theorem manSym_length (S : Nat) (A : ℚ) (x : Bool) : (manSym S A x).length = S := by
  simp only [manSym, List.length_append, rep_length]
  omega

theorem length_flatMap_of_forall_length {α β : Type} {f : α → List β} {S : Nat} (hf : ∀ a, (f a).length = S)
    (l : List α) : (l.flatMap f).length = l.length * S := by
  simp [List.length_flatMap, hf]

@[simp] theorem nrzMod_length (S : Nat) (A : ℚ) (b : BitSeq) : (nrzMod S A b).length = b.length * S :=
  length_flatMap_of_forall_length (fun _ => rep_length _ _) b

@[simp] theorem manMod_length (S : Nat) (A : ℚ) (b : BitSeq) : (manMod S A b).length = b.length * S :=
  length_flatMap_of_forall_length (manSym_length S A) b

/-- The level of bit m of an AMI message whose next one-bit has level `pol`: the ones before it alternate it. -/
def amiLevel (pol : ℚ) (b : BitSeq) (m : Nat) : ℚ :=
  if b.getD m false then (if popcount (b.take m) % 2 = 0 then pol else -pol) else 0

theorem amiLevel_cons_zero (pol : ℚ) (x : Bool) (b : BitSeq) : amiLevel pol (x :: b) 0 = if x then pol else 0 := rfl

/-- A one-bit before the rest of a message swaps its levels. -/
theorem amiLevel_cons_succ (pol : ℚ) (x : Bool) (b : BitSeq) (m : Nat) :
    amiLevel pol (x :: b) (m + 1) = amiLevel (if x then -pol else pol) b m := by
  cases x with
  | false => simp [amiLevel, popcount_cons, bitVal]
  | true =>
    rcases Nat.mod_two_eq_zero_or_one (popcount (b.take m)) with h | h
    · simp [amiLevel, popcount_cons, bitVal, Nat.add_mod, h]
    · simp [amiLevel, popcount_cons, bitVal, Nat.add_mod, h]

theorem amiModFrom_cons (S : Nat) (pol : ℚ) (x : Bool) (b : BitSeq) : amiModFrom S pol (x :: b) =
    rep (level (if x then pol else 0)) S ++ amiModFrom S (if x then -pol else pol) b := by
  cases x <;> rfl

/-- `ami_mod` bit by bit, with the polarity of each bit computed from the bits before it. -/
theorem amiModFrom_eq (S : Nat) (pol : ℚ) (b : BitSeq) :
    amiModFrom S pol b = (List.range b.length).flatMap fun m => rep (level (amiLevel pol b m)) S := by
  induction b generalizing pol with
  | nil => rfl
  | cons x b ih =>
    rw [amiModFrom_cons, ih, List.length_cons, List.range_succ_eq_map, List.flatMap_cons, List.flatMap_map]
    simp only [Nat.succ_eq_add_one, amiLevel_cons_zero, amiLevel_cons_succ]

@[simp] theorem amiMod_length (S : Nat) (A : ℚ) (b : BitSeq) : (amiMod S A b).length = b.length * S := by
  rw [amiMod, amiModFrom_eq, length_flatMap_of_forall_length fun _ => rep_length _ _, List.length_range]

/-! ### The commands -/

section LineMod
variable {s : State} {S : Word} {A F : ℚ} (hsps : s.sps = some S) (hamp : s.amp = some A) (hA : 0 < A)
  (hfs : s.fs = some F) (hF : 0 < F)
include hsps hamp hA hfs hF

theorem exec_nrzMod_of_le (hS : 1 ≤ S.toNat) : exec .nrzMod s = .next
    { s with so := nrzMod S.toNat A s.bi, tO := timeAxis F (s.bi.length * S.toNat), status := 0x100#32 } := by
  have hm : modulatorOf .nrzMod s = some ⟨nrzMod S.toNat A, F⟩ :=
    (nrzModulator_eq s).trans (congrArg (Option.map _) (readModRegs_of_le hsps hS hamp hA hfs hF))
  rw [exec_mod_of_some (by decide) hm, nrzMod_length]

theorem exec_manMod_of_le (hS : 2 ≤ S.toNat) : exec .manMod s = .next
    { s with so := manMod S.toNat A s.bi, tO := timeAxis F (s.bi.length * S.toNat), status := 0x100#32 } := by
  have hm : modulatorOf .manMod s = some ⟨manMod S.toNat A, F⟩ :=
    (manModulator_eq s).trans (congrArg (Option.map _) (readModRegs_of_le hsps hS hamp hA hfs hF))
  rw [exec_mod_of_some (by decide) hm, manMod_length]

theorem exec_amiMod_of_le (hS : 1 ≤ S.toNat) : exec .amiMod s = .next
    { s with so := amiMod S.toNat A s.bi, tO := timeAxis F (s.bi.length * S.toNat), status := 0x100#32 } := by
  have hm : modulatorOf .amiMod s = some ⟨amiMod S.toNat A, F⟩ :=
    (amiModulator_eq s).trans (congrArg (Option.map _) (readModRegs_of_le hsps hS hamp hA hfs hF))
  rw [exec_mod_of_some (by decide) hm, amiMod_length]

end LineMod

/-- Settles O33: NRZ and Manchester are the rules' own words; for AMI the running polarity is the parity of the ones
before the bit (`amiModFrom_eq`). -/
theorem lineModulators : Obligations.LineModulators := by
  refine ⟨⟨decode_encode .nrzMod, fun s S A F hsps hS hamp hA hfs hF => exec_nrzMod_of_le hsps hamp hA hfs hF hS⟩,
    ⟨decode_encode .manMod, fun s S A F hsps hS hamp hA hfs hF => exec_manMod_of_le hsps hamp hA hfs hF hS⟩,
    ⟨decode_encode .amiMod, fun s S A F hsps hS hamp hA hfs hF => ?_⟩⟩
  rw [exec_amiMod_of_le hsps hamp hA hfs hF hS, amiMod, amiModFrom_eq]
  rfl

/-! ## The round trips (R169) -/

theorem windows_append {α : Type} {w : List α} {S : Nat} (hS : 0 < S) (hw : w.length = S) (x : List α) :
    windows (w ++ x) S = w :: windows x S := by
  have hfirst : win (w ++ x) S 0 = w := by simp [win, sub, ← hw]
  have hnext (m : Nat) : win (w ++ x) S (m + 1) = win x S m := by
    rw [win, win, sub, sub, Nat.succ_mul, Nat.add_comm, ← List.drop_drop, ← hw, List.drop_left]
  rw [windows, List.length_append, hw, Nat.add_div_left _ hS, List.range_succ_eq_map, List.map_cons, List.map_map,
    hfirst]
  exact congrArg _ (List.map_congr_left fun m _ => hnext m)

/-- The windows of a signal of one stretch of S samples per symbol are those stretches. -/
theorem windows_flatMap {α β : Type} {f : α → List β} {S : Nat} (hS : 0 < S) (hf : ∀ a, (f a).length = S) (l : List α) :
    windows (l.flatMap f) S = l.map f := by
  induction l with
  | nil => exact windows_nil S
  | cons a l ih => rw [List.flatMap_cons, windows_append hS (hf a), ih, List.map_cons]

theorem map_windows_flatMap {α β γ : Type} {f : α → List β} {S : Nat} (hS : 0 < S) (hf : ∀ a, (f a).length = S)
    (l : List α) {g : List β → γ} {h : α → γ} (hg : ∀ a, g (f a) = h a) :
    (windows (l.flatMap f) S).map g = l.map h := by
  rw [windows_flatMap hS hf, List.map_map]
  exact List.map_congr_left fun a _ => hg a

theorem value_sum_rep (v : Sample) (n : Nat) : (Sample.sum (rep v n)).value = n * v.value := by
  simp [rep]

theorem value_mean_rep (v : Sample) {n : Nat} (hn : 0 < n) : (Sample.mean (rep v n)).value = v.value := by
  have hne : (n : ℝ) ≠ 0 := Nat.cast_ne_zero.2 hn.ne'
  simp [rep, hne]

section Symbols
variable {S : Nat} {A : ℚ} (hA : 0 < A)

include hA in
theorem nrzBit_rep (hS : 1 ≤ S) (x : Bool) : nrzBit (rep (level (if x then A else -A)) S) = x := by
  have hS' : (0 : ℝ) < S := Nat.cast_pos.2 hS
  rw [Bool.eq_iff_iff, nrzBit, Sample.pos_iff, value_sum_rep, mul_pos_iff_of_pos_left hS', level, Sample.value_ofRat,
    Rat.cast_pos]
  cases x with
  | false => simpa using hA.le
  | true => simpa using hA

include hA in
theorem manBit_manSym (hS : 2 ≤ S) (x : Bool) : manBit S (manSym S A x) = x := by
  have hfirst : 0 < S / 2 := Nat.div_pos hS two_pos
  have hrest : 0 < S - S / 2 := by omega
  rw [Bool.eq_iff_iff, manBit, Sample.lt_iff, manSym, List.take_left' (rep_length _ _), List.drop_left' (rep_length _ _),
    value_mean_rep _ hfirst, value_mean_rep _ hrest, level, level, Sample.value_ofRat, Sample.value_ofRat, Rat.cast_lt]
  cases x with
  | false => simpa using (neg_lt_self hA).le
  | true => simpa using neg_lt_self hA

theorem amiBit_rep (hS : 1 ≤ S) (thr q : ℚ) : amiBit thr (rep (level q) S) = decide (thr < |q|) := by
  have habs : (rep (level q) S).map Sample.abs = rep (Sample.abs (level q)) S := List.map_replicate
  rw [Bool.eq_iff_iff, decide_eq_true_iff, amiBit, Sample.lt_iff, habs, value_mean_rep _ hS, Sample.value_abs, level,
    Sample.value_ofRat, Sample.value_ofRat, ← Rat.cast_abs, Rat.cast_lt]

include hA in
theorem abs_amiLevel (b : BitSeq) (m : Nat) : |amiLevel A b m| = if b.getD m false then A else 0 := by
  rw [amiLevel]
  split
  · split
    · exact abs_of_pos hA
    · rw [abs_neg, abs_of_pos hA]
  · exact abs_zero

include hA in
theorem nrzDem_nrzMod (hS : 1 ≤ S) (b : BitSeq) : nrzDem S (nrzMod S A b) = b :=
  (map_windows_flatMap hS (fun _ => rep_length _ _) b (nrzBit_rep hA hS)).trans (List.map_id' b)

include hA in
theorem manDem_manMod (hS : 2 ≤ S) (b : BitSeq) : manDem S (manMod S A b) = b :=
  (map_windows_flatMap (by omega) (manSym_length S A) b (manBit_manSym hA hS)).trans (List.map_id' b)

include hA in
/-- A window's mean of absolute values is A or 0, on the two sides of the threshold. -/
theorem amiDem_amiMod {thr : ℚ} (hS : 1 ≤ S) (h0 : 0 ≤ thr) (hlt : thr < A) (b : BitSeq) :
    amiDem S thr (amiMod S A b) = b := by
  have hbit (m : Nat) : amiBit thr (rep (level (amiLevel A b m)) S) = b.getD m false := by
    rw [amiBit_rep hS, abs_amiLevel hA]
    cases b.getD m false with
    | false => simpa using h0
    | true => simpa using hlt
  rw [amiDem, amiMod, amiModFrom_eq, map_windows_flatMap hS (fun _ => rep_length _ _) _ hbit]
  exact List.ext_getElem (by simp) fun i _ hi => by simp [List.getElem?_eq_getElem hi]

end Symbols

/-- Settles O35: the windows of the signal are the symbols of the bits, and each symbol decodes to its bit. -/
theorem lineRoundTrip : Obligations.LineRoundTrip := by
  intro s S A hsps hamp hA ⟨F, hfs, hF⟩
  refine ⟨fun hS => ⟨_, exec_nrzMod_of_le hsps hamp hA hfs hF hS, fun u hu hsi => ?_⟩,
    fun hS => ⟨_, exec_manMod_of_le hsps hamp hA hfs hF hS, fun u hu hsi => ?_⟩,
    fun hS => ⟨_, exec_amiMod_of_le hsps hamp hA hfs hF hS, fun u hu hsi h0 hlt => ?_⟩⟩
  · exact exec_dem_of_signal (by decide) (demodulatorOf_nrzDem hu hS) (hsi ▸ nrzMod_length _ _ _)
      (hsi ▸ nrzDem_nrzMod hA hS s.bi)
  · exact exec_dem_of_signal (by decide) (demodulatorOf_manDem hu hS) (hsi ▸ manMod_length _ _ _)
      (hsi ▸ manDem_manMod hA hS s.bi)
  · exact exec_dem_of_signal (by decide) (demodulatorOf_amiDem hu hS h0) (hsi ▸ amiMod_length _ _ _)
      (hsi ▸ amiDem_amiMod hA hS h0 hlt s.bi)

end Sys2Proof.Machine

/-! The statements of family 44 (spec/44_carrier.md). A demodulator decides on the real values of a window
(`windowValues`), which are known for a window of any signal and for the symbols that a modulator wrote. The round trips
rest on one sum over a window (`sum_cos_mul_cos_shifted`): waves of different whole numbers of cycles do not
correlate. -/

namespace Sys2Proof.Machine

/-! ## Waves of whole cycles over a window

The trigonometry of R195: over S samples, waves of different whole numbers of cycles do not correlate. -/

/-- The phase at sample i of a wave of `a` cycles over S samples. -/
noncomputable def cyclePhase (S a i : Nat) : ℝ := 2 * Real.pi * a * i / S

/-- A wave whose number of cycles is no multiple of S sums to 0, from whatever phase it starts. -/
theorem sum_cos_eq_zero {S : Nat} {n : ℤ} (hn : ¬ (S : ℤ) ∣ n) (φ : ℝ) :
    ∑ i ∈ Finset.range S, Real.cos (2 * Real.pi * n / S * i + φ) = 0 := by
  rcases Nat.eq_zero_or_pos S with rfl | hS
  · exact Finset.sum_range_zero _
  have hS' : (S : ℝ) ≠ 0 := Nat.cast_ne_zero.2 hS.ne'
  have hturn (k : ℤ) : 2 * Real.pi * n / S ≠ k * (2 * Real.pi) := by
    intro h
    have hk : (n : ℝ) = S * k := by
      have hpi := Real.pi_ne_zero
      field_simp at h
      linarith
    exact hn ⟨k, by exact_mod_cast hk⟩
  have hwhole : (S : ℝ) * (2 * Real.pi * n / S) / 2 = n * Real.pi := by field_simp
  rw [Real.sum_cos S hturn, hwhole, Real.sin_int_mul_pi, zero_mul, zero_div]

theorem sum_cos_mul_cos_shifted {S a b : Nat} (hpos : 0 < a + b) (hlt : a + b < S) (φ ψ : ℝ) :
    ∑ i ∈ Finset.range S, Real.cos (cyclePhase S a i + φ) * Real.cos (cyclePhase S b i + ψ) =
      if a = b then S / 2 * Real.cos (φ - ψ) else 0 := by
  have hproduct (i : Nat) : Real.cos (cyclePhase S a i + φ) * Real.cos (cyclePhase S b i + ψ) =
      (Real.cos (2 * Real.pi * ((a - b : ℤ) : ℝ) / S * i + (φ - ψ)) +
        Real.cos (2 * Real.pi * ((a + b : ℤ) : ℝ) / S * i + (φ + ψ))) / 2 := by
    have hdiff : cyclePhase S a i + φ - (cyclePhase S b i + ψ) =
        2 * Real.pi * ((a - b : ℤ) : ℝ) / S * i + (φ - ψ) := by rw [cyclePhase, cyclePhase]; push_cast; ring
    have hsum : cyclePhase S a i + φ + (cyclePhase S b i + ψ) =
        2 * Real.pi * ((a + b : ℤ) : ℝ) / S * i + (φ + ψ) := by rw [cyclePhase, cyclePhase]; push_cast; ring
    rw [← hdiff, ← hsum, ← Real.two_mul_cos_mul_cos]
    ring
  have hoff (n : ℤ) (h0 : n ≠ 0) (habs : |n| < S) : ¬ (S : ℤ) ∣ n := fun hdvd =>
    h0 (Int.eq_zero_of_abs_lt_dvd hdvd habs)
  simp only [hproduct]
  rw [← Finset.sum_div, Finset.sum_add_distrib,
    sum_cos_eq_zero (hoff (a + b) (by omega) (abs_lt.2 ⟨by omega, by omega⟩)), add_zero]
  split
  · next h => simp [h]; ring
  · next h => rw [sum_cos_eq_zero (hoff (a - b) (by omega) (abs_lt.2 ⟨by omega, by omega⟩)), zero_div]

theorem sin_eq_cos_shifted (x : ℝ) : Real.sin x = Real.cos (x + -(Real.pi / 2)) := by
  rw [← sub_eq_add_neg, Real.cos_sub_pi_div_two]

section Waves
variable {S a b : Nat} (hpos : 0 < a + b) (hlt : a + b < S)
include hpos hlt

theorem sum_cos_mul_cos : ∑ i ∈ Finset.range S, Real.cos (cyclePhase S a i) * Real.cos (cyclePhase S b i) =
    if a = b then (S : ℝ) / 2 else 0 := by
  simpa using sum_cos_mul_cos_shifted hpos hlt 0 0

theorem sum_sin_mul_sin : ∑ i ∈ Finset.range S, Real.sin (cyclePhase S a i) * Real.sin (cyclePhase S b i) =
    if a = b then (S : ℝ) / 2 else 0 := by
  simpa only [← sin_eq_cos_shifted, sub_self, Real.cos_zero, mul_one] using
    sum_cos_mul_cos_shifted hpos hlt (-(Real.pi / 2)) (-(Real.pi / 2))

theorem sum_sin_mul_cos :
    ∑ i ∈ Finset.range S, Real.sin (cyclePhase S a i) * Real.cos (cyclePhase S b i) = 0 := by
  simpa [← sin_eq_cos_shifted] using sum_cos_mul_cos_shifted hpos hlt (-(Real.pi / 2)) 0

end Waves

/-! ## Phases (R181, R186) -/

/-- The phase `ph(f)` of R181 at sample number j. -/
noncomputable def carrierPhase (f fs : ℚ) (j : Nat) : ℝ := 2 * Real.pi * (f : ℝ) * (j : ℝ) / (fs : ℝ)

@[simp] theorem two_pi_mul_phaseTurns (f fs : ℚ) (j : Nat) :
    2 * Real.pi * ((phaseTurns f fs j : ℚ) : ℝ) = carrierPhase f fs j := by
  rw [phaseTurns, carrierPhase]
  push_cast
  ring

/-- The reference waves of the transform, of which bin k takes k cycles (R186). -/
theorem two_pi_mul_binTurns (S k i : Nat) :
    2 * Real.pi * ((((i * k : Nat) : ℚ) / (S : ℚ) : ℚ) : ℝ) = cyclePhase S k i := by
  rw [cyclePhase]
  push_cast
  ring

/-- A carrier of c whole cycles per window has the same phase in every window, up to whole turns. -/
theorem carrierPhase_of_wholeCycles {S c : Nat} {f fs : ℚ} (h : wholeCycles S f fs c) (m i : Nat) :
    carrierPhase f fs (m * S + i) = cyclePhase S c i + (m * c : Nat) * (2 * Real.pi) := by
  obtain ⟨hc, hpos, hlt⟩ := h
  have hS : (S : ℝ) ≠ 0 := Nat.cast_ne_zero.2 (by omega)
  have hrate : (f : ℝ) / fs = c / S := by
    have hc' : (f : ℝ) * S / fs = c := by exact_mod_cast hc
    rw [eq_div_iff hS, ← hc']
    ring
  calc carrierPhase f fs (m * S + i) = 2 * Real.pi * ((f : ℝ) / fs) * (m * S + i) := by
        rw [carrierPhase]; push_cast; ring
    _ = cyclePhase S c i + (m * c : Nat) * (2 * Real.pi) := by
        rw [hrate, cyclePhase]; push_cast; field_simp; ring

theorem cos_carrierPhase {S c : Nat} {f fs : ℚ} (h : wholeCycles S f fs c) (m i : Nat) :
    Real.cos (carrierPhase f fs (m * S + i)) = Real.cos (cyclePhase S c i) := by
  rw [carrierPhase_of_wholeCycles h, Real.cos_add_nat_mul_two_pi]

theorem sin_carrierPhase {S c : Nat} {f fs : ℚ} (h : wholeCycles S f fs c) (m i : Nat) :
    Real.sin (carrierPhase f fs (m * S + i)) = Real.sin (cyclePhase S c i) := by
  rw [carrierPhase_of_wholeCycles h, Real.sin_add_nat_mul_two_pi]

/-! ## The samples of the modulators (R184, R187, R192) -/

theorem value_askSample (r : CarrierRegs) (x : Bool) (j : Nat) :
    (askSample r x j).value = if x then (r.amp : ℝ) * Real.sin (carrierPhase r.fc r.fs j) else 0 := by
  rw [askSample]
  split <;> simp

theorem value_fskSample (r : FskModRegs) (x : Bool) (j : Nat) :
    (fskSample r x j).value = (r.amp : ℝ) * Real.sin (carrierPhase (if x then r.fhi else r.flo) r.fs j) := by
  simp [fskSample]

theorem value_qamSample (map : QamMap) (r : CarrierRegs) (v j : Nat) : (qamSample map r v j).value =
    (r.amp : ℝ) * (qamI (qamPointOf map v) : ℝ) * Real.cos (carrierPhase r.fc r.fs j) -
      (r.amp : ℝ) * (qamQ (qamPointOf map v) : ℝ) * Real.sin (carrierPhase r.fc r.fs j) := by
  simp [qamSample]

/-- Sample i of symbol m, read from the whole signal (R181). -/
theorem symbolsFrom_getD {α : Type} {S : Nat} (sym : α → Nat → Sample) {as : List α} {m i : Nat} (hm : m < as.length)
    (hi : i < S) : (symbolsFrom S sym 0 as).getD (m * S + i) Sample.zero = sym as[m] (m * S + i) := by
  rw [List.getD_eq_getElem?_getD, symbolsFrom_getElem? S sym 0 as m i hi hm, Option.getD_some, Nat.zero_add]

@[simp] theorem askMod_length (r : CarrierRegs) (b : BitSeq) : (askMod r b).length = b.length * r.sps :=
  symbolsFrom_length ..

@[simp] theorem fskMod_length (r : FskModRegs) (b : BitSeq) : (fskMod r b).length = b.length * r.sps :=
  symbolsFrom_length ..

/-! ### The groups of 3 bits (R192, R287) -/

/-- A message completed with zeros to a multiple of 3 bits. -/
def padTo3 (b : BitSeq) : BitSeq := b ++ zeros (3 * ceilDiv b.length 3 - b.length)

@[simp] theorem padTo3_length (b : BitSeq) : (padTo3 b).length = 3 * ceilDiv b.length 3 := by
  obtain ⟨hle, -⟩ := ceilDiv_spec b.length 3 (by decide)
  simp [padTo3]
  omega

theorem padTo3_getD (b : BitSeq) (i : Nat) : (padTo3 b).getD i false = b.getD i false := by
  rcases Nat.lt_or_ge i b.length with h | h
  · exact List.getD_append _ _ _ _ h
  · rw [padTo3, List.getD_append_right _ _ _ _ h, List.getD_eq_default _ _ h]
    rw [List.getD_eq_getElem?_getD]
    exact List.getElem?_getD_replicate_default_eq _ _ _

theorem ceilDiv_three_mul (n : Nat) : ceilDiv (3 * n) 3 = n := by
  rw [ceilDiv]
  omega

theorem qamGroups_eq (b : BitSeq) : qamGroups b = (splitBits (padTo3 b) 3).map val := by
  rw [splitBits, padTo3_length, ceilDiv_three_mul, List.map_map, qamGroups]
  simp only [Nat.mul_comm 3, Function.comp_def, padTo3]

@[simp] theorem qamGroups_length (b : BitSeq) : (qamGroups b).length = (b.length + 2) / 3 := by
  rw [qamGroups, List.length_map, List.length_range]
  rfl

@[simp] theorem qamMod_length (map : QamMap) (r : CarrierRegs) (b : BitSeq) :
    (qamMod map r b).length = (b.length + 2) / 3 * r.sps := by
  rw [qamMod, symbolsFrom_length, qamGroups_length]

theorem sub_three {p : BitSeq} {i : Nat} (h : i + 3 ≤ p.length) :
    sub p i 3 = [p.getD i false, p.getD (i + 1) false, p.getD (i + 2) false] := by
  refine List.ext_getElem (by simp [sub_length]; omega) fun j hj _ => ?_
  have hj3 : j < 3 := by rw [sub_length] at hj; omega
  interval_cases j <;> simp [sub, List.getD_eq_getElem?_getD, show i < p.length by omega,
    show i + 1 < p.length by omega, show i + 2 < p.length by omega]

theorem qamGroups_getElem {b : BitSeq} {m : Nat} (hm : m < (qamGroups b).length) :
    (qamGroups b)[m] = 4 * bitVal (b.getD (3 * m) false) + 2 * bitVal (b.getD (3 * m + 1) false) +
      bitVal (b.getD (3 * m + 2) false) := by
  have hroom : 3 * m + 3 ≤ (padTo3 b).length := by
    rw [qamGroups, List.length_map, List.length_range] at hm
    rw [padTo3_length]
    omega
  calc (qamGroups b)[m] = val (sub (padTo3 b) (3 * m) 3) := by
        simp only [qamGroups, List.getElem_map, List.getElem_range, padTo3]
    _ = _ := by
      rw [sub_three hroom, padTo3_getD, padTo3_getD, padTo3_getD]
      simp [val]
      omega

/-! ### The constellation (R190, R191) -/

/-- The points in the order of R190. -/
def allQamPoints : List QamPoint :=
  [.innerPP, .innerPN, .innerNP, .innerNN, .outerRight, .outerLeft, .outerUp, .outerDown]

theorem mem_allQamPoints (p : QamPoint) : p ∈ allQamPoints := by cases p <;> decide

/-- A legal map is an arrangement of the eight points. -/
theorem qamPoints_perm {map : QamMap} (h : qamMapLegal map = true) : (qamPoints map).Perm allQamPoints :=
  ((of_decide_eq_true h).subperm fun p _ => mem_allQamPoints p).perm_of_length_le (Nat.le_refl 8)

theorem qamPointOf_eq_getElem (map : QamMap) {v : Nat} (hv : v < 8) : qamPointOf map v = (qamPoints map)[v]'hv :=
  List.getD_eq_getElem _ _ hv

theorem qamPointOf_injective {map : QamMap} (h : qamMapLegal map = true) {v w : Nat} (hv : v < 8) (hw : w < 8)
    (hvw : qamPointOf map v = qamPointOf map w) : v = w := by
  rw [qamPointOf_eq_getElem map hv, qamPointOf_eq_getElem map hw] at hvw
  exact (of_decide_eq_true h).getElem_inj_iff.1 hvw

theorem exists_qamPointOf_eq {map : QamMap} (h : qamMapLegal map = true) (p : QamPoint) :
    ∃ v, v < 8 ∧ qamPointOf map v = p := by
  obtain ⟨v, hv, hp⟩ := List.mem_iff_getElem.1 ((qamPoints_perm h).mem_iff.2 (mem_allQamPoints p))
  exact ⟨v, hv, (qamPointOf_eq_getElem map hv).trans hp⟩

/-- The two coordinates tell the points apart. -/
theorem qamPoint_ext {p q : QamPoint} (hI : qamI p = qamI q) (hQ : qamQ p = qamQ q) : p = q := by
  revert hI hQ
  cases p <;> cases q <;> decide

theorem exists_qamPointOf_coordinates_iff {map : QamMap} (h : qamMapLegal map = true) (p : ℚ × ℚ) :
    (∃ v, v ≤ 7 ∧ p = (qamI (qamPointOf map v), qamQ (qamPointOf map v))) ↔
      p ∈ allQamPoints.map fun q => (qamI q, qamQ q) := by
  rw [List.mem_map]
  constructor
  · rintro ⟨v, -, rfl⟩
    exact ⟨_, mem_allQamPoints _, rfl⟩
  · rintro ⟨q, -, rfl⟩
    obtain ⟨v, hv, rfl⟩ := exists_qamPointOf_eq h q
    exact ⟨v, Nat.lt_succ_iff.1 hv, rfl⟩

/-! ### The commands -/

section CarrierRead
variable {s : State} {S : Word} {A F : ℚ} (hsps : s.sps = some S) (hS : 1 ≤ S.toNat) (hamp : s.amp = some A)
  (hA : 0 < A) (hfs : s.fs = some F) (hF : 0 < F)

section OneCarrier
variable {f : ℚ} (hfc : s.fc = some f)
include hsps hS hamp hA hfs hF hfc

theorem readCarrierRegs_of_le : readCarrierRegs s = some ⟨S.toNat, A, F, f⟩ :=
  readCarrierRegs_eq_some.2 ⟨readModRegs_of_le hsps hS hamp hA hfs hF, hfc⟩

theorem exec_askMod_of_le : exec .askMod s = .next { s with
    so := askMod ⟨S.toNat, A, F, f⟩ s.bi, tO := timeAxis F (askMod ⟨S.toNat, A, F, f⟩ s.bi).length,
    status := 0x100#32 } :=
  exec_mod_of_some (i := .askMod) (by decide) ((askModulator_eq s).trans
    (congrArg (Option.map _) (readCarrierRegs_of_le hsps hS hamp hA hfs hF hfc)))

theorem exec_qamMod_of_le : exec .qamMod s = .next { s with
    so := qamMod s.qamMap ⟨S.toNat, A, F, f⟩ s.bi,
    tO := timeAxis F (qamMod s.qamMap ⟨S.toNat, A, F, f⟩ s.bi).length, status := 0x100#32 } :=
  exec_mod_of_some (i := .qamMod) (by decide) ((qamModulator_eq s).trans
    (congrArg (Option.map _) (readCarrierRegs_of_le hsps hS hamp hA hfs hF hfc)))

theorem demodulatorOf_qamDem :
    demodulatorOf .qamDem s = some ⟨qamDem s.qamMap ⟨S.toNat, A, F, f⟩, S.toNat⟩ :=
  (qamDemodulator_eq s).trans (congrArg (Option.map _) (readCarrierRegs_of_le hsps hS hamp hA hfs hF hfc))

end OneCarrier

section TwoTones
variable {lo hi : ℚ} (hlo : s.flo = some lo) (hhi : s.fhi = some hi)

include hsps hS hamp hA hfs hF hlo hhi in
theorem readFskModRegs_of_le : readFskModRegs s = some ⟨S.toNat, A, F, lo, hi⟩ :=
  readFskModRegs_eq_some.2 ⟨readModRegs_of_le hsps hS hamp hA hfs hF, hlo, hhi⟩

include hsps hS hamp hA hfs hF hlo hhi in
theorem exec_fskMod_of_le : exec .fskMod s = .next { s with
    so := fskMod ⟨S.toNat, A, F, lo, hi⟩ s.bi, tO := timeAxis F (fskMod ⟨S.toNat, A, F, lo, hi⟩ s.bi).length,
    status := 0x100#32 } :=
  exec_mod_of_some (i := .fskMod) (by decide) ((fskModulator_eq s).trans
    (congrArg (Option.map _) (readFskModRegs_of_le hsps hS hamp hA hfs hF hlo hhi)))

include hsps hS hfs hF hlo hhi in
theorem demodulatorOf_fskDem : demodulatorOf .fskDem s = some ⟨fskDem ⟨S.toNat, F, lo, hi⟩, S.toNat⟩ := by
  have hregs : readFskDemRegs s = some ⟨S.toNat, F, lo, hi⟩ :=
    readFskDemRegs_eq_some.2 ⟨readSps_of_le hsps hS, readPositive_eq_some.2 ⟨hfs, hF⟩, hlo, hhi⟩
  exact (fskDemodulator_eq s).trans (congrArg (Option.map _) hregs)

end TwoTones

include hsps hS in
theorem demodulatorOf_askDem (hthr : 0 ≤ s.thr) :
    demodulatorOf .askDem s = some ⟨askDem ⟨S.toNat, s.thr⟩, S.toNat⟩ :=
  (askDemodulator_eq s).trans (congrArg (Option.map _) (readThrRegs_of_le hsps hS hthr))

end CarrierRead

/-- Settles O37: every sample is its symbol's at the global index; the points are a permutation of the eight. -/
theorem carrierModulators : Obligations.CarrierModulators := by
  refine ⟨⟨decode_encode .askMod, fun s S A F f hsps hS hamp hA hfs hF hfc => ?_⟩,
    ⟨decode_encode .fskMod, fun s S A F lo hi hsps hS hamp hA hfs hF hlo hhi => ?_⟩,
    ⟨decode_encode .qamMod, fun s S A F f hsps hS hamp hA hfs hF hfc => ?_⟩,
    fun map hmap => ⟨exists_qamPointOf_coordinates_iff hmap, fun v w hv hw hI hQ =>
      qamPointOf_injective hmap (by omega) (by omega) (qamPoint_ext hI hQ)⟩, rfl, by decide⟩
  · refine ⟨_, exec_askMod_of_le hsps hS hamp hA hfs hF hfc, askMod_length _ _, fun m i hm hi => ?_⟩
    rw [askMod, symbolsFrom_getD _ hm hi, value_askSample, List.getD_eq_getElem _ _ hm]
    rfl
  · refine ⟨_, exec_fskMod_of_le hsps hS hamp hA hfs hF hlo hhi, fskMod_length _ _, fun m i hm hi => ?_⟩
    rw [fskMod, symbolsFrom_getD _ hm hi, value_fskSample, List.getD_eq_getElem _ _ hm]
    rfl
  · refine ⟨_, exec_qamMod_of_le hsps hS hamp hA hfs hF hfc, qamMod_length _ _ _, fun m i v hm hi hv => ?_⟩
    rw [qamMod, symbolsFrom_getD _ (by rwa [qamGroups_length]) hi, value_qamSample, qamGroups_getElem, ← hv]
    rfl

/-! ## Windows and their values (R59)

A demodulator's decision on a window depends on the real values of its samples; `windowValues` says what they are, for
a window of a received signal and for a symbol that a modulator wrote. -/

/-- The S samples of the window have the values `v 0`, `v 1`, and so on. -/
def windowValues (w : List Sample) (S : Nat) (v : Nat → ℝ) : Prop :=
  w.length = S ∧ ∀ i < S, (w.getD i Sample.zero).value = v i

theorem windowValues_win {x : List Sample} {S m : Nat} (hm : m < x.length / S) :
    windowValues (win x S m) S fun i => (x.getD (m * S + i) Sample.zero).value := by
  refine ⟨win_length x S m hm, fun i hi => ?_⟩
  simp only [List.getD_eq_getElem?_getD, win_getElem? x S m i hi]

/-- The samples of one symbol at place m (R181). -/
def symbol {α : Type} (S : Nat) (sym : α → Nat → Sample) (m : Nat) (a : α) : List Sample :=
  (List.range S).map fun i => sym a (m * S + i)

theorem windowValues_symbol {α : Type} (S : Nat) (sym : α → Nat → Sample) (m : Nat) (a : α) :
    windowValues (symbol S sym m a) S fun i => (sym a (m * S + i)).value := by
  refine ⟨by simp [symbol], fun i hi => ?_⟩
  simp [symbol, hi]

/-- The windows of a modulated signal are its symbols. -/
theorem win_symbolsFrom {α : Type} (S : Nat) (sym : α → Nat → Sample) {as : List α} {m : Nat} (hm : m < as.length) :
    win (symbolsFrom S sym 0 as) S m = symbol S sym m as[m] := by
  refine List.ext_getElem? fun i => ?_
  rcases Nat.lt_or_ge i S with hi | hi
  · rw [win_getElem? _ S m i hi, symbolsFrom_getElem? S sym 0 as m i hi hm]
    simp [symbol, hi]
  · rw [List.getElem?_eq_none (by simp [win, sub]; omega), List.getElem?_eq_none (by simpa [symbol] using hi)]

/-- A decision that is right about every symbol gives the message back, window by window. -/
theorem map_range_win_symbolsFrom {α β : Type} {S : Nat} (hS : 0 < S) {sym : α → Nat → Sample} {as : List α}
    {g : Nat → List Sample → β} {h : α → β} (hg : ∀ m, ∀ a ∈ as, g m (symbol S sym m a) = h a) :
    ((List.range ((symbolsFrom S sym 0 as).length / S)).map fun m => g m (win (symbolsFrom S sym 0 as) S m)) =
      as.map h := by
  rw [symbolsFrom_length, Nat.mul_div_cancel _ hS]
  refine List.ext_getElem (by simp) fun m hm _ => ?_
  have hm' : m < as.length := by simpa using hm
  simp [win_symbolsFrom S sym hm', hg m _ (List.getElem_mem hm')]

theorem map_windows_symbolsFrom {α β : Type} {S : Nat} (hS : 0 < S) {sym : α → Nat → Sample} {as : List α}
    {g : List Sample → β} {h : α → β} (hg : ∀ m, ∀ a ∈ as, g (symbol S sym m a) = h a) :
    (windows (symbolsFrom S sym 0 as) S).map g = as.map h := by
  rw [windows, List.map_map]
  exact map_range_win_symbolsFrom hS (g := fun _ => g) hg

/-! ## What each demodulator decides -/

section Decide
variable {w : List Sample} {S : Nat} {v : Nat → ℝ} (hw : windowValues w S v)
include hw

theorem askBit_iff (thr : ℚ) :
    askBit thr w = true ↔ (thr : ℝ) < (∑ i ∈ Finset.range S, v i ^ 2) / (S : ℝ) := by
  obtain ⟨hlen, hvalue⟩ := hw
  rw [askBit, Sample.lt_iff, Sample.value_ofRat, Sample.value_mean, List.map_map, List.length_map,
    sum_map_eq_sum_range, hlen]
  have hsquares : ∑ i ∈ Finset.range S, (Sample.value ∘ Sample.sq) (w.getD i Sample.zero) =
      ∑ i ∈ Finset.range S, v i ^ 2 :=
    Finset.sum_congr rfl fun i hi => by
      rw [Function.comp_apply, Sample.value_sq, hvalue i (Finset.mem_range.1 hi)]
  rw [hsquares]

theorem value_correlateFrom (g : Nat → Sample) (j : Nat) :
    (correlateFrom g j w).value = ∑ i ∈ Finset.range S, v i * (g (j + i)).value := by
  obtain ⟨hlen, hvalue⟩ := hw
  rw [correlateFrom_value, hlen]
  exact Finset.sum_congr rfl fun i hi => by rw [hvalue i (Finset.mem_range.1 hi)]

end Decide

/-! ### The first greatest and the first least (R188, R193) -/

theorem getD_map_range (f : Nat → Sample) {n k : Nat} (hk : k < n) :
    (((List.range n).map f).map Sample.value).getD k 0 = (f k).value := by
  simp [hk]

section First
variable {n : Nat} (hn : 0 < n) {f : Nat → Sample} {P : Nat → ℝ} (hP : ∀ k, (f k).value = P k)
include hn hP

theorem argMax_map_range : argMax ((List.range n).map f) < n ∧
    (∀ k < n, P k ≤ P (argMax ((List.range n).map f))) ∧
    ∀ k < argMax ((List.range n).map f), P k < P (argMax ((List.range n).map f)) := by
  obtain ⟨hlt, hmax, hfirst⟩ := argMax_spec ((List.range n).map f) (by simp; omega)
  rw [List.length_map, List.length_range] at hlt hmax
  refine ⟨hlt, fun k hk => ?_, fun k hk => ?_⟩
  · simpa only [getD_map_range f hk, getD_map_range f hlt, hP] using hmax k hk
  · simpa only [getD_map_range f (hk.trans hlt), getD_map_range f hlt, hP] using hfirst k hk

theorem argMin_map_range : argMin ((List.range n).map f) < n ∧
    (∀ k < n, P (argMin ((List.range n).map f)) ≤ P k) ∧
    ∀ k < argMin ((List.range n).map f), P (argMin ((List.range n).map f)) < P k := by
  obtain ⟨hlt, hmin, hfirst⟩ := argMin_spec ((List.range n).map f) (by simp; omega)
  rw [List.length_map, List.length_range] at hlt hmin
  refine ⟨hlt, fun k hk => ?_, fun k hk => ?_⟩
  · simpa only [getD_map_range f hk, getD_map_range f hlt, hP] using hmin k hk
  · simpa only [getD_map_range f (hk.trans hlt), getD_map_range f hlt, hP] using hfirst k hk

end First

/-! ### FSK: the transform (R186 to R189) -/

/-- The power of bin k of the transform of S real samples (R186). -/
noncomputable def binPower (S : Nat) (v : Nat → ℝ) (k : Nat) : ℝ :=
  (∑ i ∈ Finset.range S, v i * Real.cos (cyclePhase S k i)) ^ 2 +
    (∑ i ∈ Finset.range S, v i * Real.sin (cyclePhase S k i)) ^ 2

theorem value_dftPower {w : List Sample} {S : Nat} {v : Nat → ℝ} (hw : windowValues w S v) (k : Nat) :
    (dftPower S w k).value = binPower S v k := by
  rw [dftPower, Sample.value_add, Sample.value_sq, Sample.value_sq, value_correlateFrom hw, value_correlateFrom hw,
    binPower]
  simp only [cosTurn_value, sinTurn_value, two_pi_mul_binTurns, Nat.zero_add]

theorem peakBin_spec {w : List Sample} {S : Nat} {v : Nat → ℝ} (hw : windowValues w S v) :
    peakBin S w ≤ S / 2 ∧ (∀ k, k ≤ S / 2 → binPower S v k ≤ binPower S v (peakBin S w)) ∧
      ∀ k, k < peakBin S w → binPower S v k < binPower S v (peakBin S w) := by
  obtain ⟨hlt, hmax, hfirst⟩ := argMax_map_range (Nat.succ_pos (S / 2)) (value_dftPower hw)
  exact ⟨Nat.lt_succ_iff.1 hlt, fun k hk => hmax k (Nat.lt_succ_of_le hk), hfirst⟩

theorem fskBit_iff (r : FskDemRegs) (w : List Sample) : fskBit r w = true ↔
    |(peakBin r.sps w : ℚ) * r.fs / (r.sps : ℚ) - r.fhi| < |(peakBin r.sps w : ℚ) * r.fs / (r.sps : ℚ) - r.flo| :=
  decide_eq_true_iff

/-! ### 8-QAM: the estimate and the nearest point (R193, R194) -/

section Estimate
variable {r : CarrierRegs} {w : List Sample} {v : Nat → ℝ} (hw : windowValues w r.sps v) (m : Nat)
include hw

theorem value_qamEstI : (qamEstI r w m).value =
    2 * ((∑ i ∈ Finset.range r.sps, v i * Real.cos (carrierPhase r.fc r.fs (m * r.sps + i))) / (r.sps : ℝ)) := by
  obtain ⟨hlen, -⟩ := id hw
  rw [qamEstI, Sample.value_scale, value_correlateFrom hw, hlen]
  simp only [cosTurn_value, two_pi_mul_phaseTurns]
  push_cast
  ring

theorem value_qamEstQ : (qamEstQ r w m).value =
    -2 * ((∑ i ∈ Finset.range r.sps, v i * Real.sin (carrierPhase r.fc r.fs (m * r.sps + i))) / (r.sps : ℝ)) := by
  obtain ⟨hlen, -⟩ := id hw
  rw [qamEstQ, Sample.value_scale, value_correlateFrom hw, hlen]
  simp only [sinTurn_value, two_pi_mul_phaseTurns]
  push_cast
  ring

end Estimate

/-- The squared distance of the point (x, y) from the point of a group value (R193). -/
noncomputable def pointDistance (map : QamMap) (A : ℚ) (x y : ℝ) (v : Nat) : ℝ :=
  (x - (A : ℝ) * (qamI (qamPointOf map v) : ℝ)) ^ 2 + (y - (A : ℝ) * (qamQ (qamPointOf map v) : ℝ)) ^ 2

theorem value_qamDistance (map : QamMap) (A : ℚ) (i q : Sample) (v : Nat) :
    (qamDistance map A i q v).value = pointDistance map A i.value q.value v := by
  simp [qamDistance, pointDistance]

/-- The group value that `qam_sym` decides for. -/
def nearestGroup (map : QamMap) (r : CarrierRegs) (w : List Sample) (m : Nat) : Nat :=
  argMin ((List.range 8).map (qamDistance map r.amp (qamEstI r w m) (qamEstQ r w m)))

theorem qamSym_eq (map : QamMap) (r : CarrierRegs) (w : List Sample) (m : Nat) :
    qamSym map r w m = be (nearestGroup map r w m) 3 := rfl

theorem qamSym_length (map : QamMap) (r : CarrierRegs) (w : List Sample) (m : Nat) : (qamSym map r w m).length = 3 :=
  be_length _ _

theorem nearestGroup_spec (map : QamMap) (r : CarrierRegs) (w : List Sample) (m : Nat) {x y : ℝ}
    (hx : (qamEstI r w m).value = x) (hy : (qamEstQ r w m).value = y) : nearestGroup map r w m < 8 ∧
      (∀ u < 8, pointDistance map r.amp x y (nearestGroup map r w m) ≤ pointDistance map r.amp x y u) ∧
      ∀ u < nearestGroup map r w m,
        pointDistance map r.amp x y (nearestGroup map r w m) < pointDistance map r.amp x y u := by
  subst hx hy
  exact argMin_map_range (by decide) (value_qamDistance map r.amp _ _)

@[simp] theorem qamDem_length (map : QamMap) (r : CarrierRegs) (x : List Sample) :
    (qamDem map r x).length = 3 * (x.length / r.sps) := by
  rw [qamDem, length_flatMap_of_forall_length (fun _ => qamSym_length ..), List.length_range, Nat.mul_comm]

/-- The three bits of window m. -/
theorem take_drop_qamDem (map : QamMap) (r : CarrierRegs) {x : List Sample} {m : Nat} (hm : m < x.length / r.sps) :
    ((qamDem map r x).drop (3 * m)).take 3 = qamSym map r (win x r.sps m) m := by
  have hcut := windows_flatMap (f := fun m => qamSym map r (win x r.sps m) m) (S := 3) (by decide)
    (fun _ => qamSym_length ..) (List.range (x.length / r.sps))
  have hm3 : m < (qamDem map r x).length / 3 := by
    rwa [qamDem_length, Nat.mul_div_cancel_left _ (by decide)]
  have hwin := windows_getElem? (qamDem map r x) 3 m hm3
  rw [qamDem, hcut, List.getElem?_map, List.getElem?_range hm, Option.map_some, Option.some_inj] at hwin
  rw [hwin, win, sub, Nat.mul_comm, qamDem]

/-! ### The commands -/

/-- Settles O38: the bit of a window compares the mean of its squared values. -/
theorem askDemodulates : Obligations.AskDemodulates := by
  refine ⟨decode_encode .askDem, fun s S hsps hS hthr hx => ?_⟩
  exact ⟨_, exec_dem_of_whole (by decide) (demodulatorOf_askDem hsps hS hthr) hx, length_map_windows _ _ _, fun m hm =>
    (map_windows_getElem?_eq_true hm (askBit s.thr)).trans (askBit_iff (windowValues_win hm) s.thr)⟩

/-- Settles O39: the peak bin is the first greatest of the bins' real powers. -/
theorem fskDemodulates : Obligations.FskDemodulates := by
  refine ⟨decode_encode .fskDem, fun s S F lo hi hsps hS hfs hF hlo hhi hx => ?_⟩
  refine ⟨_, exec_dem_of_whole (by decide) (demodulatorOf_fskDem hsps hS hfs hF hlo hhi) hx,
    length_map_windows _ _ _, fun m P hm hP => ?_⟩
  have hpower : P = binPower S.toNat fun i => (s.si.getD (m * S.toNat + i) Sample.zero).value := by
    funext k
    rw [hP, binPower]
    simp only [cyclePhase, mul_right_comm _ (k : ℝ)]
  obtain ⟨hle, hmax, hfirst⟩ := peakBin_spec (windowValues_win hm)
  rw [hpower]
  exact ⟨_, hle, hmax, hfirst, (map_windows_getElem?_eq_true hm (fskBit ⟨S.toNat, F, lo, hi⟩)).trans (fskBit_iff _ _)⟩

/-- Settles O40: the estimates are the rule's sums, and the decision is the first least of the real distances. -/
theorem qamDemodulates : Obligations.QamDemodulates := by
  refine ⟨decode_encode .qamDem, fun s S A F f hsps hS hamp hA hfs hF hfc hx => ?_⟩
  refine ⟨_, exec_dem_of_whole (by decide) (demodulatorOf_qamDem hsps hS hamp hA hfs hF hfc) hx,
    qamDem_length _ _ _, fun m Ie Qe dist hm hIe hQe hdist => ?_⟩
  have hw := windowValues_win hm
  obtain ⟨hlt, hmin, hfirst⟩ := nearestGroup_spec s.qamMap ⟨S.toNat, A, F, f⟩ (win s.si S.toNat m) m
    ((value_qamEstI (r := ⟨S.toNat, A, F, f⟩) hw m).trans hIe.symm)
    ((value_qamEstQ (r := ⟨S.toNat, A, F, f⟩) hw m).trans hQe.symm)
  obtain rfl : dist = pointDistance s.qamMap A Ie Qe := funext hdist
  exact ⟨_, Nat.lt_succ_iff.1 hlt, fun u hu => hmin u (Nat.lt_succ_of_le hu), hfirst,
    take_drop_qamDem s.qamMap ⟨S.toNat, A, F, f⟩ hm⟩

/-! ## The round trips (R195)

Each demodulator is right about every symbol of its modulator; `map_windows_symbolsFrom` makes a message of the
symbols. -/

/-! ### ASK: the mean square of a one is half the square of A -/

theorem askBit_symbol {r : CarrierRegs} {c : Nat} (hc : wholeCycles r.sps r.fc r.fs c) {thr : ℚ} (h0 : 0 ≤ thr)
    (hlt : thr < r.amp * r.amp / 2) (m : Nat) (x : Bool) : askBit thr (symbol r.sps (askSample r) m x) = x := by
  obtain ⟨-, hpos, hhalf⟩ := id hc
  have hS : (r.sps : ℝ) ≠ 0 := Nat.cast_ne_zero.2 (by omega)
  rw [Bool.eq_iff_iff, askBit_iff (windowValues_symbol r.sps (askSample r) m x)]
  simp only [value_askSample]
  cases x with
  | false => simpa using h0
  | true =>
    have hmean : (∑ i ∈ Finset.range r.sps,
        ((r.amp : ℝ) * Real.sin (carrierPhase r.fc r.fs (m * r.sps + i))) ^ 2) / (r.sps : ℝ) =
          ((r.amp * r.amp / 2 : ℚ) : ℝ) := by
      simp only [sin_carrierPhase hc, mul_pow, ← Finset.mul_sum, pow_two (Real.sin _)]
      rw [sum_sin_mul_sin (by omega) (by omega), if_pos rfl]
      push_cast
      field_simp
    simp only [if_true, hmean, Rat.cast_lt, iff_true]
    exact hlt

theorem askDem_askMod {r : CarrierRegs} {c : Nat} (hc : wholeCycles r.sps r.fc r.fs c) {thr : ℚ} (h0 : 0 ≤ thr)
    (hlt : thr < r.amp * r.amp / 2) (b : BitSeq) : askDem ⟨r.sps, thr⟩ (askMod r b) = b := by
  obtain ⟨-, hpos, hhalf⟩ := id hc
  exact (map_windows_symbolsFrom (by omega) fun m a _ => askBit_symbol hc h0 hlt m a).trans (List.map_id' b)

/-- Settles O41: the windows of the signal are the symbols of the bits, and each symbol decodes to its bit. -/
theorem askRoundTrip : Obligations.AskRoundTrip := by
  intro s S A F f c hsps hamp hA hfs hF hfc hc
  obtain ⟨-, hpos, hhalf⟩ := id hc
  have hS : 1 ≤ S.toNat := by omega
  refine ⟨_, exec_askMod_of_le hsps hS hamp hA hfs hF hfc, fun u hu hsi h0 hlt => ?_⟩
  exact exec_dem_of_signal (by decide) (demodulatorOf_askDem hu hS h0) (hsi ▸ askMod_length _ _)
    (hsi ▸ askDem_askMod (r := ⟨S.toNat, A, F, f⟩) hc h0 hlt s.bi)

/-! ### FSK: a tone of d cycles has all its power in bin d -/

/-- The power of a sine wave of amplitude A and d cycles. -/
theorem binPower_sine {S d k : Nat} (A : ℝ) (hd : 0 < d) (hdS : 2 * d < S) (hk : k ≤ S / 2) :
    binPower S (fun i => A * Real.sin (cyclePhase S d i)) k = if d = k then (A * (S / 2)) ^ 2 else 0 := by
  rw [binPower]
  simp only [mul_assoc, ← Finset.mul_sum]
  rw [sum_sin_mul_cos (by omega) (by omega), sum_sin_mul_sin (by omega) (by omega)]
  split <;> simp

theorem peakBin_of_sine {w : List Sample} {S d : Nat} {A : ℝ} (hA : 0 < A)
    (hw : windowValues w S fun i => A * Real.sin (cyclePhase S d i)) (hd : 0 < d) (hdS : 2 * d < S) :
    peakBin S w = d := by
  obtain ⟨hle, hmax, -⟩ := peakBin_spec hw
  have hS : (0 : ℝ) < S := Nat.cast_pos.2 (by omega)
  have hpeak := hmax d (by omega)
  rw [binPower_sine A hd hdS (by omega), binPower_sine A hd hdS hle, if_pos rfl] at hpeak
  by_contra hne
  rw [if_neg (Ne.symm hne)] at hpeak
  have hpower : 0 < (A * (S / 2)) ^ 2 := by positivity
  exact absurd hpeak (not_le.2 hpower)

/-- Bin c stands for the frequency of c cycles per window. -/
theorem binFrequency_of_wholeCycles {S c : Nat} {f F : ℚ} (hF : 0 < F) (hc : wholeCycles S f F c) :
    (c : ℚ) * F / (S : ℚ) = f := by
  obtain ⟨hrate, hpos, hlt⟩ := hc
  have hS : (S : ℚ) ≠ 0 := Nat.cast_ne_zero.2 (by omega)
  rw [← hrate]
  field_simp

theorem fskBit_symbol {r : FskModRegs} {c d : Nat} (hA : 0 < r.amp) (hF : 0 < r.fs)
    (hc : wholeCycles r.sps r.flo r.fs c) (hd : wholeCycles r.sps r.fhi r.fs d) (hcd : c ≠ d) (m : Nat) (x : Bool) :
    fskBit ⟨r.sps, r.fs, r.flo, r.fhi⟩ (symbol r.sps (fskSample r) m x) = x := by
  have hlo := binFrequency_of_wholeCycles hF hc
  have hhi := binFrequency_of_wholeCycles hF hd
  have hne : r.flo ≠ r.fhi := by
    obtain ⟨hc, -⟩ := hc
    obtain ⟨hd, -⟩ := hd
    intro h
    rw [h, hd, Nat.cast_inj] at hc
    exact hcd hc.symm
  have hA' : (0 : ℝ) < r.amp := Rat.cast_pos.2 hA
  have hpeak {e : Nat} (he : wholeCycles r.sps (if x then r.fhi else r.flo) r.fs e) :
      peakBin r.sps (symbol r.sps (fskSample r) m x) = e := by
    obtain ⟨-, hpos, hhalf⟩ := id he
    have hw := windowValues_symbol r.sps (fskSample r) m x
    simp only [value_fskSample, sin_carrierPhase he] at hw
    exact peakBin_of_sine hA' hw hpos hhalf
  rw [Bool.eq_iff_iff, fskBit_iff]
  cases x with
  | false =>
    simp only [hpeak (e := c) hc, hlo, sub_self, abs_zero]
    simp
  | true =>
    simp only [hpeak (e := d) hd, hhi, sub_self, abs_zero, iff_true]
    exact abs_pos.2 (sub_ne_zero.2 hne.symm)

theorem fskDem_fskMod {r : FskModRegs} {c d : Nat} (hA : 0 < r.amp) (hF : 0 < r.fs)
    (hc : wholeCycles r.sps r.flo r.fs c) (hd : wholeCycles r.sps r.fhi r.fs d) (hcd : c ≠ d) (b : BitSeq) :
    fskDem ⟨r.sps, r.fs, r.flo, r.fhi⟩ (fskMod r b) = b := by
  obtain ⟨-, hpos, hhalf⟩ := id hc
  exact (map_windows_symbolsFrom (by omega) fun m a _ => fskBit_symbol hA hF hc hd hcd m a).trans (List.map_id' b)

/-- Settles O42: the peak bin of a symbol is the bin of its tone. -/
theorem fskRoundTrip : Obligations.FskRoundTrip := by
  intro s S A F lo hi c d hsps hamp hA hfs hF hlo hhi hc hd hcd
  obtain ⟨-, hpos, hhalf⟩ := id hc
  have hS : 1 ≤ S.toNat := by omega
  refine ⟨_, exec_fskMod_of_le hsps hS hamp hA hfs hF hlo hhi, fun u hu hufs hulo huhi hsi => ?_⟩
  exact exec_dem_of_signal (by decide) (demodulatorOf_fskDem hu hS hufs hF hulo huhi) (hsi ▸ fskMod_length _ _)
    (hsi ▸ fskDem_fskMod (r := ⟨S.toNat, A, F, lo, hi⟩) hA hF hc hd hcd s.bi)

/-! ### 8-QAM: the estimate of a symbol is its point -/

section QamSymbol
variable {map : QamMap} {r : CarrierRegs} {c : Nat} (hc : wholeCycles r.sps r.fc r.fs c) (m v : Nat)
include hc

theorem windowValues_qamSymbol : windowValues (symbol r.sps (qamSample map r) m v) r.sps fun i =>
    (r.amp : ℝ) * (qamI (qamPointOf map v) : ℝ) * Real.cos (cyclePhase r.sps c i) -
      (r.amp : ℝ) * (qamQ (qamPointOf map v) : ℝ) * Real.sin (cyclePhase r.sps c i) := by
  have hw := windowValues_symbol r.sps (qamSample map r) m v
  simpa only [value_qamSample, cos_carrierPhase hc, sin_carrierPhase hc] using hw

theorem value_qamEstI_symbol :
    (qamEstI r (symbol r.sps (qamSample map r) m v) m).value = (r.amp : ℝ) * (qamI (qamPointOf map v) : ℝ) := by
  obtain ⟨-, hpos, hhalf⟩ := id hc
  have hS : (r.sps : ℝ) ≠ 0 := Nat.cast_ne_zero.2 (by omega)
  rw [value_qamEstI (windowValues_qamSymbol hc m v)]
  simp only [cos_carrierPhase hc, sub_mul, mul_assoc, Finset.sum_sub_distrib, ← Finset.mul_sum]
  rw [sum_cos_mul_cos (by omega) (by omega), sum_sin_mul_cos (by omega) (by omega), if_pos rfl]
  field_simp
  ring

theorem value_qamEstQ_symbol :
    (qamEstQ r (symbol r.sps (qamSample map r) m v) m).value = (r.amp : ℝ) * (qamQ (qamPointOf map v) : ℝ) := by
  obtain ⟨-, hpos, hhalf⟩ := id hc
  have hS : (r.sps : ℝ) ≠ 0 := Nat.cast_ne_zero.2 (by omega)
  have hcross : ∑ i ∈ Finset.range r.sps, Real.cos (cyclePhase r.sps c i) * Real.sin (cyclePhase r.sps c i) = 0 := by
    simpa only [mul_comm] using sum_sin_mul_cos (S := r.sps) (a := c) (b := c) (by omega) (by omega)
  rw [value_qamEstQ (windowValues_qamSymbol hc m v)]
  simp only [sin_carrierPhase hc, sub_mul, mul_assoc, Finset.sum_sub_distrib, ← Finset.mul_sum]
  rw [sum_sin_mul_sin (by omega) (by omega), hcross, if_pos rfl]
  field_simp
  ring

variable (hmap : qamMapLegal map = true) (hA : 0 < r.amp) (hv : v < 8)
include hmap hA hv

/-- No other point of a legal map is as near: the distance to the symbol's own is 0. -/
theorem nearestGroup_symbol : nearestGroup map r (symbol r.sps (qamSample map r) m v) m = v := by
  obtain ⟨hlt, hmin, -⟩ := nearestGroup_spec map r _ m (value_qamEstI_symbol (map := map) hc m v)
    (value_qamEstQ_symbol hc m v)
  have hnear := hmin v hv
  have hA' : (r.amp : ℝ) ≠ 0 := Rat.cast_ne_zero.2 hA.ne'
  rw [pointDistance, pointDistance, sub_self, sub_self, zero_pow two_ne_zero, add_zero] at hnear
  have hsame {p q : ℚ} (h : ((r.amp : ℝ) * p - (r.amp : ℝ) * q) ^ 2 ≤ 0) : q = p := by
    have hzero := pow_eq_zero_iff two_ne_zero |>.1 (le_antisymm h (sq_nonneg _))
    exact_mod_cast (mul_left_cancel₀ hA' (sub_eq_zero.1 hzero)).symm
  refine qamPointOf_injective hmap hlt hv (qamPoint_ext (hsame ?_) (hsame ?_))
  · exact (le_add_of_nonneg_right (sq_nonneg _)).trans hnear
  · exact (le_add_of_nonneg_left (sq_nonneg _)).trans hnear

end QamSymbol

theorem lt_of_mem_qamGroups {b : BitSeq} {v : Nat} (h : v ∈ qamGroups b) : v < 8 := by
  rw [qamGroups_eq] at h
  obtain ⟨g, hg, rfl⟩ := List.mem_map.1 h
  have hlen := length_le_of_mem_splitBits hg
  have hpow : 2 ^ g.length ≤ 2 ^ 3 := Nat.pow_le_pow_right Nat.two_pos (by omega)
  exact (val_lt g).trans_le hpow

/-- The groups written out again are the completed message. -/
theorem flatMap_be_qamGroups (b : BitSeq) : (qamGroups b).flatMap (fun v => be v 3) = padTo3 b := by
  have hgroup : ∀ g ∈ splitBits (padTo3 b) 3, be (val g) 3 = g := by
    intro g hg
    obtain ⟨i, hi, rfl⟩ := List.mem_map.1 hg
    rw [List.mem_range, padTo3_length, ceilDiv_three_mul] at hi
    have hlen : (sub (padTo3 b) (i * 3) 3).length = 3 := sub_length_of_le (by rw [padTo3_length]; omega)
    have hinverse := be_val (sub (padTo3 b) (i * 3) 3)
    rwa [hlen] at hinverse
  rw [qamGroups_eq, List.flatMap_map, List.flatMap_def, List.map_congr_left hgroup, List.map_id',
    splitBits_flatten _ (by decide)]

theorem qamDem_qamMod {map : QamMap} {r : CarrierRegs} {c : Nat} (hA : 0 < r.amp) (hmap : qamMapLegal map = true)
    (hc : wholeCycles r.sps r.fc r.fs c) (b : BitSeq) : qamDem map r (qamMod map r b) = padTo3 b := by
  obtain ⟨-, hpos, hhalf⟩ := id hc
  have hsymbol : ∀ m, ∀ v ∈ qamGroups b, qamSym map r (symbol r.sps (qamSample map r) m v) m = be v 3 := by
    intro m v hv
    rw [qamSym_eq, nearestGroup_symbol hc m v hmap hA (lt_of_mem_qamGroups hv)]
  have hgroups := map_range_win_symbolsFrom (g := fun m w => qamSym map r w m) (by omega) hsymbol
  rw [qamDem, qamMod, List.flatMap_def, hgroups, ← List.flatMap_def, flatMap_be_qamGroups]

/-- Settles O43: the nearest point of a symbol is its own, and the groups written out are the completed message. -/
theorem qamRoundTrip : Obligations.QamRoundTrip := by
  intro s S A F f c hsps hamp hA hfs hF hfc hc hmap
  obtain ⟨-, hpos, hhalf⟩ := id hc
  have hS : 1 ≤ S.toNat := by omega
  refine ⟨_, exec_qamMod_of_le hsps hS hamp hA hfs hF hfc, fun u hu huamp hufs hufc humap hsi => ?_⟩
  have hwhole : u.si.length % S.toNat = 0 := by
    rw [hsi, qamMod_length, Nat.mul_mod_left]
  rw [exec_dem_of_whole (i := .qamDem) (by decide) (demodulatorOf_qamDem hu hS huamp hA hufs hF hufc) hwhole]
  have hbits : qamDem u.qamMap ⟨S.toNat, A, F, f⟩ u.si = padTo3 s.bi := by
    rw [hsi, humap]
    exact qamDem_qamMod hA hmap hc s.bi
  exact congrArg (fun b => Host.Outcome.next { u with bo := [b], status := 0x100#32 }) hbits

end Sys2Proof.Machine

/-! RX on both paths, and the round trip on the carrier (spec/45_pipeline.md). `rxRun_of_ready` runs RX down to the
stages after the demodulator. Chunk lengths grow by at least 8 from one multiple of 8 to the next (`GrowsByEight`), so
the length of a chunk is inferred; the frame stream of TX then comes back (`exec_rx_of_frameStream`) from any
demodulator that gives its bits and at most 7 more. -/

namespace Sys2Proof.Machine

/-! ## What RX reads (R214, R220, R230) -/

theorem le_toNat_of_spsOk {s : State} {S : Word} {least : Nat} (hsps : s.sps = some S) (h : spsOk least s) :
    least ≤ S.toNat := by
  obtain ⟨w, hw, hle⟩ := h
  rwa [← Option.some_inj.1 (hw.symm.trans hsps)]

/-- The selected signal, and the demodulator of the selected DEM command. -/
theorem rxSource_eq (c : CfgFields) (s : State) :
    rxSource c s = (rxSignal c s, demodulatorOf (rxDemCommand c) s) := by
  obtain ⟨framing, det, ham, line, carr, rxsrc, inj⟩ := c
  cases rxsrc with
  | line => cases line <;> rfl
  | carrier => cases carr <;> rfl

theorem rxDemCommand_mem (c : CfgFields) : rxDemCommand c ∈ demCommands := by
  obtain ⟨framing, det, ham, line, carr, rxsrc, inj⟩ := c
  rw [mem_demCommands]
  cases rxsrc with
  | line => cases line <;> simp [rxDemCommand]
  | carrier => cases carr <;> simp [rxDemCommand]

/-- The selected demodulator, its registers read. -/
theorem demodulatorOf_rxDemCommand {c : CfgFields} {s : State} {S : Word} (hsps : s.sps = some S)
    (hok : signalRegsOk (rxDemCommand c) s) : ∃ f, demodulatorOf (rxDemCommand c) s = some ⟨f, S.toNat⟩ ∧
      f (rxSignal c s) = rxBits c s S.toNat := by
  obtain ⟨framing, det, ham, line, carr, rxsrc, inj⟩ := c
  cases rxsrc with
  | line =>
    cases line with
    | nrz => exact ⟨_, demodulatorOf_nrzDem hsps (le_toNat_of_spsOk hsps hok), rfl⟩
    | man => exact ⟨_, demodulatorOf_manDem hsps (le_toNat_of_spsOk hsps hok), rfl⟩
    | ami =>
      obtain ⟨hS, hthr⟩ := hok
      exact ⟨_, demodulatorOf_amiDem hsps (le_toNat_of_spsOk hsps hS) hthr, rfl⟩
  | carrier =>
    cases carr with
    | ask =>
      obtain ⟨hS, hthr⟩ := hok
      exact ⟨_, demodulatorOf_askDem hsps (le_toNat_of_spsOk hsps hS) hthr, rfl⟩
    | fsk =>
      obtain ⟨hS, ⟨F, hfs, hF⟩, hlo, hhi⟩ := hok
      obtain ⟨lo, hlo⟩ := Option.isSome_iff_exists.1 hlo
      obtain ⟨hi, hhi⟩ := Option.isSome_iff_exists.1 hhi
      refine ⟨_, demodulatorOf_fskDem hsps (le_toNat_of_spsOk hsps hS) hfs hF hlo hhi, ?_⟩
      simp only [rxBits, rxSignal, hfs, hlo, hhi, Option.getD_some]
    | qam8 =>
      obtain ⟨hS, ⟨A, hamp, hA⟩, ⟨F, hfs, hF⟩, hfc⟩ := hok
      obtain ⟨f, hfc⟩ := Option.isSome_iff_exists.1 hfc
      refine ⟨_, demodulatorOf_qamDem hsps (le_toNat_of_spsOk hsps hS) hamp hA hfs hF hfc, ?_⟩
      simp only [rxBits, rxSignal, hamp, hfs, hfc, Option.getD_some]

theorem deframer_of_ready {c : CfgFields} {s : State} (h : pipelineReady c s) :
    deframer c.framing s = some (rxChunks c s) := by
  obtain ⟨framing, det, ham, line, carr, rxsrc, inj⟩ := c
  obtain ⟨-, -, -, hne⟩ := h
  cases framing with
  | count => rfl
  | stuff =>
    simp only [deframer, readDelimEsc_of_ne rfl rfl (hne rfl)]
    rfl

section Rx
variable {c : CfgFields} {s : State} {S : Word} (hready : rxReady c s) (hsps : s.sps = some S)
include hready hsps

/-- RX after its checks, down to the stages after the demodulator. -/
theorem rxRun_of_ready : rxRun s = if (rxSignal c s).length % S.toNat = 0 then
      andThen (orFraming (rxChunks c s (rxBits c s S.toNat))) fun qs => orFraming (unprotectAll c s.maxpl.toNat qs)
    else .error .truncation := by
  obtain ⟨hpipeline, hregs⟩ := hready
  obtain ⟨hcfg, hM, hM8, -⟩ := id hpipeline
  obtain ⟨f, hdem, hbits⟩ := demodulatorOf_rxDemCommand hsps hregs
  have hplan : rxPlan s = some ⟨c, s.maxpl.toNat, rxSignal c s, ⟨f, S.toNat⟩, rxChunks c s⟩ := by
    rw [rxPlan, hcfg, readMaxpl8_eq_some.2 ⟨rfl, hM, hM8⟩]
    simp only [rxSource_eq, hdem, deframer_of_ready hpipeline]
  rw [rxRun, hplan, orConfig_some, andThen_ok, demodulate_some]
  by_cases hwhole : (rxSignal c s).length % S.toNat = 0
  · simp only [if_pos hwhole, andThen_ok, hbits]
  · simp only [if_neg hwhole, andThen_error]

theorem exec_rxDemCommand (hwhole : (rxSignal c s).length % S.toNat = 0) :
    exec (rxDemCommand c) { s with si := rxSignal c s } =
      .next { s with si := rxSignal c s, bo := [rxBits c s S.toNat], status := 0x100#32 } := by
  obtain ⟨-, hregs⟩ := hready
  obtain ⟨f, hdem, hbits⟩ := demodulatorOf_rxDemCommand hsps hregs
  rw [← hbits]
  exact exec_dem_of_whole (s := { s with si := rxSignal c s }) (rxDemCommand_mem c) hdem hwhole

end Rx

theorem exec_rx_of_error {s : State} {e : Err} (h : rxRun s = .error e) :
    exec .rx s = .next { s with byo := [], bo := [], status := statusWord e noFlags } := by
  change execRx s = _
  rw [execRx, h]
  rfl

theorem exec_rx_of_ok {s : State} {us : List Unprotected} (h : rxRun s = .ok us) : exec .rx s = .next
    { s with byo := bytesOf (us.flatMap Unprotected.payload), bo := us.map Unprotected.payload,
             status := statusWord (rxErr (rxFlags us)) (rxFlags us) } := by
  change execRx s = _
  rw [execRx, h]
  rfl

/-! ## The length of a chunk (R221, R226) -/

/-- The function grows by at least 8 where its argument does; so it tells multiples of 8 apart. -/
def GrowsByEight (f : Nat → Nat) : Prop := ∀ x y, x + 8 ≤ y → f x + 8 ≤ f y

theorem growsByEight_pad8 : GrowsByEight pad8 := by
  intro x y h
  simp only [pad8, ceilDiv]
  omega

theorem growsByEight_hn : GrowsByEight hn := by
  intro x y h
  obtain ⟨k, rfl⟩ := Nat.exists_eq_add_of_le h
  have hstep := hn_strictMono.add_le_nat (8 + k) x
  rw [Nat.add_comm _ x, ← Nat.add_assoc] at hstep
  omega

theorem growsByEight_lenAfter (m : Det) : GrowsByEight (lenAfter · m) := by
  intro x y h
  cases m with
  | parity => exact Nat.succ_le_succ h
  | crc32 => exact Nat.add_le_add_right (growsByEight_pad8 x y h) 32

theorem growsByEight_foldl_lenAfter (ms : List Det) : GrowsByEight (ms.foldl lenAfter) := by
  induction ms with
  | nil => exact fun _ _ h => h
  | cons m ms ih => exact fun x y h => ih _ _ (growsByEight_lenAfter m x y h)

theorem growsByEight_plen (c : CfgFields) : GrowsByEight (plen c) := by
  intro x y h
  have hx := growsByEight_foldl_lenAfter c.det x y h
  rw [plen, plen, xlen, xlen]
  split
  · exact growsByEight_hn _ _ hx
  · exact hx

theorem growsByEight_alen (c : CfgFields) : GrowsByEight (alen c) := fun x y h =>
  growsByEight_pad8 _ _ (growsByEight_plen c x y h)

theorem dlenFrom_eq_some_iff {c : CfgFields} {L n d e : Nat} (hd : d % 8 = 0) :
    dlenFrom c L n d = some e ↔ d ≤ e ∧ e < d + 8 * n ∧ e % 8 = 0 ∧ alen c e = L := by
  induction n generalizing d with
  | zero => simp [dlenFrom]; omega
  | succ n ih =>
    rw [dlenFrom]
    by_cases hL : alen c d = L
    · rw [if_pos hL, Option.some_inj]
      constructor
      · rintro rfl
        exact ⟨Nat.le_refl d, by omega, hd, hL⟩
      · rintro ⟨hle, -, he, heL⟩
        by_contra hne
        have hgrow := growsByEight_alen c d e (by omega)
        omega
    · rw [if_neg hL, ih (by omega)]
      have hne : alen c e = L → e ≠ d := fun h he => hL (he ▸ h)
      constructor
      · rintro ⟨hle, hlt, he, heL⟩
        exact ⟨by omega, by omega, he, heL⟩
      · rintro ⟨hle, hlt, he, heL⟩
        have := hne heL
        exact ⟨by omega, by omega, he, heL⟩

/-- RX's search finds the one length that R226 looks for. -/
theorem dlen_eq_some_iff {c : CfgFields} {M L d : Nat} (hM : M % 8 = 0) :
    dlen c M L = some d ↔ chunkLength c M L d := by
  rw [dlen, dlenFrom_eq_some_iff (by decide), chunkLength]
  constructor
  · rintro ⟨hle, hlt, hd, hL⟩
    exact ⟨hle, by omega, hd, hL⟩
  · rintro ⟨hle, hlt, hd, hL⟩
    exact ⟨hle, by omega, hd, hL⟩

/-! ## Unprotecting every chunk (R229, R230) -/

theorem unprotectAll_of_forall₂ {c : CfgFields} {M : Nat} (hM : M % 8 = 0) {qs : List BitSeq} {us : List Unprotected}
    (h : List.Forall₂ (fun q u => ∃ d, chunkLength c M q.length d ∧ u = unprotect c q d) qs us) :
    unprotectAll c M qs = some us := by
  induction h with
  | nil => rfl
  | cons hq _ ih =>
    obtain ⟨d, hd, rfl⟩ := hq
    rw [unprotectAll, (dlen_eq_some_iff hM).2 hd, ih]

theorem unprotectAll_of_no_length {c : CfgFields} {M : Nat} (hM : M % 8 = 0) {qs : List BitSeq}
    (h : ∃ q ∈ qs, ∀ d, ¬ chunkLength c M q.length d) : unprotectAll c M qs = none := by
  obtain ⟨q, hq, hno⟩ := h
  have hnone : dlen c M q.length = none :=
    Option.eq_none_iff_forall_ne_some.2 fun d hd => hno d ((dlen_eq_some_iff hM).1 hd)
  induction qs with
  | nil => cases hq
  | cons p qs ih =>
    rw [unprotectAll]
    rcases List.mem_cons.1 hq with rfl | hq
    · rw [hnone]
    · rw [ih hq]
      cases dlen c M p.length <;> rfl

/-! ## The flags of RX (R231, R250) -/

theorem rxFlags_chk_iff (us : List Unprotected) : (rxFlags us).chk = true ↔
    (∃ u ∈ us, u.checks ≠ []) ∧ ∀ u ∈ us, ∀ k ∈ u.checks, k = true := by
  simp [rxFlags, allChecks]

theorem rxFlags_detfail_iff (us : List Unprotected) : (rxFlags us).detfail = true ↔ ∃ u ∈ us, false ∈ u.checks := by
  simp [rxFlags, allChecks]

theorem rxFlags_corrected_iff (us : List Unprotected) :
    (rxFlags us).corrected = true ↔ ∃ u ∈ us, u.corrected = true := List.any_eq_true

theorem rxFlags_corrfail_iff (us : List Unprotected) :
    (rxFlags us).corrfail = true ↔ ∃ u ∈ us, u.failed = true := List.any_eq_true

theorem errCode_rxErr (f : Flags) : errCode (rxErr f) = if f.corrfail then 4 else if f.detfail then 3 else 0 := by
  rw [rxErr]
  split
  · rfl
  · split <;> rfl

/-- Settles O51: RX is its demodulator, its deframer and `unprotectAll`, each of which ends it with its own error. -/
theorem rxReceives : Obligations.RxReceives := by
  refine ⟨decode_encode .rx, fun c s S => exec_rxDemCommand, fun c s S hready hsps hwhole hnone => ?_,
    fun c s S qs hready hsps hwhole hqs hno => ?_, fun c s S qs us hready hsps hwhole hqs hus => ?_,
    fun c s S hready hsps hshort => ?_⟩
  all_goals
    have hrun := rxRun_of_ready hready hsps
    obtain ⟨⟨-, -, hM, -⟩, -⟩ := hready
  · rw [if_pos hwhole, hnone] at hrun
    rw [exec_rx_of_error hrun, statusWord_framing]
  · rw [if_pos hwhole, hqs, orFraming_some, andThen_ok, unprotectAll_of_no_length hM hno] at hrun
    rw [exec_rx_of_error hrun, statusWord_framing]
  · rw [if_pos hwhole, hqs, orFraming_some, andThen_ok, unprotectAll_of_forall₂ hM hus] at hrun
    refine ⟨_, exec_rx_of_ok hrun, rfl, ?_⟩
    simp only [statusChk_statusWord, statusDetfail_statusWord, statusCorrected_statusWord, statusCorrfail_statusWord,
      statusErr_statusWord]
    exact ⟨rxFlags_chk_iff us, rxFlags_detfail_iff us, rxFlags_corrected_iff us, rxFlags_corrfail_iff us,
      errCode_rxErr _, statusDone_statusWord _ _, statusReserved_statusWord _ _⟩
  · rw [if_neg hshort] at hrun
    rw [exec_rx_of_error hrun, statusWord_truncation]

/-! ## The chunks of a message (R131, R221, R222) -/

/-- Chunks of a whole-byte message under a MAXPL of whole bytes are whole bytes, at least one and at most MAXPL. -/
theorem length_of_mem_splitBits_bitsOf {ys : List Byte} {M : Nat} (hM : 0 < M) (hM8 : M % 8 = 0) {ch : BitSeq}
    (h : ch ∈ splitBits (bitsOf ys) M) : 8 ≤ ch.length ∧ ch.length ≤ M ∧ ch.length % 8 = 0 := by
  obtain ⟨i, hi, hget⟩ := List.mem_iff_getElem.1 h
  have hch := (List.getElem?_eq_getElem hi).symm.trans (splitBits_getElem? hi)
  have hroom := mul_lt_of_lt_splitBits_length hM hi
  have haligned : i * M % 8 = 0 := by rw [Nat.mul_mod, hM8, Nat.mul_zero, Nat.zero_mod]
  rw [hget, Option.some_inj] at hch
  rw [hch, sub_length]
  rw [bitsOf_length] at hroom ⊢
  omega

/-- What TX frames: each chunk protected and padded to whole bytes (R224). -/
def txChunks (c : CfgFields) (s : State) : List BitSeq :=
  (splitBits (bitsOf s.byi) s.maxpl.toNat).map fun ch => padz (protect c ch)

theorem padz_protect_length (c : CfgFields) (ch : BitSeq) : (padz (protect c ch)).length = alen c ch.length := by
  rw [padz_length, protect_length, alen]

theorem frameStream_eq (c : CfgFields) (s : State) : frameStream c s = ((txChunks c s).map
    (frameOf c.framing (s.delim.extractLsb' 0 8) (s.esc.extractLsb' 0 8))).flatten := by
  rw [frameStream, txChunks, List.map_map]
  rfl

section Chunks
variable {c : CfgFields} {s : State} (hready : pipelineReady c s)
include hready

theorem txChunks_aligned : ∀ q ∈ txChunks c s, q ≠ [] ∧ q.length % 8 = 0 := by
  obtain ⟨-, hM, hM8, -⟩ := hready
  intro q hq
  obtain ⟨ch, hch, rfl⟩ := List.mem_map.1 hq
  obtain ⟨h8, -, -⟩ := length_of_mem_splitBits_bitsOf hM hM8 hch
  obtain ⟨-, -, haligned⟩ := pad8_spec (plen c ch.length)
  have hgrow := growsByEight_alen c 0 ch.length (by omega)
  rw [← List.length_pos_iff, padz_protect_length]
  exact ⟨by omega, haligned⟩

/-- Check 6 of R220: the longest chunk fits its count, so every chunk does. -/
theorem txChunks_countable (hfits : alen c s.maxpl.toNat ≤ 2040) : countable (txChunks c s) := by
  intro q hq
  obtain ⟨-, haligned⟩ := txChunks_aligned hready q hq
  obtain ⟨-, hM, hM8, -⟩ := hready
  obtain ⟨ch, hch, rfl⟩ := List.mem_map.1 hq
  obtain ⟨-, hle, h8⟩ := length_of_mem_splitBits_bitsOf hM hM8 hch
  refine ⟨haligned, ?_⟩
  rw [padz_protect_length]
  rcases Nat.eq_or_lt_of_le hle with heq | hlt
  · rwa [heq]
  · have hgrow := growsByEight_alen c ch.length s.maxpl.toNat (by omega)
    omega

/-- Deframing the stream, with at most 7 bits after it, gives the chunks. -/
theorem rxChunks_frameStream (hfits : c.framing = .count → alen c s.maxpl.toNat ≤ 2040) {rest : BitSeq}
    (hrest : rest.length < 8) : rxChunks c s (frameStream c s ++ rest) = some (txChunks c s) := by
  have haligned := txChunks_aligned hready
  obtain ⟨-, -, -, hne⟩ := id hready
  rw [frameStream_eq, rxChunks]
  cases hf : c.framing with
  | count => exact deframeByCount_countedStream (txChunks_countable hready (hfits hf)) hrest
  | stuff =>
    refine (deframeByStuffing_frames (hne hf) (fun q hq => (haligned q hq).2) hrest).trans (congrArg some ?_)
    exact List.filter_eq_self.2 fun q hq => decide_eq_true (haligned q hq).1

end Chunks

/-! ## TX (R220, R224) -/

/-- How the configuration wraps a chunk (R214). -/
def framerFunction (f : Framing) (s : State) (q : BitSeq) : Option BitSeq :=
  match f with
  | .count => wrapCount q
  | .stuff => some (wrapStuffed q (s.delim.extractLsb' 0 8) (s.esc.extractLsb' 0 8))

/-- The plan of a TX whose checks pass. -/
def readyPlan (c : CfgFields) (s : State) (S : Nat) (A F : ℚ) : TxPlan :=
  ⟨c, s.maxpl.toNat, ⟨lineSignal c.line S A, F⟩, ⟨carrierSignal c.carr s S A F, F⟩, framerFunction c.framing s⟩

section Tx
variable {c : CfgFields} {s : State} (hready : txReady c s)
include hready

theorem framer_of_txReady : framer c.framing s = some (framerFunction c.framing s) := by
  obtain ⟨⟨-, -, -, hne⟩, -⟩ := hready
  cases hf : c.framing with
  | count => rfl
  | stuff =>
    simp only [framer, readDelimEsc_of_ne rfl rfl (hne hf)]
    rfl

theorem allSome_framerFunction : allSome ((txChunks c s).map (framerFunction c.framing s)) =
    some ((txChunks c s).map (frameOf c.framing (s.delim.extractLsb' 0 8) (s.esc.extractLsb' 0 8))) := by
  obtain ⟨hpipeline, -, -, -, -, hfits, -⟩ := hready
  cases hf : c.framing with
  | count => exact allSome_wrapCount_of_countable (txChunks_countable hpipeline (hfits hf))
  | stuff => exact allSome_map_of_forall fun _ _ => rfl

/-- The injector fails only for a bit INJPOS that the stream does not have. -/
theorem exists_corrupt_eq_some
    (hpos : c.inj = .one → ∀ k, s.injpos = some k → k.toNat < (frameStream c s).length) :
    ∃ fe, corrupt c.inj s (frameStream c s) = some fe := by
  obtain ⟨-, -, -, -, -, -, hone, hrnd⟩ := hready
  cases hi : c.inj with
  | off => exact ⟨_, rfl⟩
  | one =>
    obtain ⟨k, hk⟩ := Option.isSome_iff_exists.1 (hone hi)
    simp only [corrupt, hk, flipAt, if_pos (hpos hi k hk), Option.some_inj, exists_eq']
  | rnd =>
    obtain ⟨k, hk⟩ := Option.isSome_iff_exists.1 (hrnd hi)
    simp only [corrupt, hk, Option.some_inj, exists_eq']

variable {S : Word} {A F : ℚ} (hsps : s.sps = some S) (hamp : s.amp = some A) (hfs : s.fs = some F)
include hsps hamp hfs

theorem registers_of_txReady : 1 ≤ S.toNat ∧ (c.line = .man → 2 ≤ S.toNat) ∧ 0 < A ∧ 0 < F := by
  obtain ⟨-, hS, ⟨A', hamp', hA⟩, ⟨F', hfs', hF⟩, -⟩ := hready
  have hle := le_toNat_of_spsOk hsps hS
  rw [hamp, Option.some_inj] at hamp'
  rw [hfs, Option.some_inj] at hfs'
  refine ⟨?_, fun h => by rwa [if_pos h] at hle, hamp' ▸ hA, hfs' ▸ hF⟩
  split at hle <;> omega

theorem lineModulator_of_txReady : lineModulator c.line s = some ⟨lineSignal c.line S.toNat A, F⟩ := by
  obtain ⟨hS, hman, hA, hF⟩ := registers_of_txReady hready hsps hamp hfs
  cases hl : c.line with
  | nrz => exact (nrzModulator_eq s).trans (congrArg _ (readModRegs_of_le hsps hS hamp hA hfs hF))
  | man => exact (manModulator_eq s).trans (congrArg _ (readModRegs_of_le hsps (hman hl) hamp hA hfs hF))
  | ami => exact (amiModulator_eq s).trans (congrArg _ (readModRegs_of_le hsps hS hamp hA hfs hF))

theorem carrierModulator_of_txReady :
    carrierModulator c.carr s = some ⟨carrierSignal c.carr s S.toNat A F, F⟩ := by
  obtain ⟨hS, -, hA, hF⟩ := registers_of_txReady hready hsps hamp hfs
  obtain ⟨-, -, -, -, hset, -⟩ := hready
  cases hk : c.carr with
  | ask =>
    rw [hk] at hset
    obtain ⟨f, hfc⟩ := Option.isSome_iff_exists.1 hset
    have hsignal : carrierSignal .ask s S.toNat A F = askMod ⟨S.toNat, A, F, f⟩ := by
      funext b
      rw [carrierSignal, hfc, Option.getD_some]
    rw [hsignal]
    exact (askModulator_eq s).trans (congrArg _ (readCarrierRegs_of_le hsps hS hamp hA hfs hF hfc))
  | fsk =>
    rw [hk] at hset
    obtain ⟨hlo, hhi⟩ := hset
    obtain ⟨lo, hlo⟩ := Option.isSome_iff_exists.1 hlo
    obtain ⟨hi, hhi⟩ := Option.isSome_iff_exists.1 hhi
    have hsignal : carrierSignal .fsk s S.toNat A F = fskMod ⟨S.toNat, A, F, lo, hi⟩ := by
      funext b
      rw [carrierSignal, hlo, hhi, Option.getD_some, Option.getD_some]
    rw [hsignal]
    exact (fskModulator_eq s).trans (congrArg _ (readFskModRegs_of_le hsps hS hamp hA hfs hF hlo hhi))
  | qam8 =>
    rw [hk] at hset
    obtain ⟨f, hfc⟩ := Option.isSome_iff_exists.1 hset
    have hsignal : carrierSignal .qam8 s S.toNat A F = qamMod s.qamMap ⟨S.toNat, A, F, f⟩ := by
      funext b
      rw [carrierSignal, hfc, Option.getD_some]
    rw [hsignal]
    exact (qamModulator_eq s).trans (congrArg _ (readCarrierRegs_of_le hsps hS hamp hA hfs hF hfc))

theorem txPlan_of_txReady : txPlan s = some (readyPlan c s S.toNat A F) := by
  have hline := lineModulator_of_txReady hready hsps hamp hfs
  have hcarr := carrierModulator_of_txReady hready hsps hamp hfs
  have hframer := framer_of_txReady hready
  obtain ⟨⟨hcfg, hM, hM8, -⟩, -, -, -, -, hfits, hone, hrnd⟩ := hready
  have hcount : countFits c s.maxpl.toNat = true := by
    rw [countFits]
    cases hf : c.framing with
    | count => exact decide_eq_true (hfits hf)
    | stuff => rfl
  have hset : injectorSet c.inj s = true := by
    cases hi : c.inj with
    | off => rfl
    | one => exact hone hi
    | rnd => exact hrnd hi
  rw [txPlan, hcfg, readMaxpl8_eq_some.2 ⟨rfl, hM, hM8⟩]
  simp only [hline, hcarr, hframer, hcount, hset, and_self, if_true, readyPlan]

/-- TX after its checks, down to the injector: the frames of every message can be made. -/
theorem txRun_of_txReady : txRun s = andThen (orConfig (corrupt c.inj s (frameStream c s))) fun fe =>
    .ok (readyPlan c s S.toNat A F, frameStream c s, fe) := by
  have hframes : txFrames (readyPlan c s S.toNat A F) s.byi = some ((txChunks c s).map
      (frameOf c.framing (s.delim.extractLsb' 0 8) (s.esc.extractLsb' 0 8))) := by
    rw [← allSome_framerFunction hready, txChunks, List.map_map]
    rfl
  rw [txRun, txPlan_of_txReady hready hsps hamp hfs, orConfig_some, andThen_ok, hframes, orFraming_some, andThen_ok,
    ← frameStream_eq]
  rfl

theorem exec_tx_of_corrupt {fe : Option BitSeq} (hfe : corrupt c.inj s (frameStream c s) = some fe) :
    exec .tx s = .next (s.endWith (txEnding (.ok (readyPlan c s S.toNat A F, frameStream c s, fe)))) := by
  have hrun := txRun_of_txReady hready hsps hamp hfs
  rw [hfe, orConfig_some, andThen_ok] at hrun
  change execTx s = _
  rw [execTx, hrun]
  exact congrArg _ (putTx_eq_endWith _ _ _ s)

/-- TX sends the frame stream on both paths, whatever the injector does to the copy. -/
theorem exec_tx_signals (hpos : c.inj = .one → ∀ k, s.injpos = some k → k.toNat < (frameStream c s).length) :
    ∃ t, exec .tx s = .next t ∧ t.sd = lineSignal c.line S.toNat A (frameStream c s) ∧
      t.sc = carrierSignal c.carr s S.toNat A F (frameStream c s) := by
  obtain ⟨fe, hfe⟩ := exists_corrupt_eq_some hready hpos
  refine ⟨_, exec_tx_of_corrupt hready hsps hamp hfs hfe, ?_⟩
  cases fe <;> exact ⟨rfl, rfl⟩

end Tx

/-! ## RX on the frame stream (R232) -/

/-- What RX makes of an undamaged chunk: every check passes, nothing is corrected. -/
def delivered (c : CfgFields) (ch : BitSeq) : Unprotected := ⟨ch, List.replicate c.det.length true, false, false⟩

theorem unprotectAll_txChunks {c : CfgFields} {s : State} (hready : pipelineReady c s) :
    unprotectAll c s.maxpl.toNat (txChunks c s) =
      some ((splitBits (bitsOf s.byi) s.maxpl.toNat).map (delivered c)) := by
  obtain ⟨-, hM, hM8, -⟩ := hready
  refine unprotectAll_of_forall₂ hM8 ?_
  rw [txChunks, List.forall₂_map_left_iff, List.forall₂_map_right_iff, List.forall₂_same]
  intro ch hch
  obtain ⟨h8, hle, haligned⟩ := length_of_mem_splitBits_bitsOf hM hM8 hch
  exact ⟨ch.length, ⟨h8, hle, haligned, (padz_protect_length c ch).symm⟩, (unprotect_padz_protect c ch).symm⟩

theorem rxFlags_delivered (c : CfgFields) (chs : List BitSeq) :
    rxFlags (chs.map (delivered c)) = ⟨decide (c.det ≠ [] ∧ chs ≠ []), false, false, false⟩ := by
  have hchk : (rxFlags (chs.map (delivered c))).chk = decide (c.det ≠ [] ∧ chs ≠ []) := by
    rw [Bool.eq_iff_iff, rxFlags_chk_iff, decide_eq_true_iff]
    simp [delivered, List.eq_nil_iff_forall_not_mem, and_comm]
  have hdetfail : (rxFlags (chs.map (delivered c))).detfail = false := by
    rw [← Bool.not_eq_true, rxFlags_detfail_iff]
    simp [delivered]
  have hcorrected : (rxFlags (chs.map (delivered c))).corrected = false := by
    rw [← Bool.not_eq_true, rxFlags_corrected_iff]
    simp [delivered]
  have hcorrfail : (rxFlags (chs.map (delivered c))).corrfail = false := by
    rw [← Bool.not_eq_true, rxFlags_corrfail_iff]
    simp [delivered]
  exact (Flags.mk.injEq ..).mpr ⟨hchk, hdetfail, hcorrected, hcorrfail⟩

/-- The STATUS of an RX that delivers undamaged chunks: CHK where there is a check and a chunk. -/
theorem status_delivered (c : CfgFields) (chs : List BitSeq) :
    statusWord (rxErr (rxFlags (chs.map (delivered c)))) (rxFlags (chs.map (delivered c))) =
      if c.det ≠ [] ∧ chs ≠ [] then 0x110#32 else 0x100#32 := by
  rw [rxFlags_delivered]
  by_cases h : c.det ≠ [] ∧ chs ≠ []
  · rw [decide_eq_true h, if_pos h]
    rfl
  · rw [decide_eq_false h, if_neg h]
    rfl

theorem splitBits_bitsOf_ne_nil_iff {ys : List Byte} {M : Nat} (hM : 1 ≤ M) :
    splitBits (bitsOf ys) M ≠ [] ↔ ys ≠ [] := by
  refine not_congr ⟨fun h => ?_, fun h => by rw [h, bitsOf_nil, splitBits_nil hM]⟩
  have hflat := splitBits_flatten (bitsOf ys) hM
  rw [h, List.flatten_nil] at hflat
  rw [← bytesOf_bitsOf ys, ← hflat]
  rfl

/-- RX on a stream whose bits are the frame stream of a message, with at most 7 after it, delivers the message. -/
theorem exec_rx_of_frameStream {c : CfgFields} {u : State} {S : Word} {ys : List Byte} (hready : rxReady c u)
    (hsps : u.sps = some S) (hfits : c.framing = .count → alen c u.maxpl.toNat ≤ 2040)
    (hwhole : (rxSignal c u).length % S.toNat = 0) {rest : BitSeq} (hrest : rest.length < 8)
    (hbits : rxBits c u S.toNat = frameStream c { u with byi := ys } ++ rest) :
    exec .rx u = .next { u with byo := ys, bo := splitBits (bitsOf ys) u.maxpl.toNat,
                                status := if c.det ≠ [] ∧ ys ≠ [] then 0x110#32 else 0x100#32 } := by
  obtain ⟨hpipeline, -⟩ := id hready
  obtain ⟨-, hM, -⟩ := id hpipeline
  have hsender : pipelineReady c { u with byi := ys } := hpipeline
  have hchunks : rxChunks c u (rxBits c u S.toNat) = some (txChunks c { u with byi := ys }) := by
    rw [hbits]
    exact rxChunks_frameStream hsender hfits hrest
  have hunprotect : unprotectAll c u.maxpl.toNat (txChunks c { u with byi := ys }) =
      some ((splitBits (bitsOf ys) u.maxpl.toNat).map (delivered c)) := unprotectAll_txChunks hsender
  have hrun := rxRun_of_ready hready hsps
  rw [if_pos hwhole, hchunks, orFraming_some, andThen_ok, hunprotect, orFraming_some] at hrun
  have hpayloads : ((splitBits (bitsOf ys) u.maxpl.toNat).map (delivered c)).map Unprotected.payload =
      splitBits (bitsOf ys) u.maxpl.toNat := by
    rw [List.map_map]
    exact List.map_id' _
  rw [exec_rx_of_ok hrun, List.flatMap_def, hpayloads, splitBits_flatten _ hM, bytesOf_bitsOf, status_delivered]
  simp only [splitBits_bitsOf_ne_nil_iff hM]

/-! ## The carrier path (R195, R232) -/

/-- The receiver's configuration: its INJ and RXSRC are its own, the rest is the sender's (R232). -/
def CfgFields.receiving (c : CfgFields) (r : RxSource) (j : Injection) : CfgFields := { c with inj := j, rxsrc := r }

/-- The carrier's demodulator gives the bits of the carrier signal back, 8-QAM with up to two zeros after them. -/
theorem rxBits_carrierSignal {c : CfgFields} {s u : State} {S : Nat} {A F : ℚ} (hA : 0 < A) (hF : 0 < F)
    (hsource : c.rxsrc = .carrier) (hparams : sameParameters s u) (hamp : s.amp = some A) (hfs : s.fs = some F)
    (hinvertible : carrierInvertible c.carr u S A F) (b : BitSeq) (hsignal : u.si2 = carrierSignal c.carr s S A F b) :
    (rxSignal c u).length % S = 0 ∧ ∃ rest : BitSeq, rest.length < 8 ∧ rxBits c u S = b ++ rest := by
  obtain ⟨-, -, -, -, huamp, hufs, hufc, huflo, hufhi, humap⟩ := hparams
  obtain ⟨framing, det, ham, line, carr, rxsrc, inj⟩ := c
  obtain rfl : rxsrc = .carrier := hsource
  cases carr with
  | ask =>
    obtain ⟨h0, hlt, n, hn⟩ := hinvertible
    rw [hufc] at hn
    refine ⟨?_, [], by decide, ?_⟩
    · simp [rxSignal, hsignal, carrierSignal]
    · simp only [rxBits, hsignal, carrierSignal, List.append_nil]
      exact askDem_askMod (r := ⟨S, A, F, s.fc.getD 0⟩) hn h0 hlt b
  | fsk =>
    obtain ⟨n, k, hnk, hn, hk⟩ := hinvertible
    rw [huflo] at hn
    rw [hufhi] at hk
    refine ⟨?_, [], by decide, ?_⟩
    · simp [rxSignal, hsignal, carrierSignal]
    · simp only [rxBits, hsignal, carrierSignal, hufs, hfs, huflo, hufhi, Option.getD_some, List.append_nil]
      exact fskDem_fskMod (r := ⟨S, A, F, s.flo.getD 0, s.fhi.getD 0⟩) hA hF hn hk hnk b
  | qam8 =>
    obtain ⟨hmap, n, hn⟩ := hinvertible
    rw [hufc] at hn
    rw [humap] at hmap
    obtain ⟨-, hpad⟩ := ceilDiv_spec b.length 3 (by decide)
    refine ⟨?_, zeros (3 * ceilDiv b.length 3 - b.length), by rw [zeros_length]; omega, ?_⟩
    · simp [rxSignal, hsignal, carrierSignal]
    · simp only [rxBits, hsignal, carrierSignal, huamp, hamp, hufs, hfs, hufc, humap, Option.getD_some]
      exact qamDem_qamMod (r := ⟨S, A, F, s.fc.getD 0⟩) hA hmap hn b

/-- The receiver's registers pass the checks of the selected carrier command. -/
theorem signalRegsOk_of_carrier {c : CfgFields} {s u : State} {S : Word} {A F : ℚ} (hsource : c.rxsrc = .carrier)
    (hS : 1 ≤ S.toNat) (hA : 0 < A) (hF : 0 < F) (hparams : sameParameters s u) (hsps : s.sps = some S)
    (hamp : s.amp = some A) (hfs : s.fs = some F) (hset : carrierSet c.carr s)
    (hinvertible : carrierInvertible c.carr u S.toNat A F) : signalRegsOk (rxDemCommand c) u := by
  obtain ⟨-, husps, -, -, huamp, hufs, hufc, huflo, hufhi, -⟩ := hparams
  obtain ⟨framing, det, ham, line, carr, rxsrc, inj⟩ := c
  obtain rfl : rxsrc = .carrier := hsource
  have hspsOk : spsOk 1 u := ⟨S, husps.trans hsps, hS⟩
  have hampOk : positiveOk u.amp := ⟨A, huamp.trans hamp, hA⟩
  have hfsOk : positiveOk u.fs := ⟨F, hufs.trans hfs, hF⟩
  cases carr with
  | ask =>
    obtain ⟨h0, -⟩ := hinvertible
    exact ⟨hspsOk, h0⟩
  | fsk =>
    obtain ⟨hlo, hhi⟩ := hset
    exact ⟨hspsOk, hfsOk, huflo ▸ hlo, hufhi ▸ hhi⟩
  | qam8 => exact ⟨hspsOk, hampOk, hfsOk, hufc ▸ hset⟩

/-- Settles O54: TX's carrier signal is the modulated frame stream, which the demodulator gives back, and of which RX
makes the message. -/
theorem pipelineRoundTripCarrier : Obligations.PipelineRoundTripCarrier := by
  intro c s S A F hready hsps hamp hfs hpos
  obtain ⟨hS, -, hA, hF⟩ := registers_of_txReady hready hsps hamp hfs
  obtain ⟨t, ht, -, hsc⟩ := exec_tx_signals hready hsps hamp hfs hpos
  obtain ⟨⟨-, hM, hM8, hne⟩, -, -, -, hset, hfits, -⟩ := hready
  refine ⟨t, ht, fun u j hcfg hparams hinvertible hsi2 => ?_⟩
  have hregs := signalRegsOk_of_carrier (c := c.receiving .carrier j) rfl hS hA hF hparams hsps hamp
    hfs hset hinvertible
  obtain ⟨hwhole, rest, hrest, hbits⟩ := rxBits_carrierSignal (c := c.receiving .carrier j) hA hF rfl
    hparams hamp hfs hinvertible _ (hsi2.trans hsc)
  obtain ⟨humaxpl, husps, hudelim, huesc, -⟩ := hparams
  have hstream : frameStream (c.receiving .carrier j) { u with byi := s.byi } = frameStream c s := by
    simp only [frameStream, humaxpl, hudelim, huesc]
    rfl
  rw [← hstream] at hbits
  rw [← humaxpl] at hM hM8 hfits ⊢
  rw [← hudelim, ← huesc] at hne
  exact exec_rx_of_frameStream (c := c.receiving .carrier j) ⟨⟨hcfg, hM, hM8, hne⟩, hregs⟩ (husps.trans hsps) hfits
    hwhole hrest hbits

end Sys2Proof.Machine

/-! The statements of family 45 (spec/45_pipeline.md): the injector, the lengths, TX, the checks of TX and RX, and the
round trip on the line path. The injector is said once (`flipAt`, `keepOnes`, `corrupt`) for INJ.ONE, INJ.RND and TX.
The checks of R220 are said once per part of a plan (`lineModulator_isSome` and the like), so that a plan is there only
where every check passes. -/

namespace Sys2Proof.Machine

/-! ## The injector's operations (R211, R212) -/

theorem flipBit_append_cons (p q : BitSeq) (x : Bool) : flipBit (p ++ x :: q) p.length = p ++ (!x) :: q := by
  induction p with
  | nil => exact flipBit_cons_zero x q
  | cons y p ih => rw [List.cons_append, List.length_cons, flipBit_cons_succ, ih, List.cons_append]

theorem flipAt_of_lt {b : BitSeq} {i : Nat} (h : i < b.length) : flipAt b i = some (flipBit b i) := if_pos h

theorem flipAt_of_le {b : BitSeq} {i : Nat} (h : b.length ≤ i) : flipAt b i = none := if_neg (Nat.not_lt.2 h)

theorem keepOnes_zero_cons (x : Bool) (e : BitSeq) : keepOnes 0 (x :: e) = false :: keepOnes 0 e := rfl

theorem keepOnes_cons_false (k : Nat) (e : BitSeq) : keepOnes k (false :: e) = false :: keepOnes k e := by
  cases k <;> rfl

theorem keepOnes_succ_cons_true (k : Nat) (e : BitSeq) : keepOnes (k + 1) (true :: e) = true :: keepOnes k e := rfl

@[simp] theorem keepOnes_length (k : Nat) (e : BitSeq) : (keepOnes k e).length = e.length := by
  induction e generalizing k with
  | nil => rw [keepOnes]
  | cons x e ih => cases k <;> exact congrArg Nat.succ (ih _)

theorem popcount_keepOnes_le (k : Nat) (e : BitSeq) : popcount (keepOnes k e) ≤ k := by
  induction e generalizing k with
  | nil => rw [keepOnes]; exact Nat.zero_le k
  | cons x e ih =>
    cases x with
    | false =>
      rw [keepOnes_cons_false, popcount_cons]
      exact (Nat.zero_add _).trans_le (ih k)
    | true =>
      cases k with
      | zero =>
        rw [keepOnes_zero_cons, popcount_cons]
        exact (Nat.zero_add _).trans_le (ih 0)
      | succ k =>
        rw [keepOnes_succ_cons_true, popcount_cons, Nat.add_comm]
        exact Nat.succ_le_succ (ih k)

theorem keepOnes_of_popcount_le {k : Nat} {e : BitSeq} (h : popcount e ≤ k) : keepOnes k e = e := by
  induction e generalizing k with
  | nil => rw [keepOnes]
  | cons x e ih =>
    rw [popcount_cons] at h
    cases x with
    | false => rw [keepOnes_cons_false, ih ((Nat.zero_add _).symm.trans_le h)]
    | true =>
      obtain ⟨k, rfl⟩ := Nat.exists_eq_add_of_le h
      rw [bitVal, if_pos rfl] at h ⊢
      rw [Nat.add_assoc, Nat.add_comm 1, keepOnes_succ_cons_true, ih (Nat.le_add_right _ _)]

@[simp] theorem drawMask_length (d k n : Nat) : (drawMask d k n).length = n := by
  rw [drawMask, keepOnes_length, List.length_map, List.length_range]

theorem popcount_drawMask_le (d k n : Nat) : popcount (drawMask d k n) ≤ k := popcount_keepOnes_le _ _

/-! ## INJ.ONE and INJ.RND -/

theorem exec_injOne (s : State) : exec .injOne s = .next (s.finishBo (andThen (orConfig s.injpos) fun k =>
    andThen (orConfig (flipAt s.bi k.toNat)) fun b => .ok [b])) := rfl

theorem exec_injOne_of_none {s : State} (h : s.injpos = none) :
    exec .injOne s = .next { s with bo := [], status := 0x101#32 } := by
  simp only [exec_injOne, h, orConfig_none, andThen_error, State.finishBo_error, statusWord_config]

theorem exec_injOne_of_le {s : State} {k : Word} (hk : s.injpos = some k) (h : s.bi.length ≤ k.toNat) :
    exec .injOne s = .next { s with bo := [], status := 0x101#32 } := by
  simp only [exec_injOne, hk, orConfig_some, andThen_ok, flipAt_of_le h, orConfig_none, andThen_error,
    State.finishBo_error, statusWord_config]

theorem exec_injOne_of_lt {s : State} {k : Word} (hk : s.injpos = some k) (h : k.toNat < s.bi.length) :
    exec .injOne s = .next { s with bo := [flipBit s.bi k.toNat], status := 0x100#32 } := by
  simp only [exec_injOne, hk, orConfig_some, andThen_ok, flipAt_of_lt h, State.finishBo_ok]

/-- Settles O44: INJ.ONE fails where there is no bit to flip, and flips the one at INJPOS otherwise. -/
theorem injectOneBit : Obligations.InjectOneBit := by
  refine ⟨decode_encode .injOne, fun s k p q x hk hbi hp => ?_, fun s k => exec_injOne_of_le,
    fun s => exec_injOne_of_none⟩
  have hlt : k.toNat < s.bi.length := by
    rw [hbi, ← hp, List.length_append, List.length_cons]
    omega
  rw [exec_injOne_of_lt hk hlt, hbi, ← hp, flipBit_append_cons]

theorem exec_injRnd_of_some {s : State} {k : Word} (h : s.injmax = some k) :
    exec .injRnd s = .next { s with bo := [xorBits s.bi (drawMask s.draws k.toNat s.bi.length)], status := 0x100#32,
                                    draws := s.draws + 1 } := by
  have hrun : exec .injRnd s =
      .next (s.finishBo (.ok [xorBits s.bi (drawMask s.draws k.toNat s.bi.length)])).countDraw := by
    change execInjRnd s = _
    rw [execInjRnd, h]
  rw [hrun, State.finishBo_ok, State.countDraw]

theorem exec_injRnd_of_none {s : State} (h : s.injmax = none) :
    exec .injRnd s = .next { s with bo := [], status := 0x101#32 } := by
  have hrun : exec .injRnd s = .next (s.raise .bo .config) := by
    change execInjRnd s = _
    rw [execInjRnd, h]
  exact hrun

/-- Settles O45: the cut keeps the length of the wishes and at most INJMAX ones, and leaves a mask of no more ones as it
is. -/
theorem injectBoundedBits : Obligations.InjectBoundedBits := by
  refine ⟨⟨decode_encode .injRnd, fun s k e hk he => ?_, fun _ _ _ => rfl, fun s => exec_injRnd_of_none⟩,
    fun k e => ⟨keepOnes_length k e, popcount_keepOnes_le k e⟩, fun k e => keepOnes_of_popcount_le⟩
  subst he
  exact ⟨drawMask_length _ _ _, popcount_drawMask_le _ _ _, exec_injRnd_of_some hk⟩

/-! ## Lengths (R221, R223, R226) -/

/-- Settles O47: protection has the length of `plen`, which grows by at least 8 where the chunk does; so the search for a
chunk length finds the only one there is. -/
theorem lengthsAndInference : Obligations.LengthsAndInference := by
  refine ⟨⟨protect_length, fun c d _ => ?_⟩, fun c M L d hM => dlen_eq_some_iff hM⟩
  obtain ⟨hle, -, -⟩ := pad8_spec (plen c d)
  exact ⟨growsByEight_plen c d _ (Nat.le_refl _), growsByEight_alen c d _ (Nat.le_refl _), hle⟩

/-! ## TX (R214, R220, R224) -/

theorem exec_tx_of_error {s : State} {e : Err} (h : txRun s = .error e) :
    exec .tx s = .next { s.clearOwned .tx with status := statusWord e noFlags } := by
  change execTx s = _
  rw [execTx, h]
  rfl

section Corrupt
variable {i : Injection} {s : State} {F : BitSeq} {k : Word}

theorem corrupt_off (h : i = .off) : corrupt i s F = some none := by rw [h, corrupt]

theorem corrupt_one_of_lt (h : i = .one) (hk : s.injpos = some k) (hlt : k.toNat < F.length) :
    corrupt i s F = some (some (flipBit F k.toNat)) := by
  simp only [h, corrupt, hk, flipAt_of_lt hlt]

theorem corrupt_one_of_le (h : i = .one) (hk : s.injpos = some k) (hle : F.length ≤ k.toNat) :
    corrupt i s F = none := by
  simp only [h, corrupt, hk, flipAt_of_le hle]

theorem corrupt_rnd (h : i = .rnd) (hk : s.injmax = some k) :
    corrupt i s F = some (some (xorBits F (drawMask s.draws k.toNat F.length))) := by
  simp only [h, corrupt, hk]

end Corrupt

theorem txDraws_rnd {i : Injection} (h : i = .rnd) : txDraws i = 1 := if_pos h

theorem txDraws_of_ne {i : Injection} (h : i ≠ .rnd) : txDraws i = 0 := if_neg h

section Transmit
variable {c : CfgFields} {s : State} {S : Word} {A F : ℚ} (hready : txReady c s) (hsps : s.sps = some S)
  (hamp : s.amp = some A) (hfs : s.fs = some F) {fr : BitSeq} {line carr : BitSeq → List Sample}
  {time : List Sample → List ℚ} (hfr : fr = frameStream c s) (hline : line = lineSignal c.line S.toNat A)
  (hcarr : carr = carrierSignal c.carr s S.toNat A F)
  (htime : time = fun x => (List.range x.length).map fun (j : Nat) => (j : ℚ) / F)
include hready hsps hamp hfs hfr hline hcarr htime

/-- TX without an injected error writes the frame stream and its signals. -/
theorem exec_tx_of_corrupt_none (hfe : corrupt c.inj s fr = some none) : exec .tx s = .next
    { s with bo := [fr], sd := line fr, td := time (line fr), sc := carr fr, tc := time (carr fr),
             sde := [], tde := [], sce := [], tce := [], status := 0x100#32, draws := s.draws + txDraws c.inj } := by
  subst hfr hline hcarr htime
  exact exec_tx_of_corrupt hready hsps hamp hfs hfe

/-- TX with an injected error writes the corrupted copy and its signals too. -/
theorem exec_tx_of_corrupt_some {b : BitSeq} (hfe : corrupt c.inj s fr = some (some b)) : exec .tx s = .next
    { s with bo := [fr, b], sd := line fr, td := time (line fr), sc := carr fr, tc := time (carr fr),
             sde := line b, tde := time (line b), sce := carr b, tce := time (carr b), status := 0x100#32,
             draws := s.draws + txDraws c.inj } := by
  subst hfr hline hcarr htime
  exact exec_tx_of_corrupt hready hsps hamp hfs hfe

end Transmit

theorem exec_tx_of_not_corruptible {c : CfgFields} {s : State} {S : Word} {A F : ℚ} (hready : txReady c s)
    (hsps : s.sps = some S) (hamp : s.amp = some A) (hfs : s.fs = some F)
    (hfe : corrupt c.inj s (frameStream c s) = none) :
    exec .tx s = .next { s.clearOwned .tx with status := 0x101#32 } := by
  have hrun := txRun_of_txReady hready hsps hamp hfs
  rw [hfe, orConfig_none, andThen_error] at hrun
  rw [exec_tx_of_error hrun, statusWord_config]

/-- Settles O49: TX whose checks pass is decided by what the injector makes of the frame stream. -/
theorem txTransmits : Obligations.TxTransmits := by
  refine ⟨decode_encode .tx, fun c s S A F hready hsps hamp hfs fr line carr time hfr hline hcarr htime =>
    ⟨fun hoff => ?_, fun k hone hk hlt => ?_, fun k hone hk hle => ?_, fun k hrnd hk => ?_⟩⟩
  · have htx := exec_tx_of_corrupt_none hready hsps hamp hfs hfr hline hcarr htime (corrupt_off hoff)
    rwa [txDraws_of_ne (by simp [hoff]), Nat.add_zero] at htx
  · have htx := exec_tx_of_corrupt_some hready hsps hamp hfs hfr hline hcarr htime (corrupt_one_of_lt hone hk hlt)
    rwa [txDraws_of_ne (by simp [hone]), Nat.add_zero] at htx
  · exact exec_tx_of_not_corruptible hready hsps hamp hfs (corrupt_one_of_le hone hk (hfr ▸ hle))
  · have htx := exec_tx_of_corrupt_some hready hsps hamp hfs hfr hline hcarr htime (corrupt_rnd hrnd hk)
    rw [txDraws_rnd hrnd] at htx
    exact ⟨_, rfl, drawMask_length _ _ _, popcount_drawMask_le _ _ _, htx⟩

/-! ## The checks of TX and RX (R220)

Each part of a plan is there exactly where its check passes. -/

theorem lineModulator_isSome (l : LineCode) (s : State) : (lineModulator l s).isSome ↔
    spsOk (if l = .man then 2 else 1) s ∧ positiveOk s.amp ∧ positiveOk s.fs := by
  cases l with
  | nrz => exact modulatorOf_isSome (i := .nrzMod) (by decide) s
  | man => exact modulatorOf_isSome (i := .manMod) (by decide) s
  | ami => exact modulatorOf_isSome (i := .amiMod) (by decide) s

theorem carrierModulator_isSome (k : CarrierCode) (s : State) : (carrierModulator k s).isSome ↔
    spsOk 1 s ∧ positiveOk s.amp ∧ positiveOk s.fs ∧ carrierSet k s := by
  cases k with
  | ask => exact modulatorOf_isSome (i := .askMod) (by decide) s
  | fsk => exact modulatorOf_isSome (i := .fskMod) (by decide) s
  | qam8 => exact modulatorOf_isSome (i := .qamMod) (by decide) s

/-- Check 5: TX and RX need delimiter and escape to differ, under STUFF only. -/
def delimitersOk (f : Framing) (s : State) : Prop :=
  f = .stuff → s.delim.extractLsb' 0 8 ≠ s.esc.extractLsb' 0 8

theorem framer_isSome (f : Framing) (s : State) : (framer f s).isSome ↔ delimitersOk f s := by
  cases f with
  | count => simp [framer, delimitersOk]
  | stuff =>
    by_cases h : s.delim.extractLsb' 0 8 = s.esc.extractLsb' 0 8
    · simp [framer, delimitersOk, readDelimEsc_of_eq h, h]
    · simp [framer, delimitersOk, readDelimEsc_of_ne rfl rfl h, h]

/-- RX's deframer makes the check of TX's framer. -/
theorem deframer_isSome_eq (f : Framing) (s : State) : (deframer f s).isSome = (framer f s).isSome := by
  cases f with
  | count => rfl
  | stuff =>
    rw [deframer, framer]
    cases readDelimEsc s <;> rfl

theorem countFits_iff (c : CfgFields) (M : Nat) : countFits c M = true ↔ (c.framing = .count → alen c M ≤ 2040) := by
  rw [countFits]
  cases c.framing <;> simp

theorem injectorSet_iff (i : Injection) (s : State) :
    injectorSet i s = true ↔ (i = .one → s.injpos.isSome) ∧ (i = .rnd → s.injmax.isSome) := by
  cases i <;> simp [injectorSet]

theorem pipelineReady_of_reads {c : CfgFields} {s : State} {M : Nat} (hcfg : readCfg s.cfg = some c)
    (hM : readMaxpl8 s = some M) (hdelims : delimitersOk c.framing s) : pipelineReady c s ∧ s.maxpl.toNat = M := by
  obtain ⟨rfl, hpos, hM8⟩ := readMaxpl8_eq_some.1 hM
  exact ⟨⟨hcfg, hpos, hM8, hdelims⟩, rfl⟩

theorem txReady_of_txPlan {s : State} {p : TxPlan} (h : txPlan s = some p) : txReady p.cfg s := by
  unfold txPlan at h
  split at h
  case h_2 => cases h
  case h_1 c M hcfg hM =>
    split at h
    case h_2 => cases h
    case h_1 l k f hl hk hf =>
      split_ifs at h with hchecks
      obtain rfl := Option.some_inj.1 h
      obtain ⟨hcount, hset⟩ := hchecks
      have hdelims := (framer_isSome c.framing s).1 (Option.isSome_of_eq_some hf)
      obtain ⟨hpipeline, rfl⟩ := pipelineReady_of_reads hcfg hM hdelims
      obtain ⟨hS, hA, hF⟩ := (lineModulator_isSome c.line s).1 (Option.isSome_of_eq_some hl)
      obtain ⟨-, -, -, hcarrier⟩ := (carrierModulator_isSome c.carr s).1 (Option.isSome_of_eq_some hk)
      exact ⟨hpipeline, hS, hA, hF, hcarrier, (countFits_iff c _).1 hcount, (injectorSet_iff c.inj s).1 hset⟩

theorem rxReady_of_rxPlan {s : State} {p : RxPlan} (h : rxPlan s = some p) : rxReady p.cfg s := by
  unfold rxPlan at h
  split at h
  case h_2 => cases h
  case h_1 c M hcfg hM =>
    rw [rxSource_eq] at h
    split at h
    case h_2 => cases h
    case h_1 x dm f hsource hf =>
      obtain rfl := Option.some_inj.1 h
      have hdelims := (framer_isSome c.framing s).1 (deframer_isSome_eq c.framing s ▸ Option.isSome_of_eq_some hf)
      obtain ⟨hpipeline, -⟩ := pipelineReady_of_reads hcfg hM hdelims
      obtain ⟨-, hdem⟩ := Prod.mk.inj hsource
      exact ⟨hpipeline, (demodulatorOf_isSome (rxDemCommand_mem c) s).1 (Option.isSome_of_eq_some hdem)⟩

/-- Settles O50: where no configuration passes the checks there is no plan, and without a plan the command ends there. -/
theorem pipelineChecks : Obligations.PipelineChecks := by
  refine ⟨fun s hnot => ?_, fun s hnot => ?_⟩
  · have hplan : txPlan s = none :=
      Option.eq_none_iff_forall_ne_some.2 fun p hp => hnot ⟨p.cfg, txReady_of_txPlan hp⟩
    have hrun : txRun s = .error .config := by rw [txRun, hplan, orConfig_none, andThen_error]
    rw [exec_tx_of_error hrun, statusWord_config]
  · have hplan : rxPlan s = none :=
      Option.eq_none_iff_forall_ne_some.2 fun p hp => hnot ⟨p.cfg, rxReady_of_rxPlan hp⟩
    have hrun : rxRun s = .error .config := by rw [rxRun, hplan, orConfig_none, andThen_error]
    rw [exec_rx_of_error hrun, statusWord_config]

/-! ## The input RX reads (R230) -/

theorem exec_rx_eq_endWith (s : State) : exec .rx s = .next (s.endWith (rxEnding (rxRun s))) := by
  cases h : rxRun s with
  | ok us => exact exec_rx_of_ok h
  | error e => exact exec_rx_of_error h

/-- RX runs alike where CFG, MAXPL, the selected source and the deframer are alike. -/
theorem rxRun_congr {s u : State} {c : CfgFields} (hcfg : readCfg s.cfg = some c) (hucfg : u.cfg = s.cfg)
    (hmaxpl : readMaxpl8 u = readMaxpl8 s) (hsource : rxSource c u = rxSource c s)
    (hdeframer : deframer c.framing u = deframer c.framing s) : rxRun u = rxRun s := by
  have hplan : rxPlan u = rxPlan s := by
    rw [rxPlan, rxPlan, hucfg, hcfg, hmaxpl]
    cases readMaxpl8 s with
    | none => rfl
    | some M => simp only [hsource, hdeframer]
  rw [rxRun, rxRun, hplan]

/-- An ending writes no input. -/
theorem endWith_withSi {o : Owned} (r : Ending o) (s : State) (x : List Sample) :
    State.endWith r { s with si := x } = { s.endWith r with si := x } := by
  obtain ⟨e, f, out, n⟩ := r
  cases out <;> rfl

theorem endWith_withSi2 {o : Owned} (r : Ending o) (s : State) (x : List Sample) :
    State.endWith r { s with si2 := x } = { s.endWith r with si2 := x } := by
  obtain ⟨e, f, out, n⟩ := r
  cases out <;> rfl

/-- Settles O52: the run reads the selected signal alone, and the ending it makes writes no input. -/
theorem rxReadsOnlyItsSource : Obligations.RxReadsOnlyItsSource := by
  intro c s t x hcfg hexec
  rw [exec_rx_eq_endWith, Host.Outcome.next.injEq] at hexec
  subst hexec
  refine ⟨fun hline => ?_, fun hcarrier => ?_⟩
  · have hsource : rxSource c { s with si2 := x } = rxSource c s := by
      simp only [rxSource, hline]
      rfl
    have hrun := rxRun_congr (u := { s with si2 := x }) hcfg rfl rfl hsource rfl
    rw [exec_rx_eq_endWith, hrun, endWith_withSi2]
  · have hsource : rxSource c { s with si := x } = rxSource c s := by
      simp only [rxSource, hcarrier]
      rfl
    have hrun := rxRun_congr (u := { s with si := x }) hcfg rfl rfl hsource rfl
    rw [exec_rx_eq_endWith, hrun, endWith_withSi]

/-! ## The line path (R169, R232) -/

section Line
variable {c : CfgFields} {u : State} {S : Nat} {A : ℚ} (hsource : c.rxsrc = .line) (hS : 1 ≤ S)
  (hman : c.line = .man → 2 ≤ S) (hthr : c.line = .ami → 0 ≤ u.thr ∧ u.thr < A)
include hsource hS hman hthr

/-- The line code's demodulator gives the bits of the digital signal back. -/
theorem rxBits_lineSignal (hA : 0 < A) (b : BitSeq) (hsignal : u.si = lineSignal c.line S A b) :
    (rxSignal c u).length % S = 0 ∧ rxBits c u S = b := by
  obtain ⟨framing, det, ham, line, carr, rxsrc, inj⟩ := c
  obtain rfl : rxsrc = .line := hsource
  cases line with
  | nrz =>
    simp only [rxSignal, rxBits, hsignal, lineSignal, nrzMod_length, Nat.mul_mod_left, true_and]
    exact nrzDem_nrzMod hA hS b
  | man =>
    simp only [rxSignal, rxBits, hsignal, lineSignal, manMod_length, Nat.mul_mod_left, true_and]
    exact manDem_manMod hA (hman rfl) b
  | ami =>
    obtain ⟨h0, hlt⟩ := hthr rfl
    simp only [rxSignal, rxBits, hsignal, lineSignal, amiMod_length, Nat.mul_mod_left, true_and]
    exact amiDem_amiMod hA hS h0 hlt b

omit hS hman in
/-- The receiver's registers pass the checks of the selected line command. -/
theorem signalRegsOk_of_line (hsps : spsOk (if c.line = .man then 2 else 1) u) : signalRegsOk (rxDemCommand c) u := by
  obtain ⟨framing, det, ham, line, carr, rxsrc, inj⟩ := c
  obtain rfl : rxsrc = .line := hsource
  cases line with
  | nrz => exact hsps
  | man => exact hsps
  | ami =>
    obtain ⟨h0, -⟩ := hthr rfl
    exact ⟨hsps, h0⟩

end Line

/-- RX delivers what a ready TX framed, wherever its demodulator gives the frame stream, with at most 7 bits after it. -/
theorem exec_rx_of_txReady {c : CfgFields} {s u : State} {S : Word} {r : RxSource} {j : Injection}
    (hready : txReady c s) (hcfg : readCfg u.cfg = some (c.receiving r j)) (hparams : sameParameters s u)
    (hregs : signalRegsOk (rxDemCommand (c.receiving r j)) u) (hsps : u.sps = some S)
    (hwhole : (rxSignal (c.receiving r j) u).length % S.toNat = 0) {rest : BitSeq} (hrest : rest.length < 8)
    (hbits : rxBits (c.receiving r j) u S.toNat = frameStream c s ++ rest) :
    exec .rx u = .next { u with byo := s.byi, bo := splitBits (bitsOf s.byi) s.maxpl.toNat,
                                status := if c.det ≠ [] ∧ s.byi ≠ [] then 0x110#32 else 0x100#32 } := by
  obtain ⟨⟨-, hM, hM8, hne⟩, -, -, -, -, hfits, -⟩ := hready
  obtain ⟨hmaxpl, -, hdelim, hesc, -⟩ := hparams
  have hstream : frameStream (c.receiving r j) { u with byi := s.byi } = frameStream c s := by
    simp only [frameStream, hmaxpl, hdelim, hesc]
    rfl
  rw [← hstream] at hbits
  rw [← hmaxpl] at hM hM8 hfits ⊢
  rw [← hdelim, ← hesc] at hne
  exact exec_rx_of_frameStream (c := c.receiving r j) ⟨⟨hcfg, hM, hM8, hne⟩, hregs⟩ hsps hfits hwhole hrest hbits

/-- Settles O53: TX's digital signal is the line-coded frame stream, which the demodulator gives back, and of which RX
makes the message. -/
theorem pipelineRoundTripLine : Obligations.PipelineRoundTripLine := by
  intro c s A hready hamp hpos
  obtain ⟨-, hspsOk, -, ⟨F, hfs, -⟩, -⟩ := id hready
  obtain ⟨S, hsps, -⟩ := id hspsOk
  obtain ⟨hS, hman, hA, -⟩ := registers_of_txReady hready hsps hamp hfs
  obtain ⟨t, ht, hsd, -⟩ := exec_tx_signals hready hsps hamp hfs hpos
  refine ⟨t, ht, fun u j hcfg hparams hthr hsi => ?_⟩
  obtain ⟨hwhole, hbits⟩ := rxBits_lineSignal (c := c.receiving .line j) rfl hS hman hthr hA _ (hsi.trans hsd)
  obtain ⟨-, husps, -⟩ := id hparams
  have huspsOk : spsOk (if c.line = .man then 2 else 1) u := by rwa [spsOk, husps]
  have hregs := signalRegsOk_of_line (c := c.receiving .line j) rfl hthr huspsOk
  exact exec_rx_of_txReady hready hcfg hparams hregs (husps.trans hsps) hwhole (rest := []) (by decide)
    (hbits.trans (List.append_nil _).symm)

end Sys2Proof.Machine

/-! The statements of family 60 (spec/60_exceptions.md): the table of R251 and what an aborting error leaves (R246).
Both come from one inversion, `exec_inRow`: a command raises an error of its row with empty outputs, or it completes
with OK or with a best-effort error of its row. That every error of a row occurs is shown by states on which the model
evaluates to it. -/

namespace Sys2Proof.Machine

/-! ## Results that fail within a row of the table (R251) -/

/-- Every error of a result has one of the codes. -/
def failsWithin {α : Type} (codes : List Nat) (r : Except Err α) : Prop := ∀ e, r = .error e → errCode e ∈ codes

section Results
variable {α β : Type} {codes : List Nat}

theorem failsWithin_ok (x : α) : failsWithin codes (.ok x) := fun _ h => nomatch h

theorem failsWithin_error {e : Err} (h : errCode e ∈ codes) : failsWithin codes (.error e : Except Err α) := by
  rintro _ ⟨⟩
  exact h

theorem failsWithin_orConfig (h : 1 ∈ codes) (r : Option α) : failsWithin codes (orConfig r) := by
  cases r with
  | some x => exact failsWithin_ok x
  | none => exact failsWithin_error h

theorem failsWithin_orFraming (h : 2 ∈ codes) (r : Option α) : failsWithin codes (orFraming r) := by
  cases r with
  | some x => exact failsWithin_ok x
  | none => exact failsWithin_error h

theorem failsWithin_andThen {r : Except Err α} {f : α → Except Err β} (hr : failsWithin codes r)
    (hf : ∀ x, failsWithin codes (f x)) : failsWithin codes (andThen r f) := by
  cases r with
  | ok x => exact hf x
  | error e => exact failsWithin_error (hr e rfl)

theorem failsWithin_modulate (h : 1 ∈ codes) (m : Option Modulator) (b : BitSeq) :
    failsWithin codes (modulate m b) :=
  failsWithin_andThen (failsWithin_orConfig h m) fun _ => failsWithin_ok _

theorem failsWithin_demodulate (hconfig : 1 ∈ codes) (htruncation : 5 ∈ codes) (m : Option Demodulator)
    (x : List Sample) : failsWithin codes (demodulate m x) := by
  refine failsWithin_andThen (failsWithin_orConfig hconfig m) fun d => ?_
  split
  · exact failsWithin_ok _
  · exact failsWithin_error htruncation

theorem failsWithin_demodulatePacket (hconfig : 1 ∈ codes) (htruncation : 5 ∈ codes) (m : Option Demodulator)
    (x : List Sample) : failsWithin codes (demodulatePacket m x) :=
  failsWithin_andThen (failsWithin_demodulate hconfig htruncation m x) fun _ => failsWithin_ok _

end Results

/-- TX has no FramingError: a plan is made only where check 6 of R220 lets every frame be made (log 12). -/
theorem txRun_failsWithin (s : State) : failsWithin [1] (txRun s) := by
  cases hp : txPlan s with
  | none =>
    rw [txRun, hp]
    exact failsWithin_error (List.mem_singleton_self 1)
  | some p =>
    have hready := txReady_of_txPlan hp
    obtain ⟨-, ⟨S, hsps, -⟩, ⟨A, hamp, -⟩, ⟨F, hfs, -⟩, -⟩ := id hready
    rw [txRun_of_txReady hready hsps hamp hfs]
    exact failsWithin_andThen (failsWithin_orConfig (List.mem_singleton_self 1) _) fun _ => failsWithin_ok _

theorem rxRun_failsWithin (s : State) : failsWithin (raisableErrors .rx) (rxRun s) :=
  failsWithin_andThen (failsWithin_orConfig (by decide) _) fun _ =>
    failsWithin_andThen (failsWithin_demodulate (by decide) (by decide) _ _) fun _ =>
      failsWithin_andThen (failsWithin_orFraming (by decide) _) fun _ => failsWithin_orFraming (by decide) _

/-! ## The two ways a command ends (R246, R251) -/

/-- How a command ends on `s` that owns `o` and has the codes in its row: by a raised error, or completed with OK or with
an error that comes with the outputs written, DetectionError or CorrectionFailure. -/
inductive EndsInRow (codes : List Nat) (o : Owned) (s : State) : State → Prop
  | raised (e : Err) (h : errCode e ∈ codes) : EndsInRow codes o s (s.raise o e)
  | completed {t : State} (e : Err) (f : Flags) (hstatus : t.status = statusWord e f)
      (h : e = .ok ∨ e ∈ [.detection, .correction] ∧ errCode e ∈ codes) : EndsInRow codes o s t

section Ends
variable {codes : List Nat} {s : State}

theorem finishBo_inRow {r : Except Err (List BitSeq)} (h : failsWithin codes r) :
    EndsInRow codes .bo s (s.finishBo r) := by
  cases r with
  | ok l => exact .completed .ok noFlags rfl (.inl rfl)
  | error e => exact .raised e (h e rfl)

theorem finishSignal_inRow {r : Except Err (List Sample × List ℚ)} (h : failsWithin codes r) :
    EndsInRow codes .signal s (s.finishSignal r) := by
  cases r with
  | ok x => exact .completed .ok noFlags rfl (.inl rfl)
  | error e => exact .raised e (h e rfl)

theorem finishCheck_inRow (p : BitSeq) (passed : Bool) : EndsInRow [3] .bo s (s.finishCheck p passed) := by
  refine .completed _ (checkFlags passed) rfl ?_
  cases passed with
  | true => exact .inl rfl
  | false => exact .inr (by decide)

end Ends

theorem execBits2b_inRow (s : State) : ∃ t, execBits2b s = .next t ∧ EndsInRow [6] .byo s t := by
  refine ⟨_, rfl, ?_⟩
  split
  · exact .completed .ok noFlags rfl (.inl rfl)
  · exact .raised .alignment (by decide)

theorem execHamDec_inRow (s : State) : ∃ t, execHamDec s = .next t ∧ EndsInRow [4] .bo s t := by
  refine ⟨_, rfl, .completed _ _ rfl ?_⟩
  split
  · exact .inr (by decide)
  · exact .inl rfl

theorem execInjRnd_inRow (s : State) : ∃ t, execInjRnd s = .next t ∧ EndsInRow [1] .bo s t := by
  unfold execInjRnd
  cases s.injmax with
  | some k => exact ⟨_, rfl, .completed .ok noFlags rfl (.inl rfl)⟩
  | none => exact ⟨_, rfl, .raised .config (by decide)⟩

theorem execTx_inRow (s : State) : ∃ t, execTx s = .next t ∧ EndsInRow [1] .tx s t := by
  unfold execTx
  cases hrun : txRun s with
  | ok r => exact ⟨_, rfl, .completed .ok noFlags rfl (.inl rfl)⟩
  | error e => exact ⟨_, rfl, .raised e (txRun_failsWithin s e hrun)⟩

theorem rxErr_inRow (f : Flags) :
    rxErr f = .ok ∨ rxErr f ∈ [.detection, .correction] ∧ errCode (rxErr f) ∈ raisableErrors .rx := by
  unfold rxErr
  split
  · exact .inr (by decide)
  · split
    · exact .inr (by decide)
    · exact .inl rfl

theorem execRx_inRow (s : State) : ∃ t, execRx s = .next t ∧ EndsInRow (raisableErrors .rx) .rx s t := by
  unfold execRx
  cases hrun : rxRun s with
  | ok us => exact ⟨_, rfl, .completed _ _ rfl (rxErr_inRow _)⟩
  | error e => exact ⟨_, rfl, .raised e (rxRun_failsWithin s e hrun)⟩

/-- Every command ends in its row of the table. -/
theorem exec_inRow (i : Instr) (s : State) :
    ∃ t, exec i s = .next t ∧ EndsInRow (raisableErrors i) (ownedBy i) s t := by
  cases i with
  | b2bits | parAdd | crcAdd | hamEnc => exact ⟨_, rfl, finishBo_inRow (failsWithin_ok _)⟩
  | bits2b => exact execBits2b_inRow s
  | parChk | crcChk =>
    refine ⟨_, rfl, ?_⟩
    split <;> exact finishCheck_inRow _ _
  | hamDec => exact execHamDec_inRow s
  | split | wrapStf =>
    exact ⟨_, rfl, finishBo_inRow (failsWithin_andThen (failsWithin_orConfig (by decide) _) fun _ =>
      failsWithin_ok _)⟩
  | wrapCnt =>
    exact ⟨_, rfl, finishBo_inRow (failsWithin_andThen (failsWithin_orFraming (by decide) _) fun _ =>
      failsWithin_ok _)⟩
  | frmCnt | dfrStf =>
    exact ⟨_, rfl, finishBo_inRow (failsWithin_andThen (failsWithin_orConfig (by decide) _) fun _ =>
      failsWithin_orFraming (by decide) _)⟩
  | dfrCnt => exact ⟨_, rfl, finishBo_inRow (failsWithin_orFraming (by decide) _)⟩
  | frmStf | injOne =>
    exact ⟨_, rfl, finishBo_inRow (failsWithin_andThen (failsWithin_orConfig (by decide) _) fun _ =>
      failsWithin_andThen (failsWithin_orConfig (by decide) _) fun _ => failsWithin_ok _)⟩
  | nrzMod | manMod | amiMod | askMod | fskMod | qamMod =>
    exact ⟨_, rfl, finishSignal_inRow (failsWithin_modulate (by decide) _ _)⟩
  | nrzDem | manDem | amiDem | askDem | fskDem | qamDem =>
    exact ⟨_, rfl, finishBo_inRow (failsWithin_demodulatePacket (by decide) (by decide) _ _)⟩
  | injRnd => exact execInjRnd_inRow s
  | tx => exact execTx_inRow s
  | rx => exact execRx_inRow s

theorem endsInRow_of_exec {i : Instr} {s t : State} (h : exec i s = .next t) :
    EndsInRow (raisableErrors i) (ownedBy i) s t := by
  obtain ⟨u, hu, hrow⟩ := exec_inRow i s
  obtain rfl := Host.Outcome.next.inj (hu.symm.trans h)
  exact hrow

/-! ## What an aborting error leaves (R240, R246) -/

/-- STATUS after a raised error: DONE and the code. -/
theorem statusWord_noFlags (e : Err) : statusWord e noFlags = BitVec.ofNat 32 (0x100 + errCode e) :=
  congrArg (BitVec.ofNat 32) (Nat.add_comm (errCode e) 256)

/-- Settles O14: a code of an aborting error is none of a completed command, so it was raised. -/
theorem abortingErrorsDeliverNothing : Obligations.AbortingErrorsDeliverNothing := by
  intro i s t h habort
  cases endsInRow_of_exec h with
  | raised e =>
    rw [State.raise_status, statusErr_statusWord, ← statusWord_noFlags, State.raise_eq]
  | completed e f hstatus he =>
    rw [hstatus, statusErr_statusWord] at habort
    rcases he with rfl | ⟨he, -⟩
    · exact absurd habort (by decide)
    · rcases List.mem_pair.1 he with rfl | rfl <;> exact absurd habort (by decide)

/-! ## Every error of a row is raised (R251) -/

theorem errCode_mem_of_exec {i : Instr} {s t : State} (h : exec i s = .next t) (hne : statusErr t.status ≠ 0) :
    statusErr t.status ∈ raisableErrors i := by
  cases endsInRow_of_exec h with
  | raised e he => rwa [State.raise_status, statusErr_statusWord]
  | completed e f hstatus he =>
    rw [hstatus, statusErr_statusWord] at hne ⊢
    rcases he with rfl | ⟨-, he⟩
    · exact absurd rfl hne
    · exact he

/-- The code in STATUS.ERR after a command. -/
def errAfter (i : Instr) (s : State) : Option Nat :=
  match exec i s with
  | .next t => some (statusErr t.status)
  | .fault _ | .refused _ => none

theorem errAfter_eq_some {i : Instr} {s : State} {code : Nat} :
    errAfter i s = some code ↔ ∃ t, exec i s = .next t ∧ statusErr t.status = code := by
  unfold errAfter
  cases exec i s <;> simp

/-- ConfigurationError: MAXPL is 0, DELIM and ESC are equal, and the other registers are unset. -/
def badRegisters : State := { State.reset with maxpl := 0, delim := 0x23 }

/-- FramingError of a sender: 2041 bits do not fit a count. -/
def longPayload : State := { State.reset with maxpl := 2048, bi := zeros 2041 }

/-- FramingError of a receiver, in BI and in SI: eight ones announce 255 bytes that are not there, and under STUFF they
stand outside every frame. -/
def cutFrame : State :=
  { State.reset with sps := some 1, bi := List.replicate 8 true, si := nrzMod 1 1 (List.replicate 8 true) }

/-- DetectionError: no bits in BI, and in SI a counted chunk whose parity trailer is wrong. -/
def badTrailers : State := { State.reset with cfg := 2, sps := some 1, si := nrzMod 1 1 (be 0x021000 24) }

/-- CorrectionFailure: in BI and, counted, in SI a codeword whose syndrome is out of range. -/
def badCodewords : State :=
  { State.reset with cfg := 0x20, sps := some 1, bi := be 0b10110 5, si := nrzMod 1 1 (be 0x028010 24) }

/-- TruncationError: every register is set, and one sample is no whole window. -/
def badWindow : State :=
  { State.reset with sps := some 2, fs := some 1, amp := some 1, fc := some 1, flo := some 1, fhi := some 1,
                     si := nrzMod 1 1 [true] }

/-- AlignmentError: one bit is no whole byte. -/
def badAlignment : State := { State.reset with bi := [true] }

theorem longPayload_length : 2040 < longPayload.bi.length :=
  (Nat.lt_succ_self 2040).trans_eq (zeros_length 2041).symm

theorem exec_frmCnt_longPayload :
    exec .frmCnt longPayload = .next { longPayload with bo := [], status := 0x102#32 } := by
  have hmin : 2040 < min longPayload.maxpl.toNat longPayload.bi.length := lt_min (by decide) longPayload_length
  rw [exec_frmCnt_of_ne_zero (by decide), frameByCount_of_lt hmin]
  rfl

/-- Row by row of R251: a state on which the command ends in the error. -/
theorem exists_errAfter {i : Instr} {code : Nat} (h : code ∈ raisableErrors i) : ∃ s, errAfter i s = some code := by
  cases i with
  | b2bits | parAdd | crcAdd | hamEnc => cases h
  | bits2b =>
    obtain rfl := List.mem_singleton.1 h
    exact ⟨badAlignment, by decide⟩
  | parChk | crcChk =>
    obtain rfl := List.mem_singleton.1 h
    exact ⟨badTrailers, by decide⟩
  | hamDec =>
    obtain rfl := List.mem_singleton.1 h
    exact ⟨badCodewords, by decide⟩
  | split | wrapStf | frmStf | nrzMod | manMod | amiMod | askMod | fskMod | qamMod | injOne | injRnd | tx =>
    obtain rfl := List.mem_singleton.1 h
    exact ⟨badRegisters, by decide⟩
  | wrapCnt =>
    obtain rfl := List.mem_singleton.1 h
    exact ⟨longPayload, errAfter_eq_some.2 ⟨_, exec_wrapCnt_of_lt longPayload_length, rfl⟩⟩
  | frmCnt =>
    rcases List.mem_pair.1 h with rfl | rfl
    · exact ⟨badRegisters, by decide⟩
    · exact ⟨longPayload, errAfter_eq_some.2 ⟨_, exec_frmCnt_longPayload, rfl⟩⟩
  | dfrCnt =>
    obtain rfl := List.mem_singleton.1 h
    exact ⟨cutFrame, by decide⟩
  | dfrStf =>
    rcases List.mem_pair.1 h with rfl | rfl
    · exact ⟨badRegisters, by decide⟩
    · exact ⟨cutFrame, by decide⟩
  | nrzDem | manDem | amiDem | askDem | fskDem | qamDem =>
    rcases List.mem_pair.1 h with rfl | rfl
    · exact ⟨badRegisters, by decide⟩
    · exact ⟨badWindow, by decide⟩
  | rx =>
    simp only [raisableErrors, List.mem_cons, List.not_mem_nil, or_false] at h
    rcases h with rfl | rfl | rfl | rfl | rfl
    · exact ⟨badRegisters, by decide⟩
    · exact ⟨cutFrame, by decide +kernel⟩
    · exact ⟨badTrailers, by decide +kernel⟩
    · exact ⟨badCodewords, by decide +kernel⟩
    · exact ⟨badWindow, by decide⟩

/-- Settles O13: a command ends in its row, every error of the row is raised by some state, and an illegal word raises
the error of R71. -/
theorem errorTable : Obligations.ErrorTable := by
  refine ⟨fun i code hne => ⟨?_, fun h => ?_⟩, fun w s h => ?_⟩
  · rintro ⟨s, t, hexec, rfl⟩
    exact errCode_mem_of_exec hexec hne
  · obtain ⟨s, hs⟩ := exists_errAfter h
    obtain ⟨t, hexec, hcode⟩ := errAfter_eq_some.1 hs
    exact ⟨s, t, hexec, hcode⟩
  · obtain ⟨e, he⟩ := exists_decode_eq_error_iff.2 h
    exact ⟨_, issue_error he s, statusErr_statusWord .config noFlags⟩

end Sys2Proof.Machine
